-- ==== Sys2Proof/Word.lean ====
section
/-! DEFINITION. The two word types of the block: a byte (00_scope.md R8) and a 32-bit register (10_state.md R24). -/

namespace Sys2Proof

/-- A byte is 8 bits, bit 7 the most significant (R8). -/
abbrev Byte := BitVec 8

/-- The width of `IN_LEN` and `OUT_LEN` (R24, R25). -/
abbrev Word := BitVec 32

end Sys2Proof
end

