-- ==== Sys2Proof/Config.lean ====
section
/-! DEFINITION. What an instance of the block fixes (00_scope.md R6, R7), the two constants of the RLE format, and the free
values: constants without a body, for what the spec leaves unspecified (93_implementation_defined.md). -/

namespace Sys2Proof

/-- The parameters of one instance (R6; the three bases are those of 20_memory.md R66, which no rule reads). The spec leaves
every value open, so they are data of the machine (log 1): a statement about every state is one about every instance. -/
structure Params where
  inCap     : Nat
  outCap    : Nat
  window    : Nat
  lookahead : Nat
  minMatch  : Nat
  regBase   : Nat
  inBase    : Nat
  outBase   : Nat
  deriving DecidableEq, Repr

/-- The ranges of R6 and the constraints of R7. -/
abbrev Params.ok (p : Params) : Prop :=
  1 ≤ p.inCap ∧ p.inCap ≤ 4294967295 ∧ 1 ≤ p.outCap ∧ p.outCap ≤ 4294967295 ∧
  1 ≤ p.window ∧ p.window ≤ 65535 ∧ p.lookahead ≤ 65535 ∧ 1 ≤ p.minMatch ∧ p.minMatch ≤ p.lookahead

/-- The instance of `State.reset`. DESIGN CHOICE (log 1): R6's reference values 4096, 18, 3 for the LZ77 constants, and
capacities for which `CAP_OK` (R7) holds. -/
def Params.reference : Params :=
  { inCap := 65536, outCap := 4194304, window := 4096, lookahead := 18, minMatch := 3, regBase := 0, inBase := 0, outBase := 0 }

/-- `ESCAPE`, the RLE escape byte (R6). -/
def escapeByte : Byte := 0xFF

/-- `RUN_CAP`, the longest run in one RLE record (R6). -/
def runCap : Nat := 255

/-- Free value: the byte of `IN` at an offset that nothing has written since power-up (U1, log 4). DESIGN CHOICE: it depends on the
offset alone, so two power-ups leave the same bytes there. -/
opaque Config.freeIn : Nat → Byte

/-- Free value: an unspecified byte of `OUT` (U1, U2, U4, log 5). The first argument is the machine's `fresh` counter, which a
launch, a reset and a read while `BUSY` advance, the second the offset. -/
opaque Config.freeOut : Nat → Nat → Byte

/-- Free value: an unspecified 32-bit value a host access meets while `BUSY` (R357, U2, log 6 and 7). -/
opaque Config.freeWord : Nat → Word

/-- Free value: the choices of an unspecified completion (R357, U3, log 7). -/
opaque Config.freeNat : Nat → Nat

end Sys2Proof
end

