-- ==== Sys2Proof/Syntax.lean ====
section
/-! DEFINITION. The whole syntax: the fifteen rows of spec/opcode_table.json as one inductive type, the error kinds by which a
decoder rejects (60_exceptions.md R310), and the places at which a unit can stand (30_encoding.md R109). -/

namespace Sys2Proof

/-- The nine error kinds (R310). -/
inductive ErrKind where
  | truncatedStream
  | invalidDistance
  | invalidMatchLength
  | invalidEscape
  | corruptHeader
  | unknownAlgorithm
  | invalidHeader
  | invalidFlag
  | outputOverflow
  deriving DecidableEq, Repr

/-- The six commands (40_codec_interface.md R131) and the nine stream units (30_encoding.md R90). -/
inductive Instr where
  /-- `HUFF_COMPRESS` (R138). -/
  | huffCompress
  /-- `LZ77_COMPRESS` (R140). -/
  | lz77Compress
  /-- `RLE_COMPRESS` (R142). -/
  | rleCompress
  /-- `HUFF_DECOMPRESS` (R139). -/
  | huffDecompress
  /-- `LZ77_DECOMPRESS` (R141). -/
  | lz77Decompress
  /-- `RLE_DECOMPRESS` (R143). -/
  | rleDecompress
  /-- `LZ77.HDR`, the header of an LZ77 stream (R96). -/
  | lz77Hdr (origLen : BitVec 32)
  /-- `LZ77.LIT`, a literal token (R98). -/
  | lz77Lit (byte : Byte)
  /-- `LZ77.MATCH`, a match token (R97). -/
  | lz77Match (distance length : BitVec 16) (next : Byte)
  /-- `HUFF.HDR`, the fixed header of a Huffman stream (R101). -/
  | huffHdr (origLen : BitVec 32) (payloadBits : BitVec 64) (symCount : BitVec 16)
  /-- `HUFF.SYM`, one symbol entry (R102). -/
  | huffSym (sym : Byte) (freq : BitVec 32)
  /-- `HUFF.BITS`, the payload: the packed code bits, as the bytes that hold them (R103). -/
  | huffBits (payload : List Byte)
  /-- `RLE.RAW`, a raw literal (R106). -/
  | rleRaw (byte : Byte)
  /-- `RLE.ESCLIT`, an escaped literal `0xFF` (R107). -/
  | rleEsclit
  /-- `RLE.RUN`, a run record (R108). -/
  | rleRun (count byte : Byte)
  deriving DecidableEq, Repr

/-- Where an encoded unit stands: what the reader expects there is told by the stream and the position (R109). -/
inductive Ctx where
  /-- the command register -/
  | cmd
  /-- offset 0 of an LZ77 stream -/
  | lz77Hdr
  /-- a token boundary of an LZ77 stream -/
  | lz77Tok
  /-- offset 0 of a Huffman stream -/
  | huffHdr
  /-- offset `14 + 5i`, `i < SYM_COUNT`, of a Huffman stream -/
  | huffSym
  /-- offset `HDR_LEN` of a Huffman stream -/
  | huffBits
  /-- a record boundary of an RLE stream -/
  | rleRec
  deriving DecidableEq, Repr

/-- The place at which the units of each kind stand. -/
def Instr.ctx : Instr → Ctx
  | .huffCompress | .lz77Compress | .rleCompress | .huffDecompress | .lz77Decompress | .rleDecompress => .cmd
  | .lz77Hdr _ => .lz77Hdr
  | .lz77Lit _ => .lz77Tok
  | .lz77Match _ _ _ => .lz77Tok
  | .huffHdr _ _ _ => .huffHdr
  | .huffSym _ _ => .huffSym
  | .huffBits _ => .huffBits
  | .rleRaw _ => .rleRec
  | .rleEsclit => .rleRec
  | .rleRun _ _ => .rleRec

end Sys2Proof
end

