-- ==== Sys2Proof/WellFormed.lean ====
section
/-! DEFINITION. Which instruction terms have an encoding of their own. Only the RLE format narrows its fields: `RAW` holds any
byte but the escape byte (30_encoding.md R106) and a run's count byte is not 0 (R108). Field values that a decoder answers with
an error kind (R112) are well formed: they are encodable, and the unit's meaning raises the kind. -/

namespace Sys2Proof

/-- The check of each row's fields (R90 to R108). -/
def Instr.wf : Instr → Bool
  | .huffCompress | .lz77Compress | .rleCompress | .huffDecompress | .lz77Decompress | .rleDecompress => true
  | .lz77Hdr _ => true
  | .lz77Lit _ => true
  | .lz77Match _ _ _ => true
  | .huffHdr _ _ _ => true
  | .huffSym _ _ => true
  | .huffBits _ => true
  | .rleRaw b => b != escapeByte
  | .rleEsclit => true
  | .rleRun c _ => c != 0

end Sys2Proof
end

