-- ==== Sys2Proof/Decode.lean ====
section
/-! DEFINITION. Decoding, total on any bytes, rejecting by error kind (30_encoding.md R109, R112), and the encoder. -/

namespace Sys2Proof

/-! ## Fields: unsigned and little-endian (R61, R110) -/

/-- A 16-bit field from its bytes in stream order. -/
def le16 (b0 b1 : Byte) : BitVec 16 := b1 ++ b0

/-- A 32-bit field from its bytes in stream order. -/
def le32 (b0 b1 b2 b3 : Byte) : BitVec 32 := b3 ++ b2 ++ b1 ++ b0

/-- A 64-bit field from its bytes in stream order. -/
def le64 (b0 b1 b2 b3 b4 b5 b6 b7 : Byte) : BitVec 64 := b7 ++ b6 ++ b5 ++ b4 ++ b3 ++ b2 ++ b1 ++ b0

/-- `u16le` (R8). -/
def u16le (v : BitVec 16) : List Byte := [v.extractLsb' 0 8, v.extractLsb' 8 8]

/-- `u32le` (R8). -/
def u32le (v : BitVec 32) : List Byte := [v.extractLsb' 0 8, v.extractLsb' 8 8, v.extractLsb' 16 8, v.extractLsb' 24 8]

/-- `u64le` (R8). -/
def u64le (v : BitVec 64) : List Byte :=
  [v.extractLsb' 0 8, v.extractLsb' 8 8, v.extractLsb' 16 8, v.extractLsb' 24 8,
   v.extractLsb' 32 8, v.extractLsb' 40 8, v.extractLsb' 48 8, v.extractLsb' 56 8]

/-! ## The command word -/

/-- `ALG`, bits 1:0 of the command word (R91). -/
def cmdAlg (c : Byte) : BitVec 2 := c.extractLsb' 0 2

/-- `DIR`, bit 2 of the command word: 0 compress, 1 decompress (R91). -/
def cmdDir (c : Byte) : BitVec 1 := c.extractLsb' 2 1

/-- Bits 7:3 of the command word, which must be 0 (R91). -/
def cmdReserved (c : Byte) : BitVec 5 := c.extractLsb' 3 5

/-- The command a command word names, if it names one (R92, R93). -/
def decodeCmd (c : Byte) : Option Instr :=
  if cmdReserved c ≠ 0 then none
  else if cmdAlg c = 0 then (if cmdDir c = 0 then some .huffCompress else some .huffDecompress)
  else if cmdAlg c = 1 then (if cmdDir c = 0 then some .lz77Compress else some .lz77Decompress)
  else if cmdAlg c = 2 then (if cmdDir c = 0 then some .rleCompress else some .rleDecompress)
  else none

/-! ## The stream units -/

/-- A token of an LZ77 stream (R97, R98, R99; the order of the tests is that of R325 (d)). -/
def decodeLz77Tok : List Byte → Except ErrKind (Instr × List Byte)
  | [] => .error .truncatedStream
  | flag :: rest =>
    if flag = 0x00 then
      match rest with
      | b :: rest => .ok (.lz77Lit b, rest)
      | _ => .error .truncatedStream
    else if flag = 0x01 then
      match rest with
      | d0 :: d1 :: l0 :: l1 :: nx :: rest => .ok (.lz77Match (le16 d0 d1) (le16 l0 l1) nx, rest)
      | _ => .error .truncatedStream
    else .error .invalidFlag

/-- A record of an RLE stream (R106 to R108; both bytes after an escape are read before they are tested, R290). -/
def decodeRleRec : List Byte → Except ErrKind (Instr × List Byte)
  | [] => .error .truncatedStream
  | first :: rest =>
    if first ≠ escapeByte then .ok (.rleRaw first, rest)
    else
      match rest with
      | sub :: third :: rest =>
        if sub = 0x00 then
          (if third = escapeByte then .ok (.rleEsclit, rest) else .error .invalidEscape)
        else .ok (.rleRun sub third, rest)
      | _ => .error .truncatedStream

/-- The fixed header of a Huffman stream (R101); fewer than 14 bytes are `CorruptHeader` (R192). -/
def decodeHuffHdr : List Byte → Except ErrKind (Instr × List Byte)
  | o0 :: o1 :: o2 :: o3 :: p0 :: p1 :: p2 :: p3 :: p4 :: p5 :: p6 :: p7 :: k0 :: k1 :: rest =>
    .ok (.huffHdr (le32 o0 o1 o2 o3) (le64 p0 p1 p2 p3 p4 p5 p6 p7) (le16 k0 k1), rest)
  | _ => .error .corruptHeader

/-- A symbol entry of a Huffman stream (R102). -/
def decodeHuffSym : List Byte → Except ErrKind (Instr × List Byte)
  | s :: f0 :: f1 :: f2 :: f3 :: rest => .ok (.huffSym s (le32 f0 f1 f2 f3), rest)
  | _ => .error .corruptHeader

/-- The header of an LZ77 stream (R96); fewer than 4 bytes are `InvalidHeader` (R251). -/
def decodeLz77Hdr : List Byte → Except ErrKind (Instr × List Byte)
  | b0 :: b1 :: b2 :: b3 :: rest => .ok (.lz77Hdr (le32 b0 b1 b2 b3), rest)
  | _ => .error .invalidHeader

/-- The unit that stands first in `bs` at a place of kind `c`, with the bytes after it, or the error kind that names why no unit
stands there (R109, R112). The Huffman payload takes all that is left of the stream (R103). -/
def decode (c : Ctx) (bs : List Byte) : Except ErrKind (Instr × List Byte) :=
  match c with
  | .cmd =>
    match bs with
    | b :: rest =>
      match decodeCmd b with
      | some i => .ok (i, rest)
      | none => .error .unknownAlgorithm
    | [] => .error .unknownAlgorithm
  | .lz77Hdr => decodeLz77Hdr bs
  | .lz77Tok => decodeLz77Tok bs
  | .huffHdr => decodeHuffHdr bs
  | .huffSym => decodeHuffSym bs
  | .huffBits => .ok (.huffBits bs, [])
  | .rleRec => decodeRleRec bs

/-! ## The encoder -/

/-- The bytes of an instruction in stream order (R92, R96 to R98, R101 to R103, R106 to R108). -/
def encode : Instr → List Byte
  | .huffCompress => [0x00]
  | .lz77Compress => [0x01]
  | .rleCompress => [0x02]
  | .huffDecompress => [0x04]
  | .lz77Decompress => [0x05]
  | .rleDecompress => [0x06]
  | .lz77Hdr v => u32le v
  | .lz77Lit b => [0x00, b]
  | .lz77Match d l nx => 0x01 :: (u16le d ++ u16le l ++ [nx])
  | .huffHdr o p k => u32le o ++ u64le p ++ u16le k
  | .huffSym s f => s :: u32le f
  | .huffBits payload => payload
  | .rleRaw b => [b]
  | .rleEsclit => [escapeByte, 0x00, escapeByte]
  | .rleRun c b => [escapeByte, c, b]

/-! ## The table's numbering (log 13) -/

/-- The bytes of an opcode-table word in stream order. The table writes the match and mask of a row with the first byte leftmost, so
the first byte is the most significant of the `nbits` bits. Zero bytes follow, up to the longest unit of fixed length (14). -/
def tableBytes (nbits w : Nat) : List Byte :=
  let n := nbits / 8
  (List.range n).map (fun i => BitVec.ofNat 8 (w >>> (8 * (n - 1 - i)))) ++ List.replicate (14 - n) 0

/-- Where a word of the table's width stands. One byte is a command if it names one and else an RLE record; the other widths
each belong to one stream. -/
def tableCtx (nbits w : Nat) : Option Ctx :=
  match nbits / 8 with
  | 1 => if (decodeCmd (BitVec.ofNat 8 w)).isSome then some .cmd else some .rleRec
  | 2 => some .lz77Tok
  | 3 => some .rleRec
  | 4 => some .lz77Hdr
  | 5 => some .huffSym
  | 6 => some .lz77Tok
  | 14 => some .huffHdr
  | _ => none

/-- The instruction the decoder reads from a word numbered as the opcode table numbers it. -/
def decodeTableWord (nbits w : Nat) : Option Instr :=
  match tableCtx nbits w with
  | none => none
  | some c =>
    match decode c (tableBytes nbits w) with
    | .ok (i, _) => some i
    | .error _ => none

end Sys2Proof
end

