-- ==== Sys2Proof/Machine/State.lean ====
section
/-! DEFINITION. The machine's state (10_state.md) as plain data, the reasons a step can stop, and the state after reset. -/

namespace Sys2Proof.Machine

/-- A byte memory: the bytes it holds a value for, at strictly rising offsets. An unlisted offset holds no value of the
model's; reading one gives a free value (log 4, log 5). -/
abbrev Memory := List Host.Cell

/-- The canonical form of a memory. -/
abbrev Memory.wf (m : Memory) : Prop := (m.map Prod.fst).Pairwise (· < ·)

/-- `STATUS` (R22). -/
inductive Status where
  | idle
  | busy
  | done
  | error
  deriving DecidableEq, Repr

/-- `PHASE` (R29). -/
inductive Phase where
  | idle
  | hFreq | hBuild | hCodes | hHeader | hPack | hFlush
  | dHeader | dBuild | dCodes | dCheck | dWalk
  | lHeader | lSearch | lEmit
  | mHeader | mToken | mCopy
  | rRun | rEmit
  | sToken
  | endOk | endErr
  deriving DecidableEq, Repr

/-- An entry of `NODE` (R34): a leaf holds `SYM` and `F`, an internal node `F`, `LEFT` and `RIGHT`; the fields R34 leaves
unspecified are not there. -/
inductive Node where
  | leaf (sym : Byte) (f : Nat)
  | internal (f left right : Nat)
  deriving DecidableEq, Repr

/-- The Huffman working state (R33 to R39) and `prev` of R193. -/
structure HuffRegs where
  /-- `FREQ[0 .. 255]` (R33) -/
  freq        : List Nat
  /-- `NODE[0 .. NCOUNT-1]` (R34); entries at and above `NCOUNT` are unspecified and are not held -/
  node        : List Node
  /-- `ALIVE` (R35): the indices whose bit is 1, in ascending order -/
  alive       : List Nat
  /-- `K` (R36) -/
  k           : Nat
  /-- `NCOUNT` (R36) -/
  ncount      : Nat
  /-- `ROOT` (R36) -/
  root        : Nat
  /-- `CODE[0 .. 255]` (R37): `BITS` of each entry, first bit first; `LEN` is its length -/
  code        : List (List Bool)
  /-- `ACC` (R38) -/
  acc         : Byte
  /-- `NACC` (R38) -/
  nacc        : Nat
  /-- `BITS_TOTAL` (R38) -/
  bitsTotal   : Nat
  /-- `BITS_SUM` (R38) -/
  bitsSum     : Nat
  /-- `ORIG_LEN` (R39) -/
  origLen     : Nat
  /-- `PAYLOAD_BITS` (R39) -/
  payloadBits : Nat
  /-- `HDR_LEN` (R39) -/
  hdrLen      : Nat
  /-- `CUR` (R39) -/
  cur         : Nat
  /-- `BITPOS` (R39) -/
  bitPos      : Nat
  /-- `prev` of R193 (log 17) -/
  prev        : Option Byte
  deriving DecidableEq, Repr

/-- The LZ77 working state: the encoder's registers (R40), then the decoder's (R41). -/
structure LzRegs where
  /-- `S` (R40) -/
  s        : Nat
  /-- `CLEN` (R40) -/
  clen     : Nat
  /-- `BEST_LEN` (R40) -/
  bestLen  : Nat
  /-- `BEST_DIST` (R40) -/
  bestDist : Nat
  /-- `TARGET` (R41) -/
  target   : Nat
  /-- `T_DIST` (R41) -/
  tDist    : Nat
  /-- `T_LEN` (R41) -/
  tLen     : Nat
  /-- `T_NEXT` (R41) -/
  tNext    : Byte
  /-- `COPY_I` (R41) -/
  copyI    : Nat
  deriving DecidableEq, Repr

/-- The RLE working state (R42). -/
structure RleRegs where
  /-- `RUN_BYTE` (R42) -/
  runByte : Byte
  /-- `RUN_CNT` (R42) -/
  runCnt  : Nat
  deriving DecidableEq, Repr

/-- The five registers of the register space (R20, R60), numbers 0 to 4. -/
inductive Reg where
  /-- register 0, `CMD` (R21) -/
  | cmd
  /-- register 1, `STATUS` (R22) -/
  | status
  /-- register 2, `ERR` (R23) -/
  | err
  /-- register 3, `IN_LEN` (R24) -/
  | inLen
  /-- register 4, `OUT_LEN` (R25) -/
  | outLen
  deriving DecidableEq, Repr

/-- One access of the host to one of the three address spaces (R60, R358), or one event of the block's reset input (R350). -/
inductive HostOp where
  /-- write register number `r` -/
  | writeReg (r : Nat) (v : Word)
  /-- write `IN[a]` -/
  | writeIn (a : Nat) (b : Byte)
  /-- write `OUT[a]` -/
  | writeOut (a : Nat) (b : Byte)
  /-- read register number `r` -/
  | readReg (r : Nat)
  /-- read `IN[a]` -/
  | readIn (a : Nat)
  /-- read `OUT[a]` -/
  | readOut (a : Nat)
  /-- sample the output `done_o` -/
  | readDone
  /-- the reset input `rst` -/
  | reset
  /-- power-up -/
  | powerUp
  deriving DecidableEq, Repr

/-- A write of `CMD`, register 0 (R21). -/
abbrev HostOp.writeCmd (c : Byte) : HostOp := .writeReg 0 (c.setWidth 32)

/-- A write of `IN_LEN`, register 3 (R24). -/
abbrev HostOp.writeInLen (v : Word) : HostOp := .writeReg 3 v

/-- A pending host request. `early` says that the host makes it without waiting for a running command to end (R357). -/
structure HostReq where
  early : Bool
  op    : HostOp
  deriving DecidableEq, Repr

/-- Everything the spec gives the machine, and after it the model's own fields (log 8, 9, 7, 5). -/
structure State where
  /-- the parameters of the instance (R6), which no step changes -/
  params   : Params
  /-- `CMD` (R21) -/
  cmd      : Byte
  /-- `STATUS` (R22) -/
  status   : Status
  /-- `ERR` (R23): `none` is code 0 -/
  err      : Option ErrKind
  /-- `IN_LEN` (R24) -/
  inLen    : Word
  /-- `OUT_LEN` (R25) -/
  outLen   : Word
  /-- `IN` (R26) -/
  inp      : Memory
  /-- `OUT` (R27) -/
  out      : Memory
  /-- `PHASE` (R29) -/
  phase    : Phase
  /-- `N` (R30) -/
  n        : Nat
  /-- `IN_POS` (R30) -/
  inPos    : Nat
  /-- `OUT_POS` (R31) -/
  outPos   : Nat
  huff     : HuffRegs
  lz       : LzRegs
  rle      : RleRegs
  /-- the host's pending requests, oldest first -/
  host     : List HostReq
  /-- the value the host's last read returned, zero-extended -/
  hostData : Word
  /-- whether an accepted `CMD` write only launches, the command then running phase by phase (R5) -/
  stepwise : Bool
  /-- whether the host has written `IN` or `IN_LEN` since the launch (R357) -/
  tainted  : Bool
  /-- how many free values have been used, the argument the next is asked for with -/
  fresh    : Nat
  deriving DecidableEq, Repr

/-- Why the machine stops with a fault. -/
inductive Fault where
  /-- The host accesses an offset at or beyond `IN_CAP`, which does not exist (R60). Raised by `hostAct`. Safe (log 11). -/
  | noSuchInOffset (a : Nat)
  /-- The host accesses an offset at or beyond `OUT_CAP`, which does not exist (R60). Raised by `hostAct`. Safe (log 11). -/
  | noSuchOutOffset (a : Nat)
  /-- The host accesses a register number above 4, which does not exist (R60). Raised by `hostAct`. Safe (log 11). -/
  | noSuchRegister (r : Nat)
  deriving DecidableEq, Repr

/-- Why the machine gives no meaning. -/
inductive Refusal where
  /-- An instruction without a meaning in this model. Raised by `exec`'s refused arms only (there are none). Safe. -/
  | notModelled (mnemonic : String)
  /-- A launch with `IN_LEN > IN_CAP`, to which the spec refuses to give a meaning (R361, U5). Raised by a command and by the
  engine's turn. Safe (log 10). -/
  | inLenExceedsInCap
  deriving DecidableEq, Repr

/-- The Huffman working state at a launch and at reset: R47 fixes `FREQ`, `ALIVE`, `CODE`, `K`, `NCOUNT`, the others are
DESIGN CHOICE zero (log 2, log 3). -/
def HuffRegs.init : HuffRegs :=
  { freq := List.replicate 256 0, node := [], alive := [], k := 0, ncount := 0, root := 0,
    code := List.replicate 256 [], acc := 0, nacc := 0, bitsTotal := 0, bitsSum := 0,
    origLen := 0, payloadBits := 0, hdrLen := 0, cur := 0, bitPos := 0, prev := none }

/-- The LZ77 working state at a launch and at reset: DESIGN CHOICE zero (log 2, log 3). -/
def LzRegs.init : LzRegs :=
  { s := 0, clen := 0, bestLen := 0, bestDist := 0, target := 0, tDist := 0, tLen := 0, tNext := 0, copyI := 0 }

/-- The RLE working state at a launch and at reset: DESIGN CHOICE zero (log 2, log 3). -/
def RleRegs.init : RleRegs := { runByte := 0, runCnt := 0 }

/-- The machine right after power-up and reset (R45, R350, R351), for the instance of `Params.reference` (log 1). `IN` and `OUT`
hold no byte of the model's (log 4, log 5); nothing is pending. -/
def State.reset : State :=
  { params := Params.reference
    cmd := 0x00, status := .idle, err := none, inLen := 0, outLen := 0
    inp := [], out := []
    phase := .idle, n := 0, inPos := 0, outPos := 0
    huff := HuffRegs.init, lz := LzRegs.init, rle := RleRegs.init
    host := [], hostData := 0, stepwise := false, tainted := false, fresh := 0 }

end Sys2Proof.Machine
end

