-- ==== Sys2Proof/Machine/Flags.lean ====
section
/-! DEFINITION. The flag-like state: the codes of `STATUS` and `ERR`, the output `done_o`, and which command can end with
which error kind (10_state.md R22, R23, R32; 60_exceptions.md R310, R320, R326). -/

namespace Sys2Proof.Machine

/-- The two bits a read of `STATUS` returns (R22). -/
def Status.code : Status → BitVec 2
  | .idle => 0
  | .busy => 1
  | .done => 2
  | .error => 3

/-- The code of an error kind (R310). -/
def errKindCode : ErrKind → Byte
  | .truncatedStream => 1
  | .invalidDistance => 2
  | .invalidMatchLength => 3
  | .invalidEscape => 4
  | .corruptHeader => 5
  | .unknownAlgorithm => 6
  | .invalidHeader => 7
  | .invalidFlag => 8
  | .outputOverflow => 9

/-- The byte a read of `ERR` returns (R23, R310). -/
def errCode : Option ErrKind → Byte
  | none => 0
  | some e => errKindCode e

/-- `done_o`: 1 exactly while `STATUS` is `DONE` or `ERROR` (R326). -/
def State.doneO (s : State) : Bool := s.status == .done || s.status == .error

/-- The kinds a command can end with, by the row of R320; `none` is a command word that names no command. -/
def possibleErrors : Option Instr → List ErrKind
  | some .huffCompress => [.outputOverflow]
  | some .lz77Compress => [.outputOverflow]
  | some .rleCompress => [.outputOverflow]
  | some .huffDecompress => [.truncatedStream, .corruptHeader, .outputOverflow]
  | some .lz77Decompress =>
    [.truncatedStream, .invalidDistance, .invalidMatchLength, .invalidHeader, .invalidFlag, .outputOverflow]
  | some .rleDecompress => [.truncatedStream, .invalidEscape, .outputOverflow]
  | _ => [.unknownAlgorithm]

end Sys2Proof.Machine
end

