-- ==== Sys2Proof/Machine/Ops.lean ====
section
/-! DEFINITION. The named operations every meaning is written over: the two memories, the launch, the two ends of a command
(`done` and `raise`), and `Emit` (00_scope.md R9). -/

namespace Sys2Proof.Machine

/-! ## Memory -/

/-- The byte a memory holds at an offset, if it holds one. -/
def Memory.read : Memory → Nat → Option Byte
  | [], _ => none
  | (k, v) :: m, a => if k = a then some v else Memory.read m a

/-- Store one byte, keeping the canonical form. -/
def Memory.write : Memory → Nat → Byte → Memory
  | [], a, b => [(a, b)]
  | (k, v) :: m, a, b =>
    if a < k then (a, b) :: (k, v) :: m
    else if a = k then (a, b) :: m
    else (k, v) :: Memory.write m a b

/-- Store bytes at ascending offsets from `a`. -/
def Memory.writeAll : Memory → Nat → List Byte → Memory
  | m, _, [] => m
  | m, a, b :: bs => Memory.writeAll (m.write a b) (a + 1) bs

/-- `IN[a]` (R26); a byte nothing has written is a free value (U1, log 4). -/
def State.inByte (s : State) (a : Nat) : Byte := (s.inp.read a).getD (Config.freeIn a)

/-- `OUT[a]` as the engine holds it (R27); a byte the running command has not written is a free value (U1, log 5). -/
def State.outByte (s : State) (a : Nat) : Byte := (s.out.read a).getD (Config.freeOut s.fresh a)

/-- `IN[0 .. N-1]`, the running command's input: what lies at or beyond `N` is never read (R67). -/
def State.data (s : State) : List Byte := (List.range s.n).map s.inByte

/-- `IN[IN_POS .. N-1]`, what a decoder has still to read. -/
def State.unread (s : State) : List Byte := s.data.drop s.inPos

/-! ## The ends of a command -/

/-- Taking an error: the whole effect of `raise E` (R322). -/
def raise (e : ErrKind) (s : State) : State :=
  { s with err := some e, outLen := 0, status := .error, phase := .endErr }

/-- The whole effect of `done` (R137). -/
def finish (s : State) : State :=
  { s with outLen := BitVec.ofNat 32 s.outPos, status := .done, phase := .endOk }

/-- The launch of command word `c` (R132, with the initialisation of R47), up to the first phase. `PHASE` waits at `IDLE` until
the engine has decoded `CMD` (log 18); `OUT` and the working state hold nothing of an earlier command (log 3). -/
def launch (c : Byte) (s : State) : State :=
  { s with
    cmd := c, status := .busy, err := none, n := s.inLen.toNat, inPos := 0, outPos := 0, phase := .idle
    out := [], huff := HuffRegs.init, lz := LzRegs.init, rle := RleRegs.init
    tainted := false, fresh := s.fresh + 1 }

/-! ## A rule's progress -/

/-- Where a rule stands after some of its steps: still running, or the command has ended (`raise` or `done`) and nothing after it
in the rule runs (R9). -/
inductive Run where
  | going (s : State)
  | ended (s : State)
  deriving DecidableEq, Repr

/-- The state a rule leaves. -/
def Run.state : Run → State
  | .going s => s
  | .ended s => s

/-- Go on with `f` unless the command has ended. -/
def Run.andThen (r : Run) (f : State → Run) : Run :=
  match r with
  | .going s => f s
  | .ended s => .ended s

/-- `OUT[OUT_POS] <- b; OUT_POS <- OUT_POS + 1`. -/
def putByte (b : Byte) (s : State) : State :=
  { s with out := s.out.write s.outPos b, outPos := s.outPos + 1 }

/-- `Emit(b)` (R9): the capacity test comes first. In every reachable state `OUT_POS <= OUT_CAP` (R31), so `OUT_CAP <= OUT_POS` is
R9's `OUT_POS = OUT_CAP` (log 20). -/
def emit (b : Byte) (s : State) : Run :=
  if s.params.outCap ≤ s.outPos then .ended (raise .outputOverflow s) else .going (putByte b s)

/-- `Emit` of each byte in order. -/
def emitAll : List Byte → State → Run
  | [], s => .going s
  | b :: bs, s => (emit b s).andThen (emitAll bs)

/-- `raise E` in a rule. -/
def fail (e : ErrKind) (s : State) : Run := .ended (raise e s)

/-! ## Reset -/

/-- The effect of `rst` (R351): the registers as after `State.reset`, `IN` as it was. What lies outside the block (the host's
requests, the value it read last) is not reset, and `OUT` becomes unspecified afresh (log 22). -/
def rst (s : State) : State :=
  { State.reset with
    params := s.params, inp := s.inp, host := s.host, hostData := s.hostData, stepwise := s.stepwise, fresh := s.fresh + 1 }

/-- Power-up: as `rst`, and `IN` is unspecified (R350). DESIGN CHOICE: its unwritten bytes are the same free values after each power-up
(log 4). -/
def powerUp (s : State) : State := { rst s with inp := [] }

/-! ## An unspecified completion -/

/-- The completion of a command during which the host wrote `IN` or `IN_LEN` (R357, U3): free among `DONE` with any `OUT_LEN` up to
`OUT_CAP` and any bytes, and the error kinds the command can raise. The choices are free values (log 7). -/
def freeCompletion (s : State) : State :=
  let kinds := possibleErrors (decodeCmd s.cmd)
  let choices := if (decodeCmd s.cmd).isSome then none :: kinds.map some else kinds.map some
  match (choices[Config.freeNat s.fresh % choices.length]?).getD none with
  | some e => { raise e s with fresh := s.fresh + 2, tainted := false }
  | none =>
    { finish { s with outPos := Config.freeNat (s.fresh + 1) % (s.params.outCap + 1), out := [] } with
      fresh := s.fresh + 2, tainted := false }

end Sys2Proof.Machine
end

