-- ==== Sys2Proof/Machine/Operands.lean ====
section
/-! DEFINITION. How operands are formed from bytes and bits: little-endian reads of `IN` (20_memory.md R61), the bit order of the
Huffman payload (R62), `ceil8` (00_scope.md R8). -/

namespace Sys2Proof.Machine

/-- The number of bytes that hold `x` bits (R8). -/
def ceil8 (x : Nat) : Nat := (x + 7) / 8

/-- The unsigned number that bytes in stream order stand for, least significant first (R61). -/
def leNat : List Byte → Nat
  | [] => 0
  | b :: bs => b.toNat + 256 * leNat bs

/-- `MemRead(IN, a, n)` (R9), defined where `a + n <= N`. The meanings take their fields from the decoder instead, which has read them
in the same order (Laws/Operands.lean). -/
def State.memReadIn (s : State) (a n : Nat) : Nat := leNat ((s.data.drop a).take n)

/-- The eight bits of a byte, most significant first (R62). -/
def byteBits (b : Byte) : List Bool :=
  [b.getLsbD 7, b.getLsbD 6, b.getLsbD 5, b.getLsbD 4, b.getLsbD 3, b.getLsbD 2, b.getLsbD 1, b.getLsbD 0]

/-- The payload bits that bytes hold: bit `i` is bit `7 - (i mod 8)` of byte `i div 8` (R62). -/
def payloadBitList (bs : List Byte) : List Bool := bs.flatMap byteBits

end Sys2Proof.Machine
end

