-- ==== Sys2Proof/Machine/HuffTree.lean ====
section
/-! DEFINITION. The tree builder and the code table generator, used by both Huffman commands (41_huffman_encoder.md R154 to R163,
42_huffman_decoder.md R195). All of it is a function of `FREQ`. -/

namespace Sys2Proof.Machine

/-! ## Leaves -/

/-- The byte values that occur, in ascending order, each with its frequency (R154, R155, R164). -/
def occurring (freq : List Nat) : List (Byte × Nat) :=
  freq.zipIdx.filterMap (fun p => if 0 < p.1 then some (BitVec.ofNat 8 p.2, p.1) else none)

/-- Leaf seeding: leaf `j` owns the `j`-th smallest byte value that occurs (R155). -/
def leavesOf (freq : List Nat) : List Node := (occurring freq).map (fun p => .leaf p.1 p.2)

/-! ## The queue -/

/-- `F` of an entry (R34). -/
def nodeF : Node → Nat
  | .leaf _ f => f
  | .internal f _ _ => f

/-- `NODE[i].F`. -/
def weight (node : List Node) (i : Nat) : Nat := (node[i]?.map nodeF).getD 0

/-- Node `i` comes before node `j` in the queue (R156). -/
def before (node : List Node) (i j : Nat) : Bool :=
  decide (weight node i < weight node j) || (weight node i == weight node j && decide (i < j))

/-- The first node of the queue, in the order of R156. -/
def firstAlive (node : List Node) : List Nat → Option Nat
  | [] => none
  | i :: rest =>
    match firstAlive node rest with
    | none => some i
    | some j => if before node i j then some i else some j

/-- `popmin()`: the first alive node, its `ALIVE` bit cleared (R156). -/
def popMin (node : List Node) (alive : List Nat) : Option (Nat × List Nat) :=
  (firstAlive node alive).map (fun i => (i, alive.erase i))

/-! ## Merging -/

/-- One turn of the merge loop (R157): the first popped node becomes the left child. None when fewer than two nodes are alive. -/
def mergeStep (node : List Node) (alive : List Nat) : Option (List Node × List Nat) :=
  match popMin node alive with
  | none => none
  | some (a, alive1) =>
    match popMin node alive1 with
    | none => none
    | some (b, alive2) =>
      some (node ++ [.internal (weight node a + weight node b) a b], alive2 ++ [node.length])

/-- The merge loop (R157), for at most `fuel` turns; each turn leaves one node fewer alive (R368). -/
def mergeAll : Nat → List Node → List Nat → List Node × List Nat
  | 0, node, alive => (node, alive)
  | fuel + 1, node, alive =>
    match mergeStep node alive with
    | none => (node, alive)
    | some (node', alive') => mergeAll fuel node' alive'

/-- The tree builder: `K`, `NODE`, `ALIVE`, `NCOUNT`, `ROOT` from `FREQ` (R154 to R158). -/
def buildTree (h : HuffRegs) : HuffRegs :=
  let leaves := leavesOf h.freq
  let k := leaves.length
  let tree := mergeAll k leaves (List.range k)
  { h with k := k, node := tree.1, alive := tree.2, ncount := tree.1.length, root := tree.2.headD 0 }

/-! ## Codes -/

/-- The leaves below node `i` with their paths from the root, left first, `false` for left and `true` for right (R160). The depth
is bounded by `fuel`, the number of nodes of the arena (R368). -/
def visit (node : List Node) : Nat → Nat → List Bool → List (Byte × List Bool)
  | 0, _, _ => []
  | fuel + 1, i, path =>
    match node[i]? with
    | none => []
    | some (.leaf sym _) => [(sym, path)]
    | some (.internal _ l r) => visit node fuel l (path ++ [false]) ++ visit node fuel r (path ++ [true])

/-- `CODE` with the entries of a visit written (R160). -/
def writeCodes (entries : List (Byte × List Bool)) (code : List (List Bool)) : List (List Bool) :=
  entries.foldl (fun t e => t.set e.1.toNat e.2) code

/-- The code table of a tree: by traversal when `K >= 2` (R160), the one code `0` when `K = 1` (R161). -/
def codeTable (h : HuffRegs) : List (List Bool) :=
  let empty := List.replicate 256 []
  if h.k = 1 then
    match h.node[h.root]? with
    | some (.leaf sym _) => empty.set sym.toNat [false]
    | _ => empty
  else writeCodes (visit h.node h.node.length h.root []) empty

/-- The payload bit length: the sum of `FREQ[b] * CODE[b].LEN` (R163). -/
def payloadLength (freq : List Nat) (code : List (List Bool)) : Nat :=
  (List.zipWith (fun f c => f * c.length) freq code).sum

/-- The code table generator: `CODE` and `BITS_SUM` (R160, R161, R163). -/
def genCodes (h : HuffRegs) : HuffRegs :=
  let code := codeTable h
  { h with code := code, bitsSum := payloadLength h.freq code }

end Sys2Proof.Machine
end

