-- ==== Sys2Proof/Machine/HuffDec.lean ====
section
/-! DEFINITION. `HUFF_DECOMPRESS` (42_huffman_decoder.md): the meanings of `HUFF.HDR`, `HUFF.SYM` and `HUFF.BITS`, and the phases
between them. -/

namespace Sys2Proof.Machine

/-- `HUFF.HDR` (R192). `K` is 9 bits wide, so a `SYM_COUNT` out of range is refused before it is put there (log 15). -/
def huffHdrRun (origLen : BitVec 32) (payloadBits : BitVec 64) (symCount : BitVec 16) (s : State) : Run :=
  let s : State := { s with huff := { s.huff with origLen := origLen.toNat, payloadBits := payloadBits.toNat } }
  if symCount.toNat = 0 ∨ 256 < symCount.toNat then fail .corruptHeader s
  else
    let s : State := { s with huff := { s.huff with k := symCount.toNat, hdrLen := 14 + 5 * symCount.toNat } }
    if s.n < s.huff.hdrLen then fail .corruptHeader s
    else .going { s with huff := { s.huff with freq := List.replicate 256 0, prev := none }, inPos := 14 }

/-- `sym` follows the entries read so far in strictly ascending order (R193). -/
def inOrder (prev : Option Byte) (sym : Byte) : Bool :=
  match prev with
  | none => true
  | some p => decide (p.toNat < sym.toNat)

/-- `HUFF.SYM` (R193). -/
def huffSymRun (sym : Byte) (freq : BitVec 32) (s : State) : Run :=
  if inOrder s.huff.prev sym = false then fail .corruptHeader s
  else if freq.toNat = 0 then fail .corruptHeader s
  else .going { s with
    huff := { s.huff with freq := s.huff.freq.set sym.toNat freq.toNat, prev := some sym }, inPos := s.inPos + 5 }

/-- The end of `D_HEADER`: the count consistency check (R194). -/
def dHeaderEnd (s : State) : Run :=
  if s.huff.freq.sum ≠ s.huff.origLen then fail .corruptHeader s else .going { s with phase := .dBuild }

/-- `D_BUILD` (R195). -/
def dBuildPhase (s : State) : Run :=
  .going { s with huff := buildTree s.huff, phase := .dCodes }

/-- `D_CODES` (R195). -/
def dCodesPhase (s : State) : Run :=
  .going { s with huff := genCodes s.huff, phase := .dCheck }

/-- `D_CHECK` (R196, R197, R198). -/
def dCheckPhase (s : State) : Run :=
  if s.huff.bitsSum ≠ s.huff.payloadBits then fail .corruptHeader s
  else if ceil8 s.huff.payloadBits < s.n - s.huff.hdrLen then fail .corruptHeader s
  else if s.params.outCap < s.huff.origLen then fail .outputOverflow s
  else .going { s with phase := .dWalk }

/-- One bit of the walk when `K >= 2` (R199). -/
def walkBit (bit : Bool) (s : State) : Run :=
  let s : State := { s with huff := { s.huff with bitPos := s.huff.bitPos + 1 } }
  match s.huff.node[s.huff.cur]? with
  | some (.internal _ l r) =>
    let s : State := { s with huff := { s.huff with cur := if bit then r else l } }
    match s.huff.node[s.huff.cur]? with
    | some (.leaf sym _) =>
      (emit sym s).andThen (fun s => .going { s with huff := { s.huff with cur := s.huff.root } })
    | _ => .going s
  | _ => .going s

/-- One bit of the walk when `K = 1`: it is consumed and not examined (R200). -/
def walkBitSingle (s : State) : Run :=
  let s : State := { s with huff := { s.huff with bitPos := s.huff.bitPos + 1 } }
  match s.huff.node[s.huff.root]? with
  | some (.leaf sym _) => emit sym s
  | _ => .going s

/-- The walk over the payload's bits, until `ORIG_LEN` bytes are out (R199, R200) or the bits are exhausted (R201; log 16). -/
def walk : List Bool → State → Run
  | [], s => if s.outPos < s.huff.origLen then fail .truncatedStream s else .going s
  | bit :: bits, s =>
    if s.outPos < s.huff.origLen then
      (if s.huff.k = 1 then walkBitSingle s else walkBit bit s).andThen (walk bits)
    else .going s

/-- The walker's registers at its start: `CUR` and `BITPOS` when `K >= 2` (R199), `BITPOS` alone when `K = 1` (R200). -/
def walkStart (s : State) : State :=
  { s with huff := { s.huff with cur := if s.huff.k = 1 then s.huff.cur else s.huff.root, bitPos := 0 } }

/-- The payload's bits: the first `PAYLOAD_BITS` of its bytes; the padding after them is not examined (R103, R202; log 16). -/
def codeBits (payload : List Byte) (s : State) : List Bool := (payloadBitList payload).take s.huff.payloadBits

/-- `HUFF.BITS`: a payload of fewer bytes than declared is `TruncatedStream` (R201, R311 (a)); else the whole walk and the completion
(R199 to R202). -/
def huffBitsRun (payload : List Byte) (s : State) : Run :=
  if payload.length < ceil8 s.huff.payloadBits then fail .truncatedStream s
  else (walk (codeBits payload s) (walkStart s)).andThen (fun s => .ended (finish s))

/-- The meaning of `HUFF.HDR`. -/
def execHuffHdr (origLen : BitVec 32) (payloadBits : BitVec 64) (symCount : BitVec 16) (s : State) :
    Host.Outcome State Fault Refusal := .next (huffHdrRun origLen payloadBits symCount s).state

/-- The meaning of `HUFF.SYM`. -/
def execHuffSym (sym : Byte) (freq : BitVec 32) (s : State) : Host.Outcome State Fault Refusal :=
  .next (huffSymRun sym freq s).state

/-- The meaning of `HUFF.BITS`. -/
def execHuffBits (payload : List Byte) (s : State) : Host.Outcome State Fault Refusal :=
  .next (huffBitsRun payload s).state

end Sys2Proof.Machine
end

