-- ==== Sys2Proof/Machine/HuffEnc.lean ====
section
/-! DEFINITION. The phases of `HUFF_COMPRESS` (41_huffman_encoder.md R150): frequency counter, tree builder, code table
generator, header writer, bit packer. -/

namespace Sys2Proof.Machine

/-- `FREQ[b] <- FREQ[b] + 1` (R152). -/
def countByte (freq : List Nat) (b : Byte) : List Nat := freq.set b.toNat (freq.getD b.toNat 0 + 1)

/-- The frequency table of an input (R151, R152). -/
def countBytes (data : List Byte) : List Nat := data.foldl countByte (List.replicate 256 0)

/-- `H_FREQ` (R151, R152). -/
def hFreqPhase (s : State) : Run :=
  .going { s with huff := { s.huff with freq := countBytes s.data }, phase := .hBuild }

/-- `H_BUILD` (R154 to R158). -/
def hBuildPhase (s : State) : Run :=
  .going { s with huff := buildTree s.huff, phase := .hCodes }

/-- `H_CODES` (R160 to R163). -/
def hCodesPhase (s : State) : Run :=
  .going { s with huff := genCodes s.huff, phase := .hHeader }

/-- The header's bytes: `HUFF_HDR`, then one `HUFF_SYM` for each byte value that occurs, ascending (R164). -/
def huffHeader (s : State) : List Byte :=
  encode (.huffHdr (BitVec.ofNat 32 s.n) (BitVec.ofNat 64 s.huff.bitsSum) (BitVec.ofNat 16 s.huff.k)) ++
    (occurring s.huff.freq).flatMap (fun p => encode (.huffSym p.1 (BitVec.ofNat 32 p.2)))

/-- `H_HEADER` (R164). -/
def hHeaderPhase (s : State) : Run :=
  (emitAll (huffHeader s) s).andThen (fun s => .going { s with phase := .hPack })

/-- `push(bit)` (R166). -/
def pushBit (bit : Bool) (s : State) : Run :=
  let acc := s.huff.acc ||| ((if bit then 1#8 else 0#8) <<< (7 - s.huff.nacc))
  let s : State := { s with huff := { s.huff with acc := acc, bitsTotal := s.huff.bitsTotal + 1 } }
  if s.huff.nacc = 7 then
    (emit acc s).andThen (fun s => .going { s with huff := { s.huff with acc := 0, nacc := 0 } })
  else .going { s with huff := { s.huff with nacc := s.huff.nacc + 1 } }

/-- `push` of each bit in order. -/
def pushBits : List Bool → State → Run
  | [], s => .going s
  | bit :: bits, s => (pushBit bit s).andThen (pushBits bits)

/-- `CODE[b].BITS`. -/
def codeOf (code : List (List Bool)) (b : Byte) : List Bool := code.getD b.toNat []

/-- The packing loop: the code of each input byte, in input order (R166). -/
def packBytes : List Byte → State → Run
  | [], s => .going s
  | b :: bs, s => (pushBits (codeOf s.huff.code b) s).andThen (packBytes bs)

/-- The packer's registers at its start (R165). -/
def packerStart (s : State) : State := { s with huff := { s.huff with acc := 0, nacc := 0, bitsTotal := 0 } }

/-- `H_PACK` (R165, R166). -/
def hPackPhase (s : State) : Run :=
  (packBytes s.data (packerStart s)).andThen (fun s => .going { s with phase := .hFlush })

/-- `H_FLUSH` and the completion (R167, R168). -/
def hFlushPhase (s : State) : Run :=
  if 0 < s.huff.nacc then
    (emit s.huff.acc s).andThen (fun s => .ended (finish { s with huff := { s.huff with acc := 0, nacc := 0 } }))
  else .ended (finish s)

end Sys2Proof.Machine
end

