-- ==== Sys2Proof/Machine/Lz77Dec.lean ====
section
/-! DEFINITION. `LZ77_DECOMPRESS` (44_lz77_decoder.md): the meanings of `LZ77.HDR`, `LZ77.LIT` and `LZ77.MATCH`. -/

namespace Sys2Proof.Machine

/-- `LZ77.HDR` (R251, R252). -/
def lz77HdrRun (origLen : BitVec 32) (s : State) : Run :=
  let s : State := { s with lz := { s.lz with target := origLen.toNat }, inPos := 4 }
  if s.params.outCap < s.lz.target then fail .outputOverflow s else .going { s with phase := .mToken }

/-- `LZ77.LIT` (R255). -/
def lz77LitRun (byte : Byte) (s : State) : Run :=
  (emit byte s).andThen (fun s => .going { s with inPos := s.inPos + 2 })

/-- The copy loop, `count` bytes still to go (R259): each turn reads the byte `T_DIST` back from the current end and appends it,
so a byte just written is seen by the next read (R72, R364). -/
def copyLoop : Nat → State → Run
  | 0, s => .going s
  | count + 1, s =>
    ((emit (s.outByte (s.outPos - s.lz.tDist)) s).andThen
      (fun s => .going { s with lz := { s.lz with copyI := s.lz.copyI + 1 } })).andThen (copyLoop count)

/-- `M_COPY`: the checks, the copy and the trailing literal (R257 to R260). -/
def mCopyRun (s : State) : Run :=
  if s.lz.tDist = 0 ∨ s.outPos < s.lz.tDist then fail .invalidDistance s
  else if s.lz.target < s.outPos + s.lz.tLen then fail .invalidMatchLength s
  else
    (copyLoop s.lz.tLen s).andThen (fun s =>
      (if s.outPos < s.lz.target then emit s.lz.tNext s else .going s).andThen (fun s =>
        .going { s with inPos := s.inPos + 6, phase := .mToken }))

/-- `LZ77.MATCH`: the token read (R256), then `M_COPY`. -/
def lz77MatchRun (distance length : BitVec 16) (next : Byte) (s : State) : Run :=
  mCopyRun { s with
    lz := { s.lz with tDist := distance.toNat, tLen := length.toNat, tNext := next, copyI := 0 }, phase := .mCopy }

/-- The meaning of `LZ77.HDR`. -/
def execLz77Hdr (origLen : BitVec 32) (s : State) : Host.Outcome State Fault Refusal := .next (lz77HdrRun origLen s).state

/-- The meaning of `LZ77.LIT`. -/
def execLz77Lit (byte : Byte) (s : State) : Host.Outcome State Fault Refusal := .next (lz77LitRun byte s).state

/-- The meaning of `LZ77.MATCH`. -/
def execLz77Match (distance length : BitVec 16) (next : Byte) (s : State) : Host.Outcome State Fault Refusal :=
  .next (lz77MatchRun distance length next s).state

end Sys2Proof.Machine
end

