-- ==== Sys2Proof/Machine/Lz77Enc.lean ====
section
/-! DEFINITION. The phases of `LZ77_COMPRESS` (43_lz77_encoder.md R220): header, longest-match search, token emission. -/

namespace Sys2Proof.Machine

/-- `L_HEADER` (R221). -/
def lHeaderPhase (s : State) : Run :=
  (emitAll (encode (.lz77Hdr (BitVec.ofNat 32 s.n))) s).andThen (fun s => .going { s with phase := .lSearch })

/-- How many leading bytes of the two lists agree, at most `cap` (R223). -/
def commonLen : List Byte → List Byte → Nat → Nat
  | a :: as, b :: bs, cap + 1 => if a = b then commonLen as bs cap + 1 else 0
  | _, _, _ => 0

/-- `CLEN` of the candidate at distance `d` (R223): at most the lookahead bytes available, at most `d`. -/
def candidateLen (data : List Byte) (lookahead p d : Nat) : Nat :=
  commonLen (data.drop (p - d)) (data.drop p) (min (min (p + lookahead) data.length - p) d)

/-- The scan of `count` candidates at distances `d`, `d + 1`, .. with the best so far in the registers; a longer match replaces it,
an equal one does not (R224). -/
def scan (data : List Byte) (lookahead p : Nat) : Nat → Nat → LzRegs → LzRegs
  | 0, _, r => r
  | count + 1, d, r =>
    let c := candidateLen data lookahead p d
    let r := { r with s := p - d, clen := c }
    scan data lookahead p count (d + 1) (if r.bestLen < c then { r with bestLen := c, bestDist := d } else r)

/-- The search at position `p`: the candidates at distance 1 to `min(p, WINDOW)`, nearest first (R222, R224). -/
def search (data : List Byte) (window lookahead p : Nat) (r : LzRegs) : LzRegs :=
  scan data lookahead p (min p window) 1 { r with bestLen := 0 }

/-- `L_SEARCH` (R222 to R224); at the end of the input the command is done (R228). -/
def lSearchPhase (s : State) : Run :=
  if s.inPos < s.n then
    .going { s with lz := search s.data s.params.window s.params.lookahead s.inPos s.lz, phase := .lEmit }
  else .ended (finish s)

/-- The literal of a match token: the byte after the match, or the filler `0x00` at the end of the input (R227). -/
def matchNext (s : State) : Byte := s.data.getD (s.inPos + s.lz.bestLen) 0x00

/-- `L_EMIT` (R225, R226). -/
def lEmitPhase (s : State) : Run :=
  if s.params.minMatch ≤ s.lz.bestLen then
    (emitAll (encode (.lz77Match (BitVec.ofNat 16 s.lz.bestDist) (BitVec.ofNat 16 s.lz.bestLen) (matchNext s))) s).andThen
      (fun s => .going { s with inPos := s.inPos + s.lz.bestLen + 1, phase := .lSearch })
  else
    (emitAll (encode (.lz77Lit (s.data.getD s.inPos 0x00))) s).andThen
      (fun s => .going { s with inPos := s.inPos + 1, phase := .lSearch })

end Sys2Proof.Machine
end

