-- ==== Sys2Proof/Machine/RleDec.lean ====
section
/-! DEFINITION. `RLE_DECOMPRESS` (45_rle_codec.md): the meanings of `RLE.RAW`, `RLE.ESCLIT` and `RLE.RUN`. -/

namespace Sys2Proof.Machine

/-- `RLE.RAW` (R289). -/
def rleRawRun (byte : Byte) (s : State) : Run :=
  (emit byte s).andThen (fun s => .going { s with inPos := s.inPos + 1 })

/-- `RLE.ESCLIT` (R291). -/
def rleEsclitRun (s : State) : Run :=
  (emit escapeByte s).andThen (fun s => .going { s with inPos := s.inPos + 3 })

/-- `RLE.RUN` (R292). -/
def rleRunRun (count byte : Byte) (s : State) : Run :=
  (emitAll (List.replicate count.toNat byte) s).andThen (fun s => .going { s with inPos := s.inPos + 3 })

/-- The meaning of `RLE.RAW`. -/
def execRleRaw (byte : Byte) (s : State) : Host.Outcome State Fault Refusal := .next (rleRawRun byte s).state

/-- The meaning of `RLE.ESCLIT`. -/
def execRleEsclit (s : State) : Host.Outcome State Fault Refusal := .next (rleEsclitRun s).state

/-- The meaning of `RLE.RUN`. -/
def execRleRun (count byte : Byte) (s : State) : Host.Outcome State Fault Refusal := .next (rleRunRun count byte s).state

end Sys2Proof.Machine
end

