-- ==== Sys2Proof/Machine/RleEnc.lean ====
section
/-! DEFINITION. The phases of `RLE_COMPRESS` (45_rle_codec.md R280): run detector and record emitter. -/

namespace Sys2Proof.Machine

/-- How many leading bytes of a list equal `b`, at most `cap` (R281). -/
def leadingRun (b : Byte) : List Byte → Nat → Nat
  | x :: xs, cap + 1 => if x = b then leadingRun b xs cap + 1 else 0
  | _, _ => 0

/-- `R_RUN` (R281); at the end of the input the command is done (R286). -/
def rRunPhase (s : State) : Run :=
  match s.unread with
  | b :: rest =>
    .going { s with rle := { runByte := b, runCnt := leadingRun b rest (runCap - 1) + 1 }, phase := .rEmit }
  | [] => .ended (finish s)

/-- The records of a run of `c` bytes `b`, as units: R282, R283, R284, R285 in order. -/
def runUnits (b : Byte) (c : Nat) : List Instr :=
  if c = 1 ∧ b ≠ escapeByte then [.rleRaw b]
  else if c = 1 then [.rleEsclit]
  else if c ≤ 3 ∧ b ≠ escapeByte then List.replicate c (.rleRaw b)
  else [.rleRun (BitVec.ofNat 8 c) b]

/-- `R_EMIT` (R282 to R286). -/
def rEmitPhase (s : State) : Run :=
  (emitAll ((runUnits s.rle.runByte s.rle.runCnt).flatMap encode) s).andThen
    (fun s => .going { s with inPos := s.inPos + s.rle.runCnt, phase := .rRun })

end Sys2Proof.Machine
end

