-- ==== Sys2Proof/Machine/Engine.lean ====
section
/-! DEFINITION. The engine, one phase or one stream unit at a time: where the next unit is fetched, the start of a command, and
the iteration that runs a command to its end (00_scope.md R5; 10_state.md R29; 40_codec_interface.md R131). -/

namespace Sys2Proof.Machine

/-- The first phase of a command (R131); a stream unit has none. -/
def firstPhase : Instr → Phase
  | .huffCompress => .hFreq
  | .lz77Compress => .lHeader
  | .rleCompress => .rRun
  | .huffDecompress => .dHeader
  | .lz77Decompress => .mHeader
  | .rleDecompress => .sToken
  | _ => .idle

/-- What the engine does when it has decoded `CMD`: an empty input is done at once (R134), else the first phase is entered. -/
def startRun (i : Instr) (s : State) : Run :=
  if s.n = 0 then .ended (finish s) else .going { s with phase := firstPhase i }

/-- The place at which the engine fetches next: `CMD` while it waits at `IDLE`, a unit of the stream in a decoder's reading phase
while the phase's loop goes on (R193, R253, R288), nothing in the other phases. -/
def State.boundary (s : State) : Option Ctx :=
  match s.phase with
  | .idle => some .cmd
  | .dHeader =>
    if s.inPos = 0 then some .huffHdr else if s.inPos < s.huff.hdrLen then some .huffSym else none
  | .dWalk => some .huffBits
  | .mHeader => some .lz77Hdr
  | .mToken => if s.outPos < s.lz.target then some .lz77Tok else none
  | .sToken => if s.inPos < s.n then some .rleRec else none
  | _ => none

/-- The bytes fetched from: `CMD`, or the stream from `IN_POS` on. -/
def State.fetchBytes (s : State) : Ctx → List Byte
  | .cmd => [s.cmd]
  | _ => s.unread

/-- A stream unit as executed, and the start of a command. -/
def unitRun (i : Instr) (s : State) : Run :=
  match i with
  | .huffCompress | .lz77Compress | .rleCompress | .huffDecompress | .lz77Decompress | .rleDecompress => startRun i s
  | .lz77Hdr v => lz77HdrRun v s
  | .lz77Lit b => lz77LitRun b s
  | .lz77Match d l nx => lz77MatchRun d l nx s
  | .huffHdr o p k => huffHdrRun o p k s
  | .huffSym b f => huffSymRun b f s
  | .huffBits payload => huffBitsRun payload s
  | .rleRaw b => rleRawRun b s
  | .rleEsclit => rleEsclitRun s
  | .rleRun c b => rleRunRun c b s

/-- A phase in which no unit is fetched. In `M_TOKEN` and `S_TOKEN` the loop has ended (R253, R288). -/
def phaseRun (s : State) : Run :=
  match s.phase with
  | .hFreq => hFreqPhase s
  | .hBuild => hBuildPhase s
  | .hCodes => hCodesPhase s
  | .hHeader => hHeaderPhase s
  | .hPack => hPackPhase s
  | .hFlush => hFlushPhase s
  | .dHeader => dHeaderEnd s
  | .dBuild => dBuildPhase s
  | .dCodes => dCodesPhase s
  | .dCheck => dCheckPhase s
  | .lHeader => lHeaderPhase s
  | .lSearch => lSearchPhase s
  | .lEmit => lEmitPhase s
  | .mToken => .ended (finish s)
  | .mCopy => mCopyRun s
  | .rRun => rRunPhase s
  | .rEmit => rEmitPhase s
  | .sToken => .ended (finish s)
  | .idle | .dWalk | .mHeader | .endOk | .endErr => .going s

/-- One step of the engine: the unit at the boundary, the error kind that says why none stands there, or the phase. -/
def engineStep (s : State) : State :=
  match s.boundary with
  | none => (phaseRun s).state
  | some c =>
    match decode c (s.fetchBytes c) with
    | .ok (i, _) => (unitRun i s).state
    | .error e => raise e s

/-- Engine steps until the command has ended, at most `fuel`. -/
def runEngine : Nat → State → State
  | 0, s => s
  | fuel + 1, s => if s.status = .busy then runEngine fuel (engineStep s) else s

/-- More engine steps than any command takes on an input of `n` bytes (R146, R368): the longest are the two of an LZ77 position and
the `256` entries of a Huffman header. -/
def commandFuel (n : Nat) : Nat := 2 * n + 300

/-- A command as one atomic transition (R5, R132): the write of command word `c` to `CMD`. While `BUSY` it is dropped (R145, R359); with
`IN_LEN > IN_CAP` it has no meaning (R361, log 10). -/
def runCommand (c : Byte) (s : State) : Host.Outcome State Fault Refusal :=
  if s.status = .busy then .next s
  else if s.params.inCap < s.inLen.toNat then .refused .inLenExceedsInCap
  else .next (runEngine (commandFuel s.inLen.toNat) (launch c s))

end Sys2Proof.Machine
end

