-- ==== Sys2Proof/Machine/Commands.lean ====
section
/-! DEFINITION. The meanings of the six commands (40_codec_interface.md R138 to R143): each is the atomic transition of its
command word (R92). -/

namespace Sys2Proof.Machine

/-- `HUFF_COMPRESS` (R138). -/
def execHuffCompress (s : State) : Host.Outcome State Fault Refusal := runCommand 0x00 s

/-- `LZ77_COMPRESS` (R140). -/
def execLz77Compress (s : State) : Host.Outcome State Fault Refusal := runCommand 0x01 s

/-- `RLE_COMPRESS` (R142). -/
def execRleCompress (s : State) : Host.Outcome State Fault Refusal := runCommand 0x02 s

/-- `HUFF_DECOMPRESS` (R139). -/
def execHuffDecompress (s : State) : Host.Outcome State Fault Refusal := runCommand 0x04 s

/-- `LZ77_DECOMPRESS` (R141). -/
def execLz77Decompress (s : State) : Host.Outcome State Fault Refusal := runCommand 0x05 s

/-- `RLE_DECOMPRESS` (R143). -/
def execRleDecompress (s : State) : Host.Outcome State Fault Refusal := runCommand 0x06 s

end Sys2Proof.Machine
end

