-- ==== Sys2Proof/Machine/Dispatch.lean ====
section
/-! DEFINITION. The dispatch: one arm per constructor of `Instr`, one call of its meaning. -/

namespace Sys2Proof.Machine

def exec (i : Instr) (s : State) : Host.Outcome State Fault Refusal :=
  match i with
  | .huffCompress => Sys2Proof.Machine.execHuffCompress s
  | .lz77Compress => Sys2Proof.Machine.execLz77Compress s
  | .rleCompress => Sys2Proof.Machine.execRleCompress s
  | .huffDecompress => Sys2Proof.Machine.execHuffDecompress s
  | .lz77Decompress => Sys2Proof.Machine.execLz77Decompress s
  | .rleDecompress => Sys2Proof.Machine.execRleDecompress s
  | .lz77Hdr v => Sys2Proof.Machine.execLz77Hdr v s
  | .lz77Lit b => Sys2Proof.Machine.execLz77Lit b s
  | .lz77Match d l nx => Sys2Proof.Machine.execLz77Match d l nx s
  | .huffHdr o p k => Sys2Proof.Machine.execHuffHdr o p k s
  | .huffSym b f => Sys2Proof.Machine.execHuffSym b f s
  | .huffBits payload => Sys2Proof.Machine.execHuffBits payload s
  | .rleRaw b => Sys2Proof.Machine.execRleRaw b s
  | .rleEsclit => Sys2Proof.Machine.execRleEsclit s
  | .rleRun c b => Sys2Proof.Machine.execRleRun c b s

end Sys2Proof.Machine
end

