-- ==== Sys2Proof/Machine/HostPort.lean ====
section
/-! DEFINITION. The host's accesses (70_reset_and_hazards.md R354 to R359), and whose turn it is. The meaning of an instruction
is an argument here (`exec` of Dispatch.lean), so that Step.lean only puts the two together. -/

namespace Sys2Proof.Machine

/-- A command word written to `CMD`. An atomic command runs its instruction; a word that names none launches and ends with
`UnknownAlgorithm` (R133). In a stepwise machine the write is the launch alone (R132; log 9). -/
def hostWriteCmd (ex : Instr → State → Host.Outcome State Fault Refusal) (c : Byte) (s : State) :
    Host.Outcome State Fault Refusal :=
  if s.status = .busy then .next s
  else if s.stepwise then
    (if s.params.inCap < s.inLen.toNat then .refused .inLenExceedsInCap else .next (launch c s))
  else
    match decode .cmd [c] with
    | .ok (i, _) => ex i s
    | .error _ => runCommand c s

/-- The register of a number (R21 to R25, R60). -/
def regOfNumber : Nat → Option Reg
  | 0 => some .cmd
  | 1 => some .status
  | 2 => some .err
  | 3 => some .inLen
  | 4 => some .outLen
  | _ => none

/-- A write of `IN_LEN` (R24). While `BUSY` what is stored and the running command's completion are free (R357, U3, log 7). -/
def hostWriteInLen (v : Word) (s : State) : State :=
  if s.status = .busy then { s with inLen := Config.freeWord s.fresh, fresh := s.fresh + 1, tainted := true }
  else { s with inLen := v }

/-- A write of a register (R358): `CMD`, which takes the low 8 bits of the value (log 8), and `IN_LEN`; the other three ignore it. -/
def hostWriteReg (ex : Instr → State → Host.Outcome State Fault Refusal) (r : Reg) (v : Word) (s : State) :
    Host.Outcome State Fault Refusal :=
  match r with
  | .cmd => hostWriteCmd ex (v.setWidth 8) s
  | .inLen => .next (hostWriteInLen v s)
  | .status | .err | .outLen => .next s

/-- The value of a register as a read returns it, zero-extended. -/
def regValue (s : State) : Reg → Word
  | .cmd => s.cmd.setWidth 32
  | .status => s.status.code.setWidth 32
  | .err => (errCode s.err).setWidth 32
  | .inLen => s.inLen
  | .outLen => s.outLen

/-- A read returns a value that is free, and uses one up (R357, U2, log 6). -/
def returnFree (s : State) : State := { s with hostData := Config.freeWord s.fresh, fresh := s.fresh + 1 }

/-- As `returnFree` for a read of one byte. -/
def returnFreeByte (s : State) : State :=
  { s with hostData := (Config.freeOut s.fresh 0).setWidth 32, fresh := s.fresh + 1 }

/-- A read of a register (R65). Only `OUT_LEN` while `BUSY` returns a value that is free (R357, U2). -/
def hostReadReg (r : Reg) (s : State) : State :=
  if s.status = .busy ∧ r = .outLen then returnFree s else { s with hostData := regValue s r }

/-- `OUT[a]` as the host reads it: a result byte, or unspecified (R27, R323). -/
def hostOutByte (s : State) (a : Nat) : Byte :=
  if s.status = .done ∧ a < s.outLen.toNat then s.outByte a else Config.freeOut s.fresh a

/-- The effect of one host access or reset event on the block. -/
def hostAct (ex : Instr → State → Host.Outcome State Fault Refusal) (op : HostOp) (s : State) :
    Host.Outcome State Fault Refusal :=
  match op with
  | .writeReg n v =>
    match regOfNumber n with
    | some r => hostWriteReg ex r v s
    | none => .fault (.noSuchRegister n)
  | .writeIn a b =>
    if s.params.inCap ≤ a then .fault (.noSuchInOffset a)
    else if s.status = .busy then
      .next { s with inp := s.inp.write a (Config.freeOut s.fresh a), fresh := s.fresh + 1, tainted := true }
    else .next { s with inp := s.inp.write a b }
  | .writeOut a _ => if s.params.outCap ≤ a then .fault (.noSuchOutOffset a) else .next s
  | .readReg n =>
    match regOfNumber n with
    | some r => .next (hostReadReg r s)
    | none => .fault (.noSuchRegister n)
  | .readIn a =>
    if s.params.inCap ≤ a then .fault (.noSuchInOffset a)
    else .next { s with hostData := (s.inByte a).setWidth 32 }
  | .readOut a =>
    if s.params.outCap ≤ a then .fault (.noSuchOutOffset a)
    else if s.status = .busy then .next (returnFreeByte s)
    else .next { s with hostData := (hostOutByte s a).setWidth 32 }
  | .readDone => .next { s with hostData := if s.doneO then 1 else 0 }
  | .reset => .next (rst s)
  | .powerUp => .next (powerUp s)

/-- The engine's turn while `BUSY`: an unspecified completion if the host has disturbed the command (R357), else one engine step, a
fetched stream unit being run by its meaning. -/
def engineTurn (ex : Instr → State → Host.Outcome State Fault Refusal) (s : State) : Host.Outcome State Fault Refusal :=
  if s.tainted then .next (freeCompletion s)
  else if s.params.inCap < s.n then .refused .inLenExceedsInCap
  else
    match s.boundary with
    | none => .next (phaseRun s).state
    | some c =>
      match decode c (s.fetchBytes c) with
      | .ok (i, _) => if c = .cmd then .next (startRun i s).state else ex i s
      | .error e => .next (raise e s)

/-- Who moves next (log 8): the host if a request is pending that need not wait, else the engine while `BUSY`; with nothing to do
the block changes no state (R367). -/
def turn (ex : Instr → State → Host.Outcome State Fault Refusal) (s : State) : Host.Outcome State Fault Refusal :=
  match s.host with
  | r :: rest =>
    if r.early = true ∨ s.status ≠ .busy then hostAct ex r.op { s with host := rest } else engineTurn ex s
  | [] => if s.status = .busy then engineTurn ex s else .next s

/-! ## Placing one instruction where the next step fetches (log 13) -/

/-- Store the bytes of a unit in `IN` at offset `q` and put a command's reader in front of them. -/
def placeUnit (c : Byte) (ph : Phase) (q : Nat) (bytes : List Byte) (s : State) : State :=
  { s with
    cmd := c, status := .busy, err := none, phase := ph
    inp := s.inp.writeAll q bytes, n := q + bytes.length, inPos := q
    host := [], tainted := false }

/-- The state in which the next step fetches the opcode-table word `w`. A command is written to `CMD` by the host's next request; a
stream unit lies in `IN` where its decoder reads next. -/
def placeTableWord (nbits w : Nat) (s : State) : State :=
  let bytes := tableBytes nbits w
  match tableCtx nbits w with
  | none => s
  | some .cmd =>
    { (if s.status = .busy then { s with status := .idle, phase := .idle } else s) with
      host := [{ early := false, op := .writeCmd (BitVec.ofNat 8 w) }], stepwise := false }
  | some .lz77Hdr => placeUnit 0x05 .mHeader 0 bytes s
  | some .lz77Tok => { placeUnit 0x05 .mToken 4 bytes s with lz := { s.lz with target := s.outPos + s.params.outCap } }
  | some .huffHdr => placeUnit 0x04 .dHeader 0 bytes s
  | some .huffSym => { placeUnit 0x04 .dHeader 14 bytes s with huff := { s.huff with k := 1, hdrLen := 19, prev := none } }
  | some .huffBits => s
  | some .rleRec => placeUnit 0x06 .sToken 0 bytes s

end Sys2Proof.Machine
end

