-- ==== Sys2Proof/Machine/Step.lean ====
section
/-! DEFINITION. One step of the machine, and the state whose next step runs a given word. -/

namespace Sys2Proof.Machine

/-- One step: a host request, or one move of the engine (00_scope.md R11). -/
def step (s : State) : Host.Outcome State Fault Refusal := turn exec s

/-- `s` with an opcode-table word placed where `step` fetches next (log 13). -/
def State.withFetchWord (s : State) (nbits w : Nat) : State := placeTableWord nbits w s

end Sys2Proof.Machine
end

