-- ==== Sys2Proof/Safety.lean ====
section
/-! DEFINITION. What counts as a legal state and as a result, in the terms the statements use. -/

namespace Sys2Proof.Machine

/-- The engine is the one to move, on a command the host has not disturbed. -/
abbrev State.engineReady (s : State) : Prop :=
  s.status = .busy ∧ s.host = [] ∧ s.tainted = false ∧ s.n ≤ s.params.inCap

/-- A command can be launched with the input length at hand (R132, R361). -/
abbrev State.launchable (s : State) : Prop := s.status ≠ .busy ∧ s.inLen.toNat ≤ s.params.inCap

/-- The bytes a command has delivered: `OUT[0 .. OUT_LEN-1]` as the host reads them (R130, R137). -/
def State.result (s : State) : List Byte := (List.range s.outLen.toNat).map (hostOutByte s)

/-- The bytes the next launch would work on: `IN[0 .. IN_LEN-1]` (R130). -/
def State.input (s : State) : List Byte := (List.range s.inLen.toNat).map s.inByte

/-- `s` after the bytes `bs` have been appended to `OUT` at `OUT_POS` (R31). -/
def putAll (bs : List Byte) (s : State) : State :=
  { s with out := s.out.writeAll s.outPos bs, outPos := s.outPos + bs.length }

/-- What a command or an engine step never writes: the input side of the block, the instance, the host's side (R26, R136). -/
abbrev State.sameInputs (s t : State) : Prop :=
  t.params = s.params ∧ t.inp = s.inp ∧ t.inLen = s.inLen ∧ t.host = s.host ∧ t.hostData = s.hostData ∧ t.stepwise = s.stepwise

/-- Both memories are in canonical form. -/
abbrev State.memWf (s : State) : Prop := s.inp.wf ∧ s.out.wf

/-- `STATUS`, `ERR` and `PHASE` agree (R22, R23, R29): an error code stands exactly while `STATUS` is `ERROR`, and the two ends and
`IDLE` are where `STATUS` says; no step rests at `M_COPY` (log 17). -/
abbrev State.statusWf (s : State) : Prop :=
  (s.err ≠ none ↔ s.status = .error) ∧ (s.status = .done ↔ s.phase = .endOk) ∧ (s.status = .error ↔ s.phase = .endErr) ∧
  (s.status = .idle → s.phase = .idle) ∧ s.phase ≠ .mCopy

/-- The positions stay in range (R30, R31, R36, R39, R46): the clauses on single phases say what a phase has left for the next. -/
abbrev State.posWf (s : State) : Prop :=
  s.outLen.toNat ≤ s.params.outCap ∧
  (s.status = .busy →
    s.outPos ≤ s.params.outCap ∧ s.n ≤ s.params.inCap ∧ s.n < 4294967296 ∧ s.inPos ≤ s.n + 1 ∧
    (s.phase = .idle → s.inPos = 0) ∧
    (s.phase = .lEmit → s.inPos + s.lz.bestLen ≤ s.n ∧ s.inPos < s.n) ∧
    (s.phase = .rEmit → s.inPos + s.rle.runCnt ≤ s.n) ∧
    (s.phase = .dHeader → s.inPos ≠ 0 →
      s.inPos ≤ s.huff.hdrLen ∧ s.huff.hdrLen ≤ s.n ∧ (s.huff.hdrLen - s.inPos) % 5 = 0) ∧
    (s.phase = .mToken → s.lz.target ≤ s.params.outCap))

/-- `CAP_OK` (R7): `OUT_CAP` is at least the compress bounds of R362 on an input of `IN_CAP` bytes. -/
abbrev Params.capOk (p : Params) : Prop :=
  3 * p.inCap ≤ p.outCap ∧ 4 + 3 * p.inCap + 3 ≤ p.outCap ∧ 1294 + ceil8 (255 * p.inCap) ≤ p.outCap

/-! ## What units stand for, without a machine: the terms in which statements say what a decoder must deliver -/

/-- The bytes an RLE record stands for (30_encoding.md R106, R107, R108). -/
def rleExpand : Instr → List Byte
  | .rleRaw b => [b]
  | .rleEsclit => [0xFF]
  | .rleRun c b => List.replicate c.toNat b
  | _ => []

/-- The output after one LZ77 token, from the output before it, when the token is legal there (R255, R257 to R260): a match's byte
`i` is the byte at `length - DISTANCE + (i mod DISTANCE)`. -/
def lzToken (target : Nat) (out : List Byte) : Instr → Option (List Byte)
  | .lz77Lit b => if out.length < target then some (out ++ [b]) else none
  | .lz77Match d l nx =>
    if out.length < target ∧ 1 ≤ d.toNat ∧ d.toNat ≤ out.length ∧ out.length + l.toNat ≤ target then
      let copied := out ++ (List.range l.toNat).map (fun i => out.getD (out.length - d.toNat + i % d.toNat) 0)
      some (if copied.length < target then copied ++ [nx] else copied)
    else none
  | _ => none

/-- The output after a sequence of LZ77 tokens. -/
def lzTokens (target : Nat) : List Instr → List Byte → Option (List Byte)
  | [], out => some out
  | i :: is, out => (lzToken target out i).bind (lzTokens target is)

/-- `k` bytes at distance `d` before `p` agree with the bytes at `p`, within the cap of R223. -/
def Matches (data : List Byte) (lookahead p d k : Nat) : Prop :=
  k ≤ min (min (p + lookahead) data.length - p) d ∧ ∀ j < k, data[p - d + j]? = data[p + j]?

/-- The byte value of the leaf that a bit string leads to from node `i`, if it leads exactly to a leaf (R199). -/
def follow (node : List Node) : Nat → List Bool → Option Byte
  | i, [] =>
    match node[i]? with
    | some (.leaf sym _) => some sym
    | _ => none
  | i, bit :: bits =>
    match node[i]? with
    | some (.internal _ l r) => follow node (if bit then r else l) bits
    | _ => none

end Sys2Proof.Machine
end

