-- ==== Sys2Proof/Certificates/Slice0/Obligations.lean ====
section
/-! DEFINITION. The statements for the provers. Each docstring names the rules of spec/ it formalises. -/

open Sys2Proof Sys2Proof.Machine

/-! ## Encoding -/

/-- Decoding an encoded well-formed unit gives it back, whatever bytes follow; the Huffman payload, which takes all that is left of
the stream (R103), gives itself back (R92, R96 to R98, R101 to R103, R106 to R110). -/
def Obligations.DecodeOfEncodeIsTheUnit : Prop :=
  (∀ (i : Instr) (rest : List Byte), i.wf = true → (∀ p, i ≠ .huffBits p) →
    decode i.ctx (encode i ++ rest) = .ok (i, rest)) ∧
  (∀ p : List Byte, decode .huffBits (encode (.huffBits p)) = .ok (.huffBits p, []))

/-- Where a unit is decoded, its encoding is exactly the bytes consumed, it is well formed, and it stands where it was expected: no
bit of a unit is dropped and no reserved encoding falls through to a neighbour (R109, R112). -/
def Obligations.EncodeOfDecodeIsTheBytes : Prop :=
  ∀ (c : Ctx) (bs : List Byte) (i : Instr) (rest : List Byte), decode c bs = .ok (i, rest) →
    encode i ++ rest = bs ∧ i.wf = true ∧ i.ctx = c

/-- The six command words of the table of R92, and one unit of each stream kind written out byte by byte from its layout (R96, R97, R98,
R101, R102, R106, R107, R108). -/
def Obligations.WrittenOutWordsDecode : Prop :=
  decode .cmd [0x00] = .ok (.huffCompress, []) ∧ decode .cmd [0x01] = .ok (.lz77Compress, []) ∧
  decode .cmd [0x02] = .ok (.rleCompress, []) ∧ decode .cmd [0x04] = .ok (.huffDecompress, []) ∧
  decode .cmd [0x05] = .ok (.lz77Decompress, []) ∧ decode .cmd [0x06] = .ok (.rleDecompress, []) ∧
  decode .lz77Hdr [0x07, 0x00, 0x00, 0x00] = .ok (.lz77Hdr 7, []) ∧
  decode .lz77Tok [0x00, 0x61] = .ok (.lz77Lit 0x61, []) ∧
  decode .lz77Tok [0x01, 0x03, 0x00, 0x04, 0x01, 0x64] = .ok (.lz77Match 3 260 0x64, []) ∧
  decode .huffHdr [0x0B, 0, 0, 0, 0x17, 0, 0, 0, 0, 0, 0, 0, 0x05, 0] = .ok (.huffHdr 11 23 5, []) ∧
  decode .huffSym [0x61, 0x05, 0x01, 0, 0] = .ok (.huffSym 0x61 261, []) ∧
  decode .huffBits [0x60, 0x80] = .ok (.huffBits [0x60, 0x80], []) ∧
  decode .rleRec [0x41] = .ok (.rleRaw 0x41, []) ∧
  decode .rleRec [0xFF, 0x00, 0xFF] = .ok (.rleEsclit, []) ∧
  decode .rleRec [0xFF, 0x04, 0x41] = .ok (.rleRun 4 0x41, [])

/-! ## The step -/

/-- When the bytes at the read position of a running decoder decode to a unit, the step is that unit's meaning. -/
def Obligations.StepRunsTheDecodedUnit : Prop :=
  ∀ (s : State) (c : Ctx) (i : Instr) (rest : List Byte), s.engineReady → s.boundary = some c → c ≠ .cmd →
    decode c (s.fetchBytes c) = .ok (i, rest) → step s = exec i s

/-- When the host's next request writes a command word that decodes, the step is that command's meaning, the request being used up
(R132; the atomic level of R5). -/
def Obligations.StepRunsTheWrittenCommand : Prop :=
  ∀ (s : State) (early : Bool) (c : Byte) (rest : List HostReq) (i : Instr) (r : List Byte),
    s.host = ⟨early, .writeCmd c⟩ :: rest → s.status ≠ .busy → s.stepwise = false → decode .cmd [c] = .ok (i, r) →
    step s = exec i { s with host := rest }

/-- A command word other than the six launches and ends with `UnknownAlgorithm`, reading no input and writing no output (R93, R133). -/
def Obligations.UnassignedCommandRaisesUnknownAlgorithm : Prop :=
  ∀ (s : State) (early : Bool) (c : Byte) (rest : List HostReq),
    c ∉ ([0x00, 0x01, 0x02, 0x04, 0x05, 0x06] : List Byte) →
    s.host = ⟨early, .writeCmd c⟩ :: rest → s.launchable → s.stepwise = false →
    ∃ t, step s = .next t ∧ t.cmd = c ∧ t.status = .error ∧ t.err = some .unknownAlgorithm ∧ t.outLen = 0 ∧ t.phase = .endErr ∧
      t.inPos = 0 ∧ t.outPos = 0 ∧ t.result = [] ∧ t.host = rest ∧ s.sameInputs { t with host := s.host }

/-- Taking an error (R322): where the bytes at the read position are rejected with kind `e`, the step writes `ERR`, `OUT_LEN`, `STATUS`
and `PHASE`, and nothing else. -/
def Obligations.RejectedUnitTakesTheError : Prop :=
  ∀ (s : State) (c : Ctx) (e : ErrKind), s.engineReady → s.boundary = some c → decode c (s.fetchBytes c) = .error e →
    step s = .next { s with err := some e, outLen := 0, status := .error, phase := .endErr }

/-- With no command running and no request pending the block changes no state (R367). -/
def Obligations.IdleBlockKeepsItsState : Prop :=
  ∀ s : State, s.status ≠ .busy → s.host = [] → step s = .next s

/-! ## The six commands together -/

/-- Empty input (R134): each of the six commands is done at once with `OUT_LEN = 0`. -/
def Obligations.EmptyInputGivesEmptyOutput : Prop :=
  ∀ (i : Instr) (s : State), i.ctx = .cmd → s.status ≠ .busy → s.inLen = 0 →
    ∃ t, exec i s = .next t ∧ t.status = .done ∧ t.err = none ∧ t.outLen = 0 ∧ t.result = []

/-- A `CMD` write while `BUSY` (R359): the write is used up and nothing else changes; as an instruction it changes nothing. -/
def Obligations.CommandWriteWhileBusyIsIgnored : Prop :=
  (∀ (s : State) (c : Byte) (rest : List HostReq), s.status = .busy → s.host = ⟨true, .writeCmd c⟩ :: rest →
    step s = .next { s with host := rest }) ∧
  (∀ (s : State) (i : Instr), s.status = .busy → i.ctx = .cmd → exec i s = .next s)

/-- A launch with `IN_LEN > IN_CAP` has no meaning (R361). -/
def Obligations.LaunchBeyondInCapIsRefused : Prop :=
  ∀ (i : Instr) (s : State), i.ctx = .cmd → s.status ≠ .busy → s.params.inCap < s.inLen.toNat →
    exec i s = .refused .inLenExceedsInCap

/-- The launch as a step of its own (R132, R47): the registers it writes; the input side is untouched. That `OUT_LEN` keeps its
value is the model's choice (log 6; R132 leaves it unspecified), and so is that every command, not only the Huffman ones, starts with the
Huffman tables cleared (log 3). -/
def Obligations.LaunchStepWritesTheseRegisters : Prop :=
  ∀ (s : State) (early : Bool) (c : Byte) (rest : List HostReq),
    s.host = ⟨early, .writeCmd c⟩ :: rest → s.launchable → s.stepwise = true →
    ∃ t, step s = .next t ∧ t.cmd = c ∧ t.status = .busy ∧ t.err = none ∧ t.n = s.inLen.toNat ∧ t.inPos = 0 ∧ t.outPos = 0 ∧
      (∀ b < 256, t.huff.freq[b]? = some 0 ∧ t.huff.code[b]? = some []) ∧ t.huff.alive = [] ∧ t.huff.k = 0 ∧
      t.huff.ncount = 0 ∧ s.sameInputs { t with host := s.host } ∧ t.host = rest ∧ t.outLen = s.outLen

/-- Every command ends, for every input (R146, R130): exactly one of the two results. -/
def Obligations.EveryCommandCompletes : Prop :=
  ∀ (i : Instr) (s : State), i.ctx = .cmd → s.launchable →
    ∃ t, exec i s = .next t ∧ (t.status = .done ∧ t.err = none ∨ t.status = .error ∧ t.err ≠ none ∧ t.outLen = 0)

/-- Which command can end with which kind (R320, R321). -/
def Obligations.CommandsEndOnlyWithTheirErrors : Prop :=
  ∀ (i : Instr) (s t : State) (e : ErrKind), s.launchable → exec i s = .next t → t.err = some e →
    ((i = .huffCompress ∨ i = .lz77Compress ∨ i = .rleCompress) → e = .outputOverflow) ∧
    (i = .huffDecompress → e = .truncatedStream ∨ e = .corruptHeader ∨ e = .outputOverflow) ∧
    (i = .lz77Decompress → e = .truncatedStream ∨ e = .invalidDistance ∨ e = .invalidMatchLength ∨ e = .invalidHeader ∨
      e = .invalidFlag ∨ e = .outputOverflow) ∧
    (i = .rleDecompress → e = .truncatedStream ∨ e = .invalidEscape ∨ e = .outputOverflow)

/-- The frame of a command (R136, R26): `IN`, `IN_LEN`, the parameters and the host's side stay; `CMD` holds the word launched. -/
def Obligations.CommandsNeverWriteTheirInputs : Prop :=
  ∀ (i : Instr) (s t : State), i.ctx = .cmd → s.launchable → exec i s = .next t →
    s.sameInputs t ∧ encode i = [t.cmd] ∧ ∀ a, t.inByte a = s.inByte a

/-- Purity (R135): two launches of a command with the same parameters and the same input bytes have the same completion, whatever
else differs, bytes of `IN` at or beyond `N` included (R67). -/
def Obligations.CompletionIsAPureFunction : Prop :=
  ∀ (i : Instr) (s₁ s₂ t₁ t₂ : State), i.ctx = .cmd → s₁.status ≠ .busy → s₂.status ≠ .busy →
    s₁.params = s₂.params → s₁.inLen = s₂.inLen → s₁.input = s₂.input →
    exec i s₁ = .next t₁ → exec i s₂ = .next t₂ →
    t₁.status = t₂.status ∧ t₁.err = t₂.err ∧ t₁.outLen = t₂.outLen ∧ t₁.result = t₂.result

/-- The two levels of R5 agree: a command run phase by phase from its launch ends in the state the atomic command gives. -/
def Obligations.StepwiseRunEndsAsTheAtomicCommand : Prop :=
  ∀ (i : Instr) (c : Byte) (s t : State), encode i = [c] → i.ctx = .cmd → s.launchable → s.host = [] → s.stepwise = false →
    exec i s = .next t →
    ∃ k, core.run k { s with stepwise := true, host := [⟨false, .writeCmd c⟩] } = .next { t with stepwise := true }

/-! ## The host port -/

/-- A read of register number `n` returns the register of that number (R21 to R25, R60, R310) and changes nothing else (R65); while `BUSY`
this holds of all but `OUT_LEN` (R357; of `IN_LEN` it is log 6's reading of R65). -/
def Obligations.RegisterReadsChangeNothing : Prop :=
  ∀ (s : State) (rest : List HostReq) (n : Nat), s.host = ⟨true, .readReg n⟩ :: rest → n < 5 → (s.status = .busy → n ≠ 4) →
    ∃ v, step s = .next { s with host := rest, hostData := v } ∧
      (n = 0 → v = s.cmd.setWidth 32) ∧
      (n = 1 → v = match s.status with | .idle => 0 | .busy => 1 | .done => 2 | .error => 3) ∧
      (n = 2 → v = match s.err with
        | none => 0 | some .truncatedStream => 1 | some .invalidDistance => 2 | some .invalidMatchLength => 3
        | some .invalidEscape => 4 | some .corruptHeader => 5 | some .unknownAlgorithm => 6 | some .invalidHeader => 7
        | some .invalidFlag => 8 | some .outputOverflow => 9) ∧
      (n = 3 → v = s.inLen) ∧ (n = 4 → v = s.outLen)

/-- A read of `IN` returns the byte (R65) and a sample of `done_o` the level, 0 while `BUSY` (R326, R355), in every status; a read of `OUT`
after `DONE` below `OUT_LEN` returns the result's byte (R356); nothing else changes (R65). Of `IN` while `BUSY` it is log 6's reading of
R65. -/
def Obligations.BufferReadsChangeNothing : Prop :=
  ∀ (s : State) (early : Bool) (rest : List HostReq) (a : Nat), (early = true ∨ s.status ≠ .busy) →
    (s.host = ⟨early, .readIn a⟩ :: rest → a < s.params.inCap →
      step s = .next { s with host := rest, hostData := (s.inByte a).setWidth 32 }) ∧
    (s.host = ⟨early, .readOut a⟩ :: rest → a < s.params.outCap → s.status = .done → a < s.outLen.toNat →
      step s = .next { s with host := rest, hostData := (s.outByte a).setWidth 32 }) ∧
    (s.host = ⟨early, .readDone⟩ :: rest →
      step s = .next { s with host := rest, hostData := if s.status = .done ∨ s.status = .error then 1 else 0 })

/-- Host writes to the registers 1, 2 and 4 (`STATUS`, `ERR`, `OUT_LEN`) and to `OUT` are ignored in every status (R358). -/
def Obligations.WritesToReadOnlyStateAreIgnored : Prop :=
  ∀ (s : State) (rest : List HostReq) (n : Nat) (v : Word) (a : Nat) (b : Byte),
    (n = 1 ∨ n = 2 ∨ n = 4 → s.host = ⟨true, .writeReg n v⟩ :: rest → step s = .next { s with host := rest }) ∧
    (s.host = ⟨true, .writeOut a b⟩ :: rest → a < s.params.outCap → step s = .next { s with host := rest })

/-- Host writes of `IN` and of register 3, `IN_LEN`, while no command runs (R24, R26): the byte or register written, every other byte as
before. -/
def Obligations.HostWritesOfInputTakeEffect : Prop :=
  ∀ (s : State) (early : Bool) (rest : List HostReq), s.status ≠ .busy →
    (∀ v, s.host = ⟨early, .writeReg 3 v⟩ :: rest → step s = .next { s with host := rest, inLen := v }) ∧
    (∀ a b, s.host = ⟨early, .writeIn a b⟩ :: rest → a < s.params.inCap →
      ∃ t, step s = .next t ∧ t = { s with host := rest, inp := t.inp } ∧
        ∀ x, t.inByte x = if x = a then b else s.inByte x)

/-- The effect of `rst` in every status, `BUSY` included (R351, R352): the host-visible registers and `PHASE`; `IN` is not changed.
Which values the working state takes is the model's choice (log 2) and not stated. -/
def Obligations.ResetRestoresTheHostRegisters : Prop :=
  ∀ (s : State) (rest : List HostReq), s.host = ⟨true, .reset⟩ :: rest →
    ∃ t, step s = .next t ∧ t.cmd = 0x00 ∧ t.status = .idle ∧ t.err = none ∧ t.inLen = 0 ∧ t.outLen = 0 ∧ t.phase = .idle ∧
      t.doneO = false ∧ t.params = s.params ∧ t.host = rest ∧ t.inp = s.inp ∧ ∀ a, t.inByte a = s.inByte a

/-- A host write of `IN` or `IN_LEN` while `BUSY` disturbs the running command and ends nothing (R357); a disturbed command still ends, with
a completion the command can have (R357, U3), whichever the free values are. The model's choices (log 7): what the write stores is
free, the end comes at the engine's next move, and a disturbed word that names no command ends with `UnknownAlgorithm`. -/
def Obligations.DisturbedCommandEndsLegally : Prop :=
  (∀ (s : State) (rest : List HostReq), s.status = .busy →
    (∀ a b, s.host = ⟨true, .writeIn a b⟩ :: rest → a < s.params.inCap →
      ∃ t, step s = .next t ∧ t = { s with host := rest, inp := t.inp, fresh := s.fresh + 1, tainted := true } ∧
        ∀ x, x ≠ a → t.inByte x = s.inByte x) ∧
    (∀ v, s.host = ⟨true, .writeReg 3 v⟩ :: rest →
      ∃ t, step s = .next t ∧ t = { s with host := rest, inLen := t.inLen, fresh := s.fresh + 1, tainted := true })) ∧
  (∀ s : State, s.status = .busy → s.host = [] → s.tainted = true → s.err = none →
    ∃ t, step s = .next t ∧ t.tainted = false ∧
      (t.status = .done ∧ t.err = none ∧ t.outLen.toNat ≤ s.params.outCap ∧ decode .cmd [s.cmd] ≠ .error .unknownAlgorithm ∨
       t.status = .error ∧ t.outLen = 0 ∧ ∃ e ∈ possibleErrors (decodeCmd s.cmd), t.err = some e))

/-! ## RLE -/

/-- `RLE.RAW` (R289): a record whose first byte is not the escape byte runs as `RAW`, appends that byte and advances by 1; everything
else stays, and every other byte of `OUT` reads as before. -/
def Obligations.RleRawAppendsItsByte : Prop :=
  (∀ (s : State) (b : Byte) (rest : List Byte), s.engineReady → s.phase = .sToken → s.inPos < s.n → s.unread = b :: rest →
    b ≠ 0xFF → step s = exec (.rleRaw b) s) ∧
  (∀ (s : State) (b : Byte), s.outPos < s.params.outCap →
    ∃ t, exec (.rleRaw b) s = .next t ∧ t = { s with out := t.out, outPos := s.outPos + 1, inPos := s.inPos + 1 } ∧
      ∀ a, t.outByte a = if a = s.outPos then b else s.outByte a) ∧
  (∀ (s : State) (b : Byte), s.params.outCap ≤ s.outPos →
    exec (.rleRaw b) s = .next { s with err := some .outputOverflow, outLen := 0, status := .error, phase := .endErr })

/-- `RLE.ESCLIT` (R291): `FF 00 FF` appends one `0xFF` and advances by 3; `FF 00 xx` with another `xx` is `InvalidEscape`. -/
def Obligations.RleEsclitAppendsTheEscapeByte : Prop :=
  (∀ (s : State) (third : Byte) (rest : List Byte), s.engineReady → s.phase = .sToken → s.inPos < s.n →
    s.unread = 0xFF :: 0x00 :: third :: rest →
    (third = 0xFF → step s = exec .rleEsclit s) ∧
    (third ≠ 0xFF →
      step s = .next { s with err := some .invalidEscape, outLen := 0, status := .error, phase := .endErr })) ∧
  (∀ s : State, s.outPos < s.params.outCap →
    ∃ t, exec .rleEsclit s = .next t ∧ t = { s with out := t.out, outPos := s.outPos + 1, inPos := s.inPos + 3 } ∧
      ∀ a, t.outByte a = if a = s.outPos then 0xFF else s.outByte a) ∧
  (∀ s : State, s.params.outCap ≤ s.outPos →
    exec .rleEsclit s = .next { s with err := some .outputOverflow, outLen := 0, status := .error, phase := .endErr })

/-- `RLE.RUN` (R292): `FF cc bb` with `cc` not 0 appends `bb` `cc` times and advances by 3; `OutputOverflow` is raised by the `Emit` that
would pass `OUT_CAP`. -/
def Obligations.RleRunAppendsItsRun : Prop :=
  (∀ (s : State) (sub third : Byte) (rest : List Byte), s.engineReady → s.phase = .sToken → s.inPos < s.n →
    s.unread = 0xFF :: sub :: third :: rest → sub ≠ 0x00 → step s = exec (.rleRun sub third) s) ∧
  (∀ (s : State) (c b : Byte), s.outPos + c.toNat ≤ s.params.outCap →
    ∃ t, exec (.rleRun c b) s = .next t ∧ t = { s with out := t.out, outPos := s.outPos + c.toNat, inPos := s.inPos + 3 } ∧
      ∀ a, t.outByte a = if s.outPos ≤ a ∧ a < s.outPos + c.toNat then b else s.outByte a) ∧
  (∀ (s : State) (c b : Byte), s.outPos ≤ s.params.outCap → s.params.outCap < s.outPos + c.toNat →
    ∃ t, exec (.rleRun c b) s = .next t ∧ t.status = .error ∧ t.err = some .outputOverflow ∧ t.outLen = 0 ∧ t.phase = .endErr)

/-- Truncation of an RLE stream (R290, R293): a record that starts with the escape byte and has fewer than 3 bytes is
`TruncatedStream`; at a record boundary at the end of the input the command is done. -/
def Obligations.RleReaderEndsAndTruncates : Prop :=
  ∀ s : State, s.engineReady → s.phase = .sToken →
    (s.unread = [0xFF] ∨ (∃ x, s.unread = [0xFF, x]) →
      step s = .next { s with err := some .truncatedStream, outLen := 0, status := .error, phase := .endErr }) ∧
    (s.n ≤ s.inPos →
      step s = .next { s with outLen := BitVec.ofNat 32 s.outPos, status := .done, phase := .endOk })

/-- Run detection (R281): `RUN_BYTE` is the byte at the position, `RUN_CNT` the length of its run, capped at 255. -/
def Obligations.RunDetectorMeasuresTheRun : Prop :=
  ∀ s : State, s.engineReady → s.phase = .rRun → s.inPos < s.n →
    ∃ t, step s = .next t ∧ t = { s with rle := t.rle, phase := .rEmit } ∧ t.rle.runByte = s.inByte s.inPos ∧
      1 ≤ t.rle.runCnt ∧ t.rle.runCnt ≤ 255 ∧ s.inPos + t.rle.runCnt ≤ s.n ∧
      (∀ j < t.rle.runCnt, s.inByte (s.inPos + j) = t.rle.runByte) ∧
      (t.rle.runCnt = 255 ∨ s.inPos + t.rle.runCnt = s.n ∨ s.inByte (s.inPos + t.rle.runCnt) ≠ t.rle.runByte)

/-- The record of a run (R282, R283, R284, R285) and the advance past it (R286); `OutputOverflow` where it does not fit. -/
def Obligations.RunEmitterWritesTheRecord : Prop :=
  ∀ (s : State) (b : Byte) (c : Nat) (bytes : List Byte), s.engineReady → s.phase = .rEmit → s.rle = ⟨b, c⟩ → c ≤ 255 →
    (c = 1 ∧ b ≠ 0xFF ∧ bytes = [b] ∨
     c = 1 ∧ b = 0xFF ∧ bytes = [0xFF, 0x00, 0xFF] ∨
     2 ≤ c ∧ c ≤ 3 ∧ b ≠ 0xFF ∧ bytes = List.replicate c b ∨
     (4 ≤ c ∨ b = 0xFF ∧ 2 ≤ c) ∧ bytes = [0xFF, BitVec.ofNat 8 c, b]) →
    (s.outPos + bytes.length ≤ s.params.outCap →
      ∃ t, step s = .next t ∧
        t = { s with out := t.out, outPos := s.outPos + bytes.length, inPos := s.inPos + c, phase := .rRun } ∧
        (∀ j < bytes.length, some (t.outByte (s.outPos + j)) = bytes[j]?) ∧
        ∀ a, (a < s.outPos ∨ s.outPos + bytes.length ≤ a) → t.outByte a = s.outByte a) ∧
    (s.outPos ≤ s.params.outCap → s.params.outCap < s.outPos + bytes.length →
      ∃ t, step s = .next t ∧ t.status = .error ∧ t.err = some .outputOverflow ∧ t.outLen = 0 ∧ t.phase = .endErr)

/-- `RLE_COMPRESS` completes where `OUT` holds three bytes for each byte of input, with at most that many (R287 (c), R321, R362). -/
def Obligations.RleCompressCompletes : Prop :=
  ∀ s : State, s.launchable → 3 * s.inLen.toNat ≤ s.params.outCap →
    ∃ t, exec .rleCompress s = .next t ∧ t.status = .done ∧ t.err = none ∧ t.outLen.toNat ≤ 3 * s.inLen.toNat

/-- `RLE_DECOMPRESS` delivers what the records of its stream stand for, one after another, whatever records they are (R105 to R108, R288
to R294). -/
def Obligations.RleDecompressExpandsItsRecords : Prop :=
  ∀ (s : State) (units : List Instr), s.launchable → s.params.outCap ≤ 4294967295 →
    (∀ i ∈ units, i.ctx = .rleRec ∧ i.wf = true) → s.input = units.flatMap encode →
    (units.flatMap rleExpand).length ≤ s.params.outCap →
    ∃ t, exec .rleDecompress s = .next t ∧ t.status = .done ∧ t.err = none ∧ t.result = units.flatMap rleExpand

/-- RLE round trip (R144, R287 (d)): whatever `RLE_COMPRESS` delivers, `RLE_DECOMPRESS` gives the input back, on any instance that can
hold it. -/
def Obligations.RleRoundTrip : Prop :=
  ∀ s t u : State, s.launchable → s.params.outCap ≤ 4294967295 → exec .rleCompress s = .next t → t.status = .done →
    u.launchable → u.input = t.result → s.inLen.toNat ≤ u.params.outCap →
    ∃ v, exec .rleDecompress u = .next v ∧ v.status = .done ∧ v.result = s.input

/-! ## LZ77 -/

/-- `LZ77.HDR` (R251, R252): `TARGET` is the header's value, the tokens begin at offset 4; a target `OUT` cannot hold is
`OutputOverflow`; fewer than 4 bytes are `InvalidHeader`. -/
def Obligations.Lz77HeaderSetsTheTarget : Prop :=
  (∀ (s : State) (v : BitVec 32), v.toNat ≤ s.params.outCap →
    exec (.lz77Hdr v) s = .next { s with lz := { s.lz with target := v.toNat }, inPos := 4, phase := .mToken }) ∧
  (∀ (s : State) (v : BitVec 32), s.params.outCap < v.toNat →
    ∃ t, exec (.lz77Hdr v) s = .next t ∧ t.status = .error ∧ t.err = some .outputOverflow ∧ t.outLen = 0 ∧ t.out = s.out) ∧
  (∀ s : State, s.engineReady → s.phase = .mHeader → s.unread.length < 4 →
    step s = .next { s with err := some .invalidHeader, outLen := 0, status := .error, phase := .endErr })

/-- `LZ77.LIT` (R255): the byte is appended and the position advances by 2; nothing else changes; `OutputOverflow` where it does not
fit. -/
def Obligations.Lz77LitAppendsItsByte : Prop :=
  (∀ (s : State) (b : Byte), s.outPos < s.params.outCap →
    ∃ t, exec (.lz77Lit b) s = .next t ∧ t = { s with out := t.out, outPos := s.outPos + 1, inPos := s.inPos + 2 } ∧
      ∀ a, t.outByte a = if a = s.outPos then b else s.outByte a) ∧
  (∀ (s : State) (b : Byte), s.params.outCap ≤ s.outPos →
    exec (.lz77Lit b) s = .next { s with err := some .outputOverflow, outLen := 0, status := .error, phase := .endErr })

/-- `LZ77.MATCH` on legal fields (R256, R259, R260): with `out0` the end of the output before it, byte `out0 + i` is the byte at
`out0 - DISTANCE + (i mod DISTANCE)`, overlapping copies included; the trailing literal follows unless the target is reached. -/
def Obligations.Lz77MatchCopiesThenAppends : Prop :=
  ∀ (s : State) (d l : BitVec 16) (nx : Byte) (extra : Nat), 1 ≤ d.toNat → d.toNat ≤ s.outPos →
    s.outPos + l.toNat ≤ s.lz.target → s.lz.target ≤ s.params.outCap →
    extra = (if s.outPos + l.toNat < s.lz.target then 1 else 0) →
    ∃ t, exec (.lz77Match d l nx) s = .next t ∧
      t = { s with
        out := t.out, outPos := s.outPos + l.toNat + extra, inPos := s.inPos + 6, phase := .mToken
        lz := { s.lz with tDist := d.toNat, tLen := l.toNat, tNext := nx, copyI := l.toNat } } ∧
      (∀ i < l.toNat, t.outByte (s.outPos + i) = s.outByte (s.outPos - d.toNat + i % d.toNat)) ∧
      (extra = 1 → t.outByte (s.outPos + l.toNat) = nx) ∧
      ∀ a, (a < s.outPos ∨ s.outPos + l.toNat + extra ≤ a) → t.outByte a = s.outByte a

/-- The field checks of a match, distance first (R257, R258, R325 (d)): the error is taken and no byte is written. -/
def Obligations.Lz77MatchChecksItsFields : Prop :=
  ∀ (s : State) (d l : BitVec 16) (nx : Byte),
    (d.toNat = 0 ∨ s.outPos < d.toNat →
      ∃ t, exec (.lz77Match d l nx) s = .next t ∧ t.status = .error ∧ t.err = some .invalidDistance ∧ t.outLen = 0 ∧
        t.phase = .endErr ∧ t.out = s.out) ∧
    (1 ≤ d.toNat → d.toNat ≤ s.outPos → s.lz.target < s.outPos + l.toNat →
      ∃ t, exec (.lz77Match d l nx) s = .next t ∧ t.status = .error ∧ t.err = some .invalidMatchLength ∧ t.outLen = 0 ∧
        t.phase = .endErr ∧ t.out = s.out)

/-- The LZ77 token reader (R253, R254, R255, R256, R261): done when the target is reached; otherwise no flag byte, a literal without its
byte or a match of fewer than six bytes is `TruncatedStream`, and another flag byte is `InvalidFlag`. -/
def Obligations.Lz77ReaderEndsAndRejects : Prop :=
  ∀ s : State, s.engineReady → s.phase = .mToken →
    (s.lz.target ≤ s.outPos →
      step s = .next { s with outLen := BitVec.ofNat 32 s.outPos, status := .done, phase := .endOk }) ∧
    (s.outPos < s.lz.target → (s.unread = [] ∨ s.unread = [0x00] ∨ (∃ r, s.unread = 0x01 :: r ∧ r.length < 5)) →
      step s = .next { s with err := some .truncatedStream, outLen := 0, status := .error, phase := .endErr }) ∧
    (s.outPos < s.lz.target → (∃ f r, s.unread = f :: r ∧ 2 ≤ f.toNat) →
      step s = .next { s with err := some .invalidFlag, outLen := 0, status := .error, phase := .endErr })

/-- The search (R222, R223, R224), stated without reference to scan order: `BEST_LEN` is the greatest match length in the search region,
`BEST_DIST` the smallest distance that has it. -/
def Obligations.SearchFindsTheLongestNearestMatch : Prop :=
  ∀ s : State, s.engineReady → s.phase = .lSearch → s.inPos < s.n →
    ∃ t, step s = .next t ∧ t = { s with lz := t.lz, phase := .lEmit } ∧
      (t.lz.target = s.lz.target ∧ t.lz.tDist = s.lz.tDist ∧ t.lz.tLen = s.lz.tLen ∧ t.lz.tNext = s.lz.tNext ∧
        t.lz.copyI = s.lz.copyI) ∧
      (∀ d k, 1 ≤ d → d ≤ min s.inPos s.params.window → Matches s.data s.params.lookahead s.inPos d k →
        k ≤ t.lz.bestLen) ∧
      (0 < t.lz.bestLen →
        1 ≤ t.lz.bestDist ∧ t.lz.bestDist ≤ min s.inPos s.params.window ∧
        Matches s.data s.params.lookahead s.inPos t.lz.bestDist t.lz.bestLen ∧
        ∀ d, 1 ≤ d → d < t.lz.bestDist → ¬ Matches s.data s.params.lookahead s.inPos d t.lz.bestLen)

/-- Token emission (R225, R226, R227): a match of at least `MIN_MATCH` as a six-byte token, its literal the byte after the match or `0x00`
at the end of the input; otherwise a literal token. -/
def Obligations.TokenEmitterWritesTheToken : Prop :=
  ∀ (s : State) (bytes : List Byte) (next : Nat), s.engineReady → s.phase = .lEmit → s.inPos < s.n →
    s.inPos + s.lz.bestLen ≤ s.n →
    (s.params.minMatch ≤ s.lz.bestLen ∧ next = s.inPos + s.lz.bestLen + 1 ∧
       bytes = [0x01, BitVec.ofNat 8 s.lz.bestDist, BitVec.ofNat 8 (s.lz.bestDist / 256),
         BitVec.ofNat 8 s.lz.bestLen, BitVec.ofNat 8 (s.lz.bestLen / 256),
         if s.inPos + s.lz.bestLen < s.n then s.inByte (s.inPos + s.lz.bestLen) else 0x00] ∨
     s.lz.bestLen < s.params.minMatch ∧ next = s.inPos + 1 ∧ bytes = [0x00, s.inByte s.inPos]) →
    (s.outPos + bytes.length ≤ s.params.outCap →
      ∃ t, step s = .next t ∧
        t = { s with out := t.out, outPos := s.outPos + bytes.length, inPos := next, phase := .lSearch } ∧
        (∀ j < bytes.length, some (t.outByte (s.outPos + j)) = bytes[j]?) ∧
        ∀ a, (a < s.outPos ∨ s.outPos + bytes.length ≤ a) → t.outByte a = s.outByte a) ∧
    (s.outPos ≤ s.params.outCap → s.params.outCap < s.outPos + bytes.length →
      ∃ t, step s = .next t ∧ t.status = .error ∧ t.err = some .outputOverflow ∧ t.outLen = 0 ∧ t.phase = .endErr)

/-- `LZ77_COMPRESS` completes where `OUT` holds the bound of R362, with at most that many bytes. -/
def Obligations.Lz77CompressCompletes : Prop :=
  ∀ (s : State) (bound : Nat), s.launchable → s.params.ok →
    bound = (if 3 ≤ s.params.minMatch then 4 + 2 * s.inLen.toNat
      else if s.params.minMatch = 2 then 4 + 2 * s.inLen.toNat + 2 else 4 + 3 * s.inLen.toNat + 3) →
    bound ≤ s.params.outCap →
    ∃ t, exec .lz77Compress s = .next t ∧ t.status = .done ∧ t.err = none ∧ t.outLen.toNat ≤ bound

/-- `LZ77_DECOMPRESS` delivers what the tokens of its stream stand for, up to the target; bytes after the token that reaches it are
ignored (R94, R251 to R260, R253). -/
def Obligations.Lz77DecompressExpandsItsTokens : Prop :=
  ∀ (s : State) (target : BitVec 32) (tokens : List Instr) (out trailing : List Byte), s.launchable →
    target.toNat ≤ s.params.outCap → s.input = encode (.lz77Hdr target) ++ tokens.flatMap encode ++ trailing →
    lzTokens target.toNat tokens [] = some out → out.length = target.toNat →
    ∃ t, exec .lz77Decompress s = .next t ∧ t.status = .done ∧ t.err = none ∧ t.result = out

/-- LZ77 round trip (R144, R229), for every legal parameter triple of the encoder and any instance that decodes. -/
def Obligations.Lz77RoundTrip : Prop :=
  ∀ s t u : State, s.launchable → s.params.ok → exec .lz77Compress s = .next t → t.status = .done →
    u.launchable → u.input = t.result → s.inLen.toNat ≤ u.params.outCap →
    ∃ v, exec .lz77Decompress u = .next v ∧ v.status = .done ∧ v.result = s.input

/-! ## Huffman -/

/-- `HUFF.HDR` (R192): the registers it writes, `FREQ` and `prev` as R193 starts them, and its checks. That `IN_POS` becomes 14 is log 14's
deduction, that `prev` is a register log 17's. -/
def Obligations.HuffHeaderIsReadAndChecked : Prop :=
  (∀ (s : State) (o : BitVec 32) (p : BitVec 64) (k : BitVec 16), 1 ≤ k.toNat → k.toNat ≤ 256 → 14 + 5 * k.toNat ≤ s.n →
    exec (.huffHdr o p k) s = .next { s with
      inPos := 14
      huff := { s.huff with
        origLen := o.toNat, payloadBits := p.toNat, k := k.toNat, hdrLen := 14 + 5 * k.toNat
        freq := List.replicate 256 0, prev := none } }) ∧
  (∀ (s : State) (o : BitVec 32) (p : BitVec 64) (k : BitVec 16),
    k.toNat = 0 ∨ 256 < k.toNat ∨ s.n < 14 + 5 * k.toNat →
    ∃ t, exec (.huffHdr o p k) s = .next t ∧ t.status = .error ∧ t.err = some .corruptHeader ∧ t.outLen = 0 ∧
      t.out = s.out) ∧
  (∀ s : State, s.engineReady → s.phase = .dHeader → s.inPos = 0 → s.n < 14 →
    step s = .next { s with err := some .corruptHeader, outLen := 0, status := .error, phase := .endErr })

/-- `HUFF.SYM` (R193): an entry in strictly ascending order with a frequency is put in `FREQ`; otherwise `CorruptHeader`. That
`IN_POS` advances by 5 is log 14's deduction, that `prev` is a register log 17's; R193 names neither. -/
def Obligations.HuffSymbolEntryIsReadAndChecked : Prop :=
  ∀ (s : State) (sym : Byte) (f : BitVec 32),
    ((∀ p, s.huff.prev = some p → p.toNat < sym.toNat) → f.toNat ≠ 0 →
      exec (.huffSym sym f) s = .next { s with
        inPos := s.inPos + 5
        huff := { s.huff with freq := s.huff.freq.set sym.toNat f.toNat, prev := some sym } }) ∧
    ((∃ p, s.huff.prev = some p ∧ sym.toNat ≤ p.toNat) ∨ f.toNat = 0 →
      exec (.huffSym sym f) s =
        .next { s with err := some .corruptHeader, outLen := 0, status := .error, phase := .endErr })

/-- The checks between the header and the walk: the frequency sum (R194), the payload bit length (R196), the stream length (R197), the
output capacity (R198), in this order. -/
def Obligations.HuffDecoderChecksBeforeTheWalk : Prop :=
  ∀ s : State, s.engineReady →
    (s.phase = .dHeader → s.inPos ≠ 0 → s.huff.hdrLen ≤ s.inPos →
      (s.huff.freq.sum = s.huff.origLen → step s = .next { s with phase := .dBuild }) ∧
      (s.huff.freq.sum ≠ s.huff.origLen →
        step s = .next { s with err := some .corruptHeader, outLen := 0, status := .error, phase := .endErr })) ∧
    (s.phase = .dCheck →
      (s.huff.bitsSum ≠ s.huff.payloadBits ∨ (s.huff.payloadBits + 7) / 8 < s.n - s.huff.hdrLen →
        step s = .next { s with err := some .corruptHeader, outLen := 0, status := .error, phase := .endErr }) ∧
      (s.huff.bitsSum = s.huff.payloadBits → s.n - s.huff.hdrLen ≤ (s.huff.payloadBits + 7) / 8 →
        (s.params.outCap < s.huff.origLen →
          step s = .next { s with err := some .outputOverflow, outLen := 0, status := .error, phase := .endErr }) ∧
        (s.huff.origLen ≤ s.params.outCap → step s = .next { s with phase := .dWalk })))

/-- The frequency pass (R151, R152, R153): `FREQ[b]` counts the occurrences of `b`, and the counts add up to `N`. -/
def Obligations.FrequencyPassCountsTheInput : Prop :=
  ∀ s : State, s.engineReady → s.phase = .hFreq →
    ∃ t, step s = .next t ∧ t = { s with huff := { s.huff with freq := t.huff.freq }, phase := .hBuild } ∧
      t.huff.freq.length = 256 ∧ (∀ b : Byte, t.huff.freq[b.toNat]? = some (s.data.count b)) ∧ t.huff.freq.sum = s.n

/-- The merge step (R156, R157): of the alive nodes, the first and the second in the order (frequency, index) become the left and the
right child of a new node that carries the sum of their frequencies; the other nodes stay alive. -/
def Obligations.MergeTakesTheTwoLowestNodes : Prop :=
  ∀ (node : List Node) (alive : List Nat), alive.Nodup → 2 ≤ alive.length →
    ∃ a b, a ∈ alive ∧ b ∈ alive ∧ a ≠ b ∧
      (∀ i ∈ alive, i ≠ a → weight node a < weight node i ∨ weight node a = weight node i ∧ a < i) ∧
      (∀ i ∈ alive, i ≠ a → i ≠ b → weight node b < weight node i ∨ weight node b = weight node i ∧ b < i) ∧
      mergeStep node alive = some
        (node ++ [Node.internal (weight node a + weight node b) a b],
         alive.filter (fun i => i ≠ a ∧ i ≠ b) ++ [node.length])

/-- The tree after `H_BUILD` and after `D_BUILD` (R154, R155, R158, R159 (a) to (f), R195). -/
def Obligations.TreeBuilderInvariants : Prop :=
  ∀ (s : State) (next : Phase), s.engineReady → (s.phase = .hBuild ∧ next = .hCodes ∨ s.phase = .dBuild ∧ next = .dCodes) →
    s.huff.freq.length = 256 → 0 < s.huff.freq.sum →
    ∃ t, step s = .next t ∧
      t = { s with
        phase := next
        huff := { s.huff with
          k := t.huff.k, node := t.huff.node, alive := t.huff.alive, ncount := t.huff.ncount, root := t.huff.root } } ∧
      t.huff.k = (s.huff.freq.filter (fun f => 0 < f)).length ∧ 1 ≤ t.huff.k ∧ t.huff.k ≤ 256 ∧
      t.huff.node.length = t.huff.ncount ∧ t.huff.ncount = 2 * t.huff.k - 1 ∧ t.huff.root = 2 * t.huff.k - 2 ∧
      t.huff.alive = [t.huff.root] ∧ weight t.huff.node t.huff.root = s.huff.freq.sum ∧
      (∀ i sym f, t.huff.node[i]? = some (.leaf sym f) →
        i < t.huff.k ∧ 0 < f ∧ s.huff.freq[sym.toNat]? = some f ∧
        i = ((s.huff.freq.take sym.toNat).filter (fun f => 0 < f)).length) ∧
      (∀ i f l r, t.huff.node[i]? = some (.internal f l r) →
        t.huff.k ≤ i ∧ l < i ∧ r < i ∧ l ≠ r ∧ f = weight t.huff.node l + weight t.huff.node r) ∧
      (∀ i < t.huff.ncount, i ≠ t.huff.root →
        ∃! j : Nat, ∃ f l r, t.huff.node[j]? = some (.internal f l r) ∧ (i = l ∨ i = r))

/-- The code table (R160 to R163): a byte value has a code exactly when it occurs, of 1 to 255 bits; with two or more symbols its code
leads from the root to its leaf, 0 to the left and 1 to the right; no code is a prefix of another; a single symbol has the code `0`;
`BITS_SUM` is the sum of frequency times length. -/
def Obligations.CodeTableIsAPrefixCode : Prop :=
  ∀ s : State, s.engineReady → s.phase = .hBuild → s.huff.freq.length = 256 → 0 < s.huff.freq.sum →
    ∃ t u, step s = .next t ∧ step t = .next u ∧ u.phase = .hHeader ∧ u.huff.code.length = 256 ∧
      (∀ b : Byte, codeOf u.huff.code b ≠ [] ↔ 0 < s.huff.freq.getD b.toNat 0) ∧
      (∀ b : Byte, (codeOf u.huff.code b).length ≤ 255) ∧
      (∀ b b' : Byte, b ≠ b' → codeOf u.huff.code b ≠ [] → codeOf u.huff.code b' ≠ [] →
        ¬ codeOf u.huff.code b <+: codeOf u.huff.code b') ∧
      (u.huff.k ≠ 1 → ∀ b : Byte, 0 < s.huff.freq.getD b.toNat 0 →
        follow u.huff.node u.huff.root (codeOf u.huff.code b) = some b) ∧
      (u.huff.k = 1 → ∀ b : Byte, 0 < s.huff.freq.getD b.toNat 0 → codeOf u.huff.code b = [false]) ∧
      u.huff.bitsSum = ((List.range 256).map (fun b => s.huff.freq.getD b 0 * (u.huff.code.getD b []).length)).sum

/-- The header writer (R164): `ORIG_LEN`, `PAYLOAD_BITS`, `SYM_COUNT`, then an entry for each byte value that occurs, in ascending order. -/
def Obligations.HeaderWriterEmitsTheHeader : Prop :=
  ∀ (s : State) (bytes : List Byte), s.engineReady → s.phase = .hHeader → s.huff.freq.length = 256 →
    bytes = u32le (BitVec.ofNat 32 s.n) ++ u64le (BitVec.ofNat 64 s.huff.bitsSum) ++ u16le (BitVec.ofNat 16 s.huff.k) ++
      (List.range 256).flatMap (fun b =>
        if 0 < s.huff.freq.getD b 0 then BitVec.ofNat 8 b :: u32le (BitVec.ofNat 32 (s.huff.freq.getD b 0)) else []) →
    s.outPos + bytes.length ≤ s.params.outCap →
    ∃ t, step s = .next t ∧ t = { s with out := t.out, outPos := s.outPos + bytes.length, phase := .hPack } ∧
      (∀ j < bytes.length, some (t.outByte (s.outPos + j)) = bytes[j]?) ∧
      ∀ a, (a < s.outPos ∨ s.outPos + bytes.length ≤ a) → t.outByte a = s.outByte a

/-- The bit packer and its flush (R62, R165, R166, R167, R365): the payload bytes hold the codes of the input bytes in order, most
significant bit first, the last byte padded with zeros on the right, and no byte more. -/
def Obligations.PackerEmitsTheCodeBits : Prop :=
  ∀ (s : State) (bits : List Bool) (len : Nat), s.engineReady → s.phase = .hPack →
    bits = s.data.flatMap (codeOf s.huff.code) → len = (bits.length + 7) / 8 → s.outPos + len ≤ s.params.outCap →
    ∃ t u, step s = .next t ∧ step t = .next u ∧ u.status = .done ∧ u.outPos = s.outPos + len ∧
      u.outLen = BitVec.ofNat 32 (s.outPos + len) ∧ u.huff.bitsTotal = bits.length ∧
      payloadBitList ((List.range len).map (fun j => u.outByte (s.outPos + j))) =
        bits ++ List.replicate (8 * len - bits.length) false ∧
      ∀ a, (a < s.outPos ∨ s.outPos + len ≤ a) → u.outByte a = s.outByte a

/-- `HUFF_COMPRESS` completes where `OUT` holds the bound of R362, and its size is the size law's (R168, R169). -/
def Obligations.HuffCompressCompletes : Prop :=
  ∀ s : State, s.launchable → s.params.outCap ≤ 4294967295 → s.inLen ≠ 0 →
    1294 + (255 * s.inLen.toNat + 7) / 8 ≤ s.params.outCap →
    ∃ t, exec .huffCompress s = .next t ∧ t.status = .done ∧ t.err = none ∧
      t.outLen.toNat = 14 + 5 * t.huff.k + (t.huff.bitsSum + 7) / 8 ∧ t.huff.bitsTotal = t.huff.bitsSum ∧
      1 ≤ t.huff.k ∧ t.huff.k ≤ 256 ∧ s.inLen.toNat ≤ t.huff.bitsSum ∧ t.huff.bitsSum ≤ 255 * s.inLen.toNat

/-- `HUFF.BITS` (R103, R199 to R202): a payload shorter than declared is `TruncatedStream`. Else, of the `PAYLOAD_BITS` bits, each path from
the root to a leaf appends the leaf's byte, and the walk stops by count; with one symbol each bit appends it, whatever the bit is. Bits
exhausted before the count is reached, inside a code word or not, are `TruncatedStream` (log 16). The padding is never examined. -/
def Obligations.PayloadWalkDeliversTheSymbols : Prop :=
  (∀ (s : State) (payload : List Byte), payload.length < (s.huff.payloadBits + 7) / 8 →
    exec (.huffBits payload) s = .next { s with err := some .truncatedStream, outLen := 0, status := .error, phase := .endErr }) ∧
  (∀ (s : State) (payload : List Byte) (xs : List (Byte × List Bool)) (rest : List Bool), s.huff.k ≠ 1 →
    (s.huff.payloadBits + 7) / 8 ≤ payload.length →
    (∀ x ∈ xs, x.2 ≠ [] ∧ follow s.huff.node s.huff.root x.2 = some x.1) →
    (payloadBitList payload).take s.huff.payloadBits = xs.flatMap Prod.snd ++ rest → s.huff.origLen ≤ s.params.outCap →
    (s.outPos + xs.length = s.huff.origLen →
      ∃ t, exec (.huffBits payload) s = .next t ∧
        t = { s with
          out := t.out, outPos := s.huff.origLen, outLen := BitVec.ofNat 32 s.huff.origLen, status := .done, phase := .endOk
          huff := { s.huff with cur := s.huff.root, bitPos := (xs.flatMap Prod.snd).length } } ∧
        (∀ j < xs.length, some (t.outByte (s.outPos + j)) = (xs.map Prod.fst)[j]?) ∧
        ∀ a, (a < s.outPos ∨ s.huff.origLen ≤ a) → t.outByte a = s.outByte a) ∧
    (s.outPos + xs.length < s.huff.origLen → (∀ q, q <+: rest → follow s.huff.node s.huff.root q = none) →
      ∃ t, exec (.huffBits payload) s = .next t ∧ t.status = .error ∧ t.err = some .truncatedStream ∧ t.outLen = 0)) ∧
  (∀ (s : State) (payload : List Byte) (sym : Byte) (f : Nat), s.huff.k = 1 → (s.huff.payloadBits + 7) / 8 ≤ payload.length →
    s.huff.node[s.huff.root]? = some (.leaf sym f) → s.outPos ≤ s.huff.origLen → s.huff.origLen ≤ s.params.outCap →
    (s.huff.origLen ≤ s.outPos + s.huff.payloadBits →
      ∃ t, exec (.huffBits payload) s = .next t ∧
        t = { s with
          out := t.out, outPos := s.huff.origLen, outLen := BitVec.ofNat 32 s.huff.origLen, status := .done, phase := .endOk
          huff := { s.huff with bitPos := s.huff.origLen - s.outPos } } ∧
        ∀ a, t.outByte a = if s.outPos ≤ a ∧ a < s.huff.origLen then sym else s.outByte a) ∧
    (s.outPos + s.huff.payloadBits < s.huff.origLen →
      ∃ t, exec (.huffBits payload) s = .next t ∧ t.status = .error ∧ t.err = some .truncatedStream ∧ t.outLen = 0))

/-- `HUFF_DECOMPRESS` completes (R191 to R202): on a stream with the header of a frequency table whose payload has the declared length and
begins with the codes of `ORIG_LEN` bytes of the table, it delivers those bytes, the padding being ignored; with a shorter payload it ends
with `TruncatedStream` (D16); a stream of one symbol delivers that symbol `ORIG_LEN` times, whatever the payload's bits are (R200, U15). -/
def Obligations.HuffDecompressDeliversTheSymbols : Prop :=
  (∀ (s : State) (freq : List Nat) (h : HuffRegs) (payload : List Byte), s.launchable →
    freq.length = 256 → 1 ≤ freq.sum → freq.sum < 4294967296 → freq.sum ≤ s.params.outCap →
    h = genCodes (buildTree { HuffRegs.init with freq := freq }) → h.bitsSum < 18446744073709551616 →
    s.input = encode (.huffHdr (BitVec.ofNat 32 freq.sum) (BitVec.ofNat 64 h.bitsSum) (BitVec.ofNat 16 h.k)) ++
      (occurring freq).flatMap (fun e => encode (.huffSym e.1 (BitVec.ofNat 32 e.2))) ++ payload →
    (∀ (out : List Byte) (rest : List Bool), payload.length = (h.bitsSum + 7) / 8 → out.length = freq.sum →
      (∀ b ∈ out, 0 < freq.getD b.toNat 0) →
      (payloadBitList payload).take h.bitsSum = out.flatMap (codeOf h.code) ++ rest →
      ∃ t, exec .huffDecompress s = .next t ∧ t.status = .done ∧ t.err = none ∧ t.result = out) ∧
    (payload.length < (h.bitsSum + 7) / 8 →
      ∃ t, exec .huffDecompress s = .next t ∧ t.status = .error ∧ t.err = some .truncatedStream ∧ t.outLen = 0)) ∧
  (∀ (s : State) (sym : Byte) (len : Nat) (payload : List Byte), s.launchable → 1 ≤ len → len < 4294967296 →
    len ≤ s.params.outCap → payload.length = (len + 7) / 8 →
    s.input = encode (.huffHdr (BitVec.ofNat 32 len) (BitVec.ofNat 64 len) 1) ++
      encode (.huffSym sym (BitVec.ofNat 32 len)) ++ payload →
    ∃ t, exec .huffDecompress s = .next t ∧ t.status = .done ∧ t.err = none ∧ t.result = List.replicate len sym)

/-- Huffman round trip (R144, R170): whatever `HUFF_COMPRESS` delivers, `HUFF_DECOMPRESS` gives the input back, on any instance that can
hold it; a walk that delivers bytes has then consumed the declared bits (R202). -/
def Obligations.HuffRoundTrip : Prop :=
  ∀ s t u : State, s.launchable → s.params.outCap ≤ 4294967295 → exec .huffCompress s = .next t → t.status = .done →
    u.launchable → u.input = t.result → s.inLen.toNat ≤ u.params.outCap →
    ∃ v, exec .huffDecompress u = .next v ∧ v.status = .done ∧ v.result = s.input ∧
      (s.inLen ≠ 0 → v.huff.bitPos = v.huff.payloadBits)

/-- The remark in R202 that `BITPOS = PAYLOAD_BITS` when the command is done, as a claim about every stream the decoder accepts. It does not
follow from the pseudocode of R199 (log 16): a payload no encoder wrote can reach the count after fewer bits. -/
def Obligations.AcceptedWalksConsumeTheDeclaredBits : Prop :=
  ∀ s t : State, s.launchable → exec .huffDecompress s = .next t → t.status = .done → s.inLen ≠ 0 →
    t.huff.bitPos = t.huff.payloadBits

/-! ## Invariants -/

/-- The values R45 gives for reset, and the invariants hold there. The parameters and the working state's values are the model's
choice (log 1, log 2) and not stated. -/
def Obligations.ResetMeetsTheInvariants : Prop :=
  (State.reset.cmd = 0x00 ∧ State.reset.status = .idle ∧ State.reset.err = none ∧ State.reset.inLen = 0 ∧
    State.reset.outLen = 0 ∧ State.reset.doneO = false ∧ State.reset.phase = .idle) ∧
  State.reset.memWf ∧ State.reset.statusWf ∧ State.reset.posWf ∧ State.reset.params.ok

/-- Every step keeps the canonical form of both memories, and no step changes the instance's parameters. -/
def Obligations.StepKeepsMemoriesCanonical : Prop :=
  ∀ s t : State, step s = .next t → s.memWf → t.memWf ∧ t.params = s.params

/-- Every step keeps `STATUS`, `ERR` and `PHASE` in agreement (R22, R23, R29): in particular `ERR` is not 0 exactly when `STATUS` is `ERROR`. -/
def Obligations.StepKeepsStatusConsistent : Prop :=
  ∀ s t : State, step s = .next t → s.statusWf → t.statusWf

/-- Every step keeps the positions in range (R30, R31, R67, R68): nothing is read at or beyond `N`, nothing written at or beyond
`OUT_CAP`. -/
def Obligations.StepKeepsPositionsInRange : Prop :=
  ∀ s t : State, step s = .next t → s.statusWf → s.posWf → t.posWf
end

