-- ==== Sys2Proof/Laws/State.lean ====
section
/-! SUPPORT. One lemma per field of each named update of the state. -/

namespace Sys2Proof.Machine

/-! ## raise -/

@[simp] theorem raise_params (e : ErrKind) (s : State) : (raise e s).params = s.params := rfl
@[simp] theorem raise_cmd (e : ErrKind) (s : State) : (raise e s).cmd = s.cmd := rfl
@[simp] theorem raise_status (e : ErrKind) (s : State) : (raise e s).status = .error := rfl
@[simp] theorem raise_err (e : ErrKind) (s : State) : (raise e s).err = some e := rfl
@[simp] theorem raise_inLen (e : ErrKind) (s : State) : (raise e s).inLen = s.inLen := rfl
@[simp] theorem raise_outLen (e : ErrKind) (s : State) : (raise e s).outLen = 0 := rfl
@[simp] theorem raise_inp (e : ErrKind) (s : State) : (raise e s).inp = s.inp := rfl
@[simp] theorem raise_out (e : ErrKind) (s : State) : (raise e s).out = s.out := rfl
@[simp] theorem raise_phase (e : ErrKind) (s : State) : (raise e s).phase = .endErr := rfl
@[simp] theorem raise_n (e : ErrKind) (s : State) : (raise e s).n = s.n := rfl
@[simp] theorem raise_inPos (e : ErrKind) (s : State) : (raise e s).inPos = s.inPos := rfl
@[simp] theorem raise_outPos (e : ErrKind) (s : State) : (raise e s).outPos = s.outPos := rfl
@[simp] theorem raise_huff (e : ErrKind) (s : State) : (raise e s).huff = s.huff := rfl
@[simp] theorem raise_lz (e : ErrKind) (s : State) : (raise e s).lz = s.lz := rfl
@[simp] theorem raise_rle (e : ErrKind) (s : State) : (raise e s).rle = s.rle := rfl
@[simp] theorem raise_host (e : ErrKind) (s : State) : (raise e s).host = s.host := rfl
@[simp] theorem raise_hostData (e : ErrKind) (s : State) : (raise e s).hostData = s.hostData := rfl
@[simp] theorem raise_stepwise (e : ErrKind) (s : State) : (raise e s).stepwise = s.stepwise := rfl
@[simp] theorem raise_tainted (e : ErrKind) (s : State) : (raise e s).tainted = s.tainted := rfl
@[simp] theorem raise_fresh (e : ErrKind) (s : State) : (raise e s).fresh = s.fresh := rfl

/-! ## finish -/

@[simp] theorem finish_params (s : State) : (finish s).params = s.params := rfl
@[simp] theorem finish_cmd (s : State) : (finish s).cmd = s.cmd := rfl
@[simp] theorem finish_status (s : State) : (finish s).status = .done := rfl
@[simp] theorem finish_err (s : State) : (finish s).err = s.err := rfl
@[simp] theorem finish_inLen (s : State) : (finish s).inLen = s.inLen := rfl
@[simp] theorem finish_outLen (s : State) : (finish s).outLen = BitVec.ofNat 32 s.outPos := rfl
@[simp] theorem finish_inp (s : State) : (finish s).inp = s.inp := rfl
@[simp] theorem finish_out (s : State) : (finish s).out = s.out := rfl
@[simp] theorem finish_phase (s : State) : (finish s).phase = .endOk := rfl
@[simp] theorem finish_n (s : State) : (finish s).n = s.n := rfl
@[simp] theorem finish_inPos (s : State) : (finish s).inPos = s.inPos := rfl
@[simp] theorem finish_outPos (s : State) : (finish s).outPos = s.outPos := rfl
@[simp] theorem finish_huff (s : State) : (finish s).huff = s.huff := rfl
@[simp] theorem finish_lz (s : State) : (finish s).lz = s.lz := rfl
@[simp] theorem finish_rle (s : State) : (finish s).rle = s.rle := rfl
@[simp] theorem finish_host (s : State) : (finish s).host = s.host := rfl
@[simp] theorem finish_hostData (s : State) : (finish s).hostData = s.hostData := rfl
@[simp] theorem finish_stepwise (s : State) : (finish s).stepwise = s.stepwise := rfl
@[simp] theorem finish_tainted (s : State) : (finish s).tainted = s.tainted := rfl
@[simp] theorem finish_fresh (s : State) : (finish s).fresh = s.fresh := rfl

/-! ## launch -/

@[simp] theorem launch_params (c : Byte) (s : State) : (launch c s).params = s.params := rfl
@[simp] theorem launch_cmd (c : Byte) (s : State) : (launch c s).cmd = c := rfl
@[simp] theorem launch_status (c : Byte) (s : State) : (launch c s).status = .busy := rfl
@[simp] theorem launch_err (c : Byte) (s : State) : (launch c s).err = none := rfl
@[simp] theorem launch_inLen (c : Byte) (s : State) : (launch c s).inLen = s.inLen := rfl
@[simp] theorem launch_outLen (c : Byte) (s : State) : (launch c s).outLen = s.outLen := rfl
@[simp] theorem launch_inp (c : Byte) (s : State) : (launch c s).inp = s.inp := rfl
@[simp] theorem launch_out (c : Byte) (s : State) : (launch c s).out = [] := rfl
@[simp] theorem launch_phase (c : Byte) (s : State) : (launch c s).phase = .idle := rfl
@[simp] theorem launch_n (c : Byte) (s : State) : (launch c s).n = s.inLen.toNat := rfl
@[simp] theorem launch_inPos (c : Byte) (s : State) : (launch c s).inPos = 0 := rfl
@[simp] theorem launch_outPos (c : Byte) (s : State) : (launch c s).outPos = 0 := rfl
@[simp] theorem launch_huff (c : Byte) (s : State) : (launch c s).huff = HuffRegs.init := rfl
@[simp] theorem launch_lz (c : Byte) (s : State) : (launch c s).lz = LzRegs.init := rfl
@[simp] theorem launch_rle (c : Byte) (s : State) : (launch c s).rle = RleRegs.init := rfl
@[simp] theorem launch_host (c : Byte) (s : State) : (launch c s).host = s.host := rfl
@[simp] theorem launch_hostData (c : Byte) (s : State) : (launch c s).hostData = s.hostData := rfl
@[simp] theorem launch_stepwise (c : Byte) (s : State) : (launch c s).stepwise = s.stepwise := rfl
@[simp] theorem launch_tainted (c : Byte) (s : State) : (launch c s).tainted = false := rfl
@[simp] theorem launch_fresh (c : Byte) (s : State) : (launch c s).fresh = s.fresh + 1 := rfl

/-! ## putByte -/

@[simp] theorem putByte_params (b : Byte) (s : State) : (putByte b s).params = s.params := rfl
@[simp] theorem putByte_cmd (b : Byte) (s : State) : (putByte b s).cmd = s.cmd := rfl
@[simp] theorem putByte_status (b : Byte) (s : State) : (putByte b s).status = s.status := rfl
@[simp] theorem putByte_err (b : Byte) (s : State) : (putByte b s).err = s.err := rfl
@[simp] theorem putByte_inLen (b : Byte) (s : State) : (putByte b s).inLen = s.inLen := rfl
@[simp] theorem putByte_outLen (b : Byte) (s : State) : (putByte b s).outLen = s.outLen := rfl
@[simp] theorem putByte_inp (b : Byte) (s : State) : (putByte b s).inp = s.inp := rfl
@[simp] theorem putByte_out (b : Byte) (s : State) : (putByte b s).out = s.out.write s.outPos b := rfl
@[simp] theorem putByte_phase (b : Byte) (s : State) : (putByte b s).phase = s.phase := rfl
@[simp] theorem putByte_n (b : Byte) (s : State) : (putByte b s).n = s.n := rfl
@[simp] theorem putByte_inPos (b : Byte) (s : State) : (putByte b s).inPos = s.inPos := rfl
@[simp] theorem putByte_outPos (b : Byte) (s : State) : (putByte b s).outPos = s.outPos + 1 := rfl
@[simp] theorem putByte_huff (b : Byte) (s : State) : (putByte b s).huff = s.huff := rfl
@[simp] theorem putByte_lz (b : Byte) (s : State) : (putByte b s).lz = s.lz := rfl
@[simp] theorem putByte_rle (b : Byte) (s : State) : (putByte b s).rle = s.rle := rfl
@[simp] theorem putByte_host (b : Byte) (s : State) : (putByte b s).host = s.host := rfl
@[simp] theorem putByte_hostData (b : Byte) (s : State) : (putByte b s).hostData = s.hostData := rfl
@[simp] theorem putByte_stepwise (b : Byte) (s : State) : (putByte b s).stepwise = s.stepwise := rfl
@[simp] theorem putByte_tainted (b : Byte) (s : State) : (putByte b s).tainted = s.tainted := rfl
@[simp] theorem putByte_fresh (b : Byte) (s : State) : (putByte b s).fresh = s.fresh := rfl

/-! ## packerStart -/

@[simp] theorem packerStart_params (s : State) : (packerStart s).params = s.params := rfl
@[simp] theorem packerStart_cmd (s : State) : (packerStart s).cmd = s.cmd := rfl
@[simp] theorem packerStart_status (s : State) : (packerStart s).status = s.status := rfl
@[simp] theorem packerStart_err (s : State) : (packerStart s).err = s.err := rfl
@[simp] theorem packerStart_inLen (s : State) : (packerStart s).inLen = s.inLen := rfl
@[simp] theorem packerStart_outLen (s : State) : (packerStart s).outLen = s.outLen := rfl
@[simp] theorem packerStart_inp (s : State) : (packerStart s).inp = s.inp := rfl
@[simp] theorem packerStart_out (s : State) : (packerStart s).out = s.out := rfl
@[simp] theorem packerStart_phase (s : State) : (packerStart s).phase = s.phase := rfl
@[simp] theorem packerStart_n (s : State) : (packerStart s).n = s.n := rfl
@[simp] theorem packerStart_inPos (s : State) : (packerStart s).inPos = s.inPos := rfl
@[simp] theorem packerStart_outPos (s : State) : (packerStart s).outPos = s.outPos := rfl
@[simp] theorem packerStart_huff (s : State) : (packerStart s).huff = { s.huff with acc := 0, nacc := 0, bitsTotal := 0 } := rfl
@[simp] theorem packerStart_lz (s : State) : (packerStart s).lz = s.lz := rfl
@[simp] theorem packerStart_rle (s : State) : (packerStart s).rle = s.rle := rfl
@[simp] theorem packerStart_host (s : State) : (packerStart s).host = s.host := rfl
@[simp] theorem packerStart_hostData (s : State) : (packerStart s).hostData = s.hostData := rfl
@[simp] theorem packerStart_stepwise (s : State) : (packerStart s).stepwise = s.stepwise := rfl
@[simp] theorem packerStart_tainted (s : State) : (packerStart s).tainted = s.tainted := rfl
@[simp] theorem packerStart_fresh (s : State) : (packerStart s).fresh = s.fresh := rfl

/-! ## walkStart -/

@[simp] theorem walkStart_params (s : State) : (walkStart s).params = s.params := rfl
@[simp] theorem walkStart_cmd (s : State) : (walkStart s).cmd = s.cmd := rfl
@[simp] theorem walkStart_status (s : State) : (walkStart s).status = s.status := rfl
@[simp] theorem walkStart_err (s : State) : (walkStart s).err = s.err := rfl
@[simp] theorem walkStart_inLen (s : State) : (walkStart s).inLen = s.inLen := rfl
@[simp] theorem walkStart_outLen (s : State) : (walkStart s).outLen = s.outLen := rfl
@[simp] theorem walkStart_inp (s : State) : (walkStart s).inp = s.inp := rfl
@[simp] theorem walkStart_out (s : State) : (walkStart s).out = s.out := rfl
@[simp] theorem walkStart_phase (s : State) : (walkStart s).phase = s.phase := rfl
@[simp] theorem walkStart_n (s : State) : (walkStart s).n = s.n := rfl
@[simp] theorem walkStart_inPos (s : State) : (walkStart s).inPos = s.inPos := rfl
@[simp] theorem walkStart_outPos (s : State) : (walkStart s).outPos = s.outPos := rfl
@[simp] theorem walkStart_huff (s : State) : (walkStart s).huff =
    { s.huff with cur := if s.huff.k = 1 then s.huff.cur else s.huff.root, bitPos := 0 } := rfl
@[simp] theorem walkStart_lz (s : State) : (walkStart s).lz = s.lz := rfl
@[simp] theorem walkStart_rle (s : State) : (walkStart s).rle = s.rle := rfl
@[simp] theorem walkStart_host (s : State) : (walkStart s).host = s.host := rfl
@[simp] theorem walkStart_hostData (s : State) : (walkStart s).hostData = s.hostData := rfl
@[simp] theorem walkStart_stepwise (s : State) : (walkStart s).stepwise = s.stepwise := rfl
@[simp] theorem walkStart_tainted (s : State) : (walkStart s).tainted = s.tainted := rfl
@[simp] theorem walkStart_fresh (s : State) : (walkStart s).fresh = s.fresh := rfl

/-! ## Run -/

@[simp] theorem Run.state_going (s : State) : (Run.going s).state = s := rfl
@[simp] theorem Run.state_ended (s : State) : (Run.ended s).state = s := rfl
@[simp] theorem Run.going_andThen (s : State) (f : State → Run) : (Run.going s).andThen f = f s := rfl
@[simp] theorem Run.ended_andThen (s : State) (f : State → Run) : (Run.ended s).andThen f = .ended s := rfl

theorem Run.andThen_assoc (r : Run) (f g : State → Run) :
    (r.andThen f).andThen g = r.andThen (fun s => (f s).andThen g) := by
  cases r <;> rfl

end Sys2Proof.Machine
end

