-- ==== Sys2Proof/Laws/Memory.lean ====
section
/-! SUPPORT. The laws of memory: a read after a write, the canonical form, and memories that hold an initial segment. -/

namespace Sys2Proof.Machine

@[simp] theorem Memory.read_nil (a : Nat) : Memory.read [] a = none := rfl

/-- A read after a write, at the same offset and at any other. -/
theorem Memory.read_write (m : Memory) (a b : Nat) (v : Byte) :
    (m.write a v).read b = if b = a then some v else m.read b := by
  induction m with
  | nil =>
    simp only [Memory.write, Memory.read, eq_comm (a := a)]
  | cons kv m ih =>
    obtain ⟨k, w⟩ := kv
    simp only [Memory.write]
    split
    · by_cases h : b = a
      · simp [Memory.read, h]
      · simp [Memory.read, h, Ne.symm h]
    · split
      · rename_i h1 h2
        subst h2
        by_cases h : b = a
        · simp [Memory.read, h]
        · simp [Memory.read, h, Ne.symm h]
      · rename_i h1 h2
        simp only [Memory.read, ih]
        by_cases h : b = a
        · subst h
          simp [Ne.symm h2]
        · simp [h]

@[simp] theorem Memory.read_write_same (m : Memory) (a : Nat) (v : Byte) : (m.write a v).read a = some v := by
  simp [Memory.read_write]

theorem Memory.read_write_other (m : Memory) {a b : Nat} (v : Byte) (h : b ≠ a) : (m.write a v).read b = m.read b := by
  simp [Memory.read_write, h]

/-- Which offsets a write leaves listed. -/
theorem Memory.mem_write_keys (m : Memory) (a : Nat) (v : Byte) (x : Nat) :
    x ∈ (m.write a v).map Prod.fst ↔ x = a ∨ x ∈ m.map Prod.fst := by
  induction m with
  | nil => simp [Memory.write]
  | cons kv m ih =>
    obtain ⟨k, w⟩ := kv
    simp only [Memory.write]
    split
    · simp
    · split
      · rename_i h
        subst h
        simp
      · simp only [List.map_cons, List.mem_cons, ih]
        tauto

/-- A write keeps the canonical form. -/
theorem Memory.write_wf (m : Memory) (a : Nat) (v : Byte) (h : m.wf) : (m.write a v).wf := by
  induction m with
  | nil => simp [Memory.write, Memory.wf]
  | cons kv m ih =>
    obtain ⟨k, w⟩ := kv
    simp only [Memory.wf, List.map_cons, List.pairwise_cons] at h ih ⊢
    simp only [Memory.write]
    split
    · rename_i hak
      simp only [List.map_cons, List.pairwise_cons, List.mem_cons]
      refine ⟨?_, h.1, h.2⟩
      rintro x (rfl | hx)
      · exact hak
      · exact lt_trans hak (h.1 x hx)
    · split
      · rename_i hak
        subst hak
        simpa using h
      · rename_i h1 h2
        simp only [List.map_cons, List.pairwise_cons]
        refine ⟨fun x hx => ?_, ih h.2⟩
        rcases (Memory.mem_write_keys m a v x).1 hx with rfl | hx
        · omega
        · exact h.1 x hx

/-- Writing several bytes keeps the canonical form. -/
theorem Memory.writeAll_wf (m : Memory) (a : Nat) (bs : List Byte) (h : m.wf) : (m.writeAll a bs).wf := by
  induction bs generalizing m a with
  | nil => exact h
  | cons b bs ih => exact ih _ _ (Memory.write_wf m a b h)

/-- A read after several bytes were written at ascending offsets. -/
theorem Memory.read_writeAll (m : Memory) (a : Nat) (bs : List Byte) (x : Nat) :
    (m.writeAll a bs).read x = if a ≤ x ∧ x < a + bs.length then bs[x - a]? else m.read x := by
  induction bs generalizing m a with
  | nil =>
    simp only [Memory.writeAll, List.length_nil, Nat.add_zero]
    rw [if_neg (by omega)]
  | cons b bs ih =>
    simp only [Memory.writeAll, ih, Memory.read_write, List.length_cons]
    by_cases h1 : x = a
    · subst h1
      simp
    · by_cases h2 : a ≤ x ∧ x < a + (bs.length + 1)
      · rw [if_pos (by omega), if_pos h2]
        have : x - a = (x - (a + 1)) + 1 := by omega
        rw [this]
        simp
      · rw [if_neg (by omega), if_neg h2, if_neg h1]

/-- Two canonical memories that read the same are equal. -/
theorem Memory.ext_of_wf (m m' : Memory) (h : m.wf) (h' : m'.wf) (hr : ∀ a, m.read a = m'.read a) : m = m' := by
  have head_none : ∀ (m : Memory) (k : Nat), (∀ x ∈ m.map Prod.fst, k < x) → m.read k = none := by
    intro m k hk
    induction m with
    | nil => rfl
    | cons kv m ih =>
      have h1 := hk kv.1 (by simp)
      simp only [Memory.read]
      rw [if_neg (by omega)]
      exact ih (fun x hx => hk x (by simp at hx ⊢; right; exact hx))
  induction m generalizing m' with
  | nil =>
    cases m' with
    | nil => rfl
    | cons kv m' => simpa [Memory.read] using hr kv.1
  | cons kv m ih =>
    obtain ⟨k, v⟩ := kv
    cases m' with
    | nil => simpa [Memory.read] using hr k
    | cons kv' m' =>
      obtain ⟨k', v'⟩ := kv'
      simp only [Memory.wf, List.map_cons, List.pairwise_cons] at h h' ih
      have hk : k = k' := by
        rcases lt_trichotomy k k' with hlt | heq | hgt
        · have h1 := hr k
          rw [head_none ((k', v') :: m') k] at h1
          · simp [Memory.read] at h1
          · intro x hx
            simp only [List.map_cons, List.mem_cons] at hx
            rcases hx with rfl | hx
            · exact hlt
            · exact lt_trans hlt (h'.1 x hx)
        · exact heq
        · have h1 := hr k'
          rw [head_none ((k, v) :: m) k'] at h1
          · simp [Memory.read] at h1
          · intro x hx
            simp only [List.map_cons, List.mem_cons] at hx
            rcases hx with rfl | hx
            · exact hgt
            · exact lt_trans hgt (h.1 x hx)
      subst hk
      have hv : v = v' := by simpa [Memory.read] using hr k
      subst hv
      rw [ih m' h.2 h'.2]
      intro a
      by_cases ha : a = k
      · subst ha
        rw [head_none m a h.1, head_none m' a h'.1]
      · simpa [Memory.read, Ne.symm ha] using hr a

/-- The bytes `bs` at offsets `0, 1, ..`. -/
def cellsOf (bs : List Byte) : Memory := Memory.writeAll [] 0 bs

@[simp] theorem cellsOf_nil : cellsOf [] = [] := rfl

theorem writeAll_append (m : Memory) (a : Nat) (xs ys : List Byte) :
    m.writeAll a (xs ++ ys) = (m.writeAll a xs).writeAll (a + xs.length) ys := by
  induction xs generalizing m a with
  | nil => rfl
  | cons x xs ih =>
    simp only [List.cons_append, Memory.writeAll, ih, List.length_cons]
    congr 1
    omega

/-- A byte stored right after a segment extends it. -/
theorem cellsOf_append (xs ys : List Byte) : (cellsOf xs).writeAll xs.length ys = cellsOf (xs ++ ys) := by
  simp [cellsOf, writeAll_append]

@[simp] theorem cellsOf_read (bs : List Byte) (a : Nat) : (cellsOf bs).read a = bs[a]? := by
  rw [cellsOf, Memory.read_writeAll]
  by_cases h : a < bs.length
  · simp [h]
  · rw [if_neg (by omega)]
    simp [List.getElem?_eq_none (by omega : bs.length ≤ a)]

end Sys2Proof.Machine
end

