-- ==== Sys2Proof/Laws/Emit.lean ====
section
/-! SUPPORT. What `Emit` does (00_scope.md R9): every caller cites these instead of unfolding it. -/

namespace Sys2Proof.Machine

@[simp] theorem putAll_nil (s : State) : putAll [] s = s := rfl

theorem putAll_cons (b : Byte) (bs : List Byte) (s : State) : putAll (b :: bs) s = putAll bs (putByte b s) := by
  simp only [putAll, putByte, Memory.writeAll, List.length_cons]
  congr 1
  omega

theorem putAll_append (xs ys : List Byte) (s : State) : putAll (xs ++ ys) s = putAll ys (putAll xs s) := by
  simp only [putAll, writeAll_append, List.length_append]
  congr 1
  omega

/-- Room for a byte: it is appended. -/
theorem emit_ok {b : Byte} {s : State} (h : s.outPos < s.params.outCap) : emit b s = .going (putByte b s) := by
  simp [emit, Nat.not_le.2 h]

/-- No room: `OutputOverflow`. -/
theorem emit_full {b : Byte} {s : State} (h : s.params.outCap ≤ s.outPos) :
    emit b s = .ended (raise .outputOverflow s) := by
  simp [emit, h]

/-- Room for all the bytes: they are appended in order. -/
theorem emitAll_ok {bs : List Byte} {s : State} (h : s.outPos + bs.length ≤ s.params.outCap) :
    emitAll bs s = .going (putAll bs s) := by
  induction bs generalizing s with
  | nil => rfl
  | cons b bs ih =>
    simp only [List.length_cons] at h
    rw [emitAll, emit_ok (by omega), Run.going_andThen, ih (by simp; omega), putAll_cons]

/-- No room for all the bytes: those that fit are appended, then `OutputOverflow` is raised at the first that does not (R325 (f)). -/
theorem emitAll_full {bs : List Byte} {s : State} (h0 : s.outPos ≤ s.params.outCap)
    (h : s.params.outCap < s.outPos + bs.length) :
    emitAll bs s = .ended (raise .outputOverflow (putAll (bs.take (s.params.outCap - s.outPos)) s)) := by
  induction bs generalizing s with
  | nil =>
    simp only [List.length_nil] at h
    omega
  | cons b bs ih =>
    simp only [List.length_cons] at h
    by_cases hlt : s.outPos < s.params.outCap
    · obtain ⟨k, hk⟩ : ∃ k, s.params.outCap - s.outPos = k + 1 := ⟨s.params.outCap - s.outPos - 1, by omega⟩
      rw [emitAll, emit_ok hlt, Run.going_andThen, ih (by simp; omega) (by simp; omega), hk, List.take_succ_cons, putAll_cons]
      have hk' : (putByte b s).params.outCap - (putByte b s).outPos = k := by simp; omega
      rw [hk']
    · rw [emitAll, emit_full (by omega), Run.ended_andThen]
      have hz : s.params.outCap - s.outPos = 0 := by omega
      simp [hz]

theorem emitAll_append (xs ys : List Byte) (s : State) :
    emitAll (xs ++ ys) s = (emitAll xs s).andThen (emitAll ys) := by
  induction xs generalizing s with
  | nil => rfl
  | cons x xs ih =>
    simp only [List.cons_append, emitAll, Run.andThen_assoc]
    congr 1
    funext t
    exact ih t

/-- Appending one step at a time. -/
theorem emitAll_replicate_succ (k : Nat) (b : Byte) (s : State) :
    emitAll (List.replicate (k + 1) b) s = (emit b s).andThen (emitAll (List.replicate k b)) := rfl

/-! ## Reading what was appended -/

section
variable (bs : List Byte) (s : State)

@[simp] theorem putAll_outPos : (putAll bs s).outPos = s.outPos + bs.length := rfl
@[simp] theorem putAll_out : (putAll bs s).out = s.out.writeAll s.outPos bs := rfl
@[simp] theorem putAll_params : (putAll bs s).params = s.params := rfl
@[simp] theorem putAll_phase : (putAll bs s).phase = s.phase := rfl
@[simp] theorem putAll_status : (putAll bs s).status = s.status := rfl
@[simp] theorem putAll_err : (putAll bs s).err = s.err := rfl
@[simp] theorem putAll_outLen : (putAll bs s).outLen = s.outLen := rfl
@[simp] theorem putAll_n : (putAll bs s).n = s.n := rfl
@[simp] theorem putAll_inPos : (putAll bs s).inPos = s.inPos := rfl
@[simp] theorem putAll_inp : (putAll bs s).inp = s.inp := rfl
@[simp] theorem putAll_huff : (putAll bs s).huff = s.huff := rfl
@[simp] theorem putAll_lz : (putAll bs s).lz = s.lz := rfl
@[simp] theorem putAll_rle : (putAll bs s).rle = s.rle := rfl
@[simp] theorem putAll_data : (putAll bs s).data = s.data := rfl

/-- The appended bytes read back in order; every other byte reads as before. -/
theorem outByte_putAll (a : Nat) :
    (putAll bs s).outByte a = if s.outPos ≤ a ∧ a < s.outPos + bs.length then bs.getD (a - s.outPos) 0 else s.outByte a := by
  simp only [State.outByte, putAll_out, Memory.read_writeAll]
  split
  · rename_i h
    have hlt : a - s.outPos < bs.length := by omega
    simp [hlt]
  · rfl

theorem outByte_putByte (b : Byte) (a : Nat) :
    (putByte b s).outByte a = if a = s.outPos then b else s.outByte a := by
  simp only [State.outByte, putByte_out, Memory.read_write]
  split <;> rfl

end

/-- The frame of an append: the appended bytes stand in order, every other byte reads as before. -/
theorem putAll_frame (bytes : List Byte) (s : State) :
    (∀ j < bytes.length, some ((putAll bytes s).outByte (s.outPos + j)) = bytes[j]?) ∧
    ∀ a, (a < s.outPos ∨ s.outPos + bytes.length ≤ a) → (putAll bytes s).outByte a = s.outByte a := by
  constructor
  · intro j hj
    rw [outByte_putAll, if_pos (by omega)]
    simp [hj]
  · intro a ha
    rw [outByte_putAll, if_neg (by omega)]

/-! ## What a command delivers -/

/-- `OUT` written from offset 0 with `OUT_LEN` set to what was written: the result is what was written. -/
theorem result_of_done {t : State} {bs : List Byte} (hs : t.status = .done) (ho : t.out = cellsOf bs)
    (hl : t.outLen = BitVec.ofNat 32 bs.length) (hb : bs.length < 4294967296) : t.result = bs := by
  have hn : t.outLen.toNat = bs.length := by rw [hl, BitVec.toNat_ofNat, Nat.mod_eq_of_lt hb]
  apply List.ext_getElem
  · simp [State.result, hn]
  · intro i h1 h2
    have hi : i < t.outLen.toNat := by rw [hn]; exact h2
    simp only [State.result, List.getElem_map, List.getElem_range]
    rw [hostOutByte, if_pos ⟨hs, hi⟩, State.outByte, ho, cellsOf_read, List.getElem?_eq_getElem h2]
    rfl

end Sys2Proof.Machine
end

