-- ==== Sys2Proof/Laws/Encoding.lean ====
section
/-! SUPPORT. Fields and units: a little-endian field taken apart and put together again (20_memory.md R61), what a command word
decodes to, and how long a unit's bytes are (30_encoding.md R92 to R108). -/

namespace Sys2Proof

/-! ## Fields -/

theorem le16_parts (v : BitVec 16) : le16 (v.extractLsb' 0 8) (v.extractLsb' 8 8) = v := by
  apply BitVec.eq_of_getLsbD_eq
  intro i hi
  simp only [le16, BitVec.getLsbD_append, BitVec.getLsbD_extractLsb']
  have : i < 8 ∨ (¬ i < 8 ∧ i - 8 < 8) := by omega
  rcases this with h | h <;> simp [h] <;> congr 1 <;> omega

theorem le32_parts (v : BitVec 32) :
    le32 (v.extractLsb' 0 8) (v.extractLsb' 8 8) (v.extractLsb' 16 8) (v.extractLsb' 24 8) = v := by
  apply BitVec.eq_of_getLsbD_eq
  intro i hi
  simp only [le32, BitVec.getLsbD_append, BitVec.getLsbD_extractLsb']
  have : i < 8 ∨ (¬ i < 8 ∧ i - 8 < 8) ∨ (¬ i < 8 ∧ ¬ i - 8 < 8 ∧ i - 8 - 8 < 8) ∨
      (¬ i < 8 ∧ ¬ i - 8 < 8 ∧ ¬ i - 8 - 8 < 8 ∧ i - 8 - 8 - 8 < 8) := by omega
  rcases this with h | h | h | h <;> simp [h] <;> congr 1 <;> omega

theorem le64_parts (v : BitVec 64) :
    le64 (v.extractLsb' 0 8) (v.extractLsb' 8 8) (v.extractLsb' 16 8) (v.extractLsb' 24 8)
      (v.extractLsb' 32 8) (v.extractLsb' 40 8) (v.extractLsb' 48 8) (v.extractLsb' 56 8) = v := by
  have split : ∀ (a b c d e f g h : Byte), le64 a b c d e f g h = le32 e f g h ++ le32 a b c d := by
    intro a b c d e f g h
    apply BitVec.eq_of_getLsbD_eq
    intro i hi
    simp only [le64, le32, BitVec.getLsbD_append]
    repeat' split
    all_goals first | rfl | omega
  have low := le32_parts (v.extractLsb' 0 32)
  have high := le32_parts (v.extractLsb' 32 32)
  have sub : ∀ a b, b + 8 ≤ 32 → (v.extractLsb' a 32).extractLsb' b 8 = v.extractLsb' (a + b) 8 := by
    intro a b hb
    apply BitVec.eq_of_getLsbD_eq
    intro i hi
    simp only [BitVec.getLsbD_extractLsb', hi, decide_true, Bool.true_and]
    simp only [show b + i < 32 by omega, decide_true, Bool.true_and]
    congr 1
    omega
  rw [sub _ _ (by omega), sub _ _ (by omega), sub _ _ (by omega), sub _ _ (by omega)] at low high
  rw [split, low, high]
  apply BitVec.eq_of_getLsbD_eq
  intro i hi
  simp only [BitVec.getLsbD_append, BitVec.getLsbD_extractLsb']
  by_cases h : i < 32
  · simp [h]
  · simp only [h, if_false, show i - 32 < 32 by omega, decide_true, Bool.true_and]
    congr 1
    omega

theorem u16le_le16 (b0 b1 : Byte) : u16le (le16 b0 b1) = [b0, b1] := by
  simp only [u16le, le16, List.cons.injEq, and_true]
  refine ⟨?_, ?_⟩ <;> apply BitVec.eq_of_getLsbD_eq <;> intro i hi <;>
    simp only [BitVec.getLsbD_append, BitVec.getLsbD_extractLsb', hi, decide_true, Bool.true_and] <;>
    repeat' split
  all_goals first | rfl | omega | (congr 1; omega)

theorem u32le_le32 (b0 b1 b2 b3 : Byte) : u32le (le32 b0 b1 b2 b3) = [b0, b1, b2, b3] := by
  simp only [u32le, le32, List.cons.injEq, and_true]
  refine ⟨?_, ?_, ?_, ?_⟩ <;> apply BitVec.eq_of_getLsbD_eq <;> intro i hi <;>
    simp only [BitVec.getLsbD_append, BitVec.getLsbD_extractLsb', hi, decide_true, Bool.true_and] <;>
    repeat' split
  all_goals first | rfl | omega | (congr 1; omega)

theorem u64le_le64 (b0 b1 b2 b3 b4 b5 b6 b7 : Byte) :
    u64le (le64 b0 b1 b2 b3 b4 b5 b6 b7) = [b0, b1, b2, b3, b4, b5, b6, b7] := by
  simp only [u64le, le64, List.cons.injEq, and_true]
  refine ⟨?_, ?_, ?_, ?_, ?_, ?_, ?_, ?_⟩ <;> apply BitVec.eq_of_getLsbD_eq <;> intro i hi <;>
    simp only [BitVec.getLsbD_append, BitVec.getLsbD_extractLsb', hi, decide_true, Bool.true_and] <;>
    repeat' split
  all_goals first | rfl | omega | (congr 1; omega)

@[simp] theorem length_u16le (v : BitVec 16) : (u16le v).length = 2 := rfl
@[simp] theorem length_u32le (v : BitVec 32) : (u32le v).length = 4 := rfl
@[simp] theorem length_u64le (v : BitVec 64) : (u64le v).length = 8 := rfl

/-! ## The command word -/

/-- A command word decodes exactly when it is one of the six (R92, R93). -/
theorem decodeCmd_cases (c : Byte) :
    (c = 0x00 ∧ decodeCmd c = some .huffCompress) ∨ (c = 0x01 ∧ decodeCmd c = some .lz77Compress) ∨
    (c = 0x02 ∧ decodeCmd c = some .rleCompress) ∨ (c = 0x04 ∧ decodeCmd c = some .huffDecompress) ∨
    (c = 0x05 ∧ decodeCmd c = some .lz77Decompress) ∨ (c = 0x06 ∧ decodeCmd c = some .rleDecompress) ∨
    (c ∉ ([0x00, 0x01, 0x02, 0x04, 0x05, 0x06] : List Byte) ∧ decodeCmd c = none) := by
  revert c
  decide +kernel

theorem decodeCmd_none {c : Byte} (h : c ∉ ([0x00, 0x01, 0x02, 0x04, 0x05, 0x06] : List Byte)) : decodeCmd c = none := by
  rcases decodeCmd_cases c with ⟨rfl, e⟩ | ⟨rfl, e⟩ | ⟨rfl, e⟩ | ⟨rfl, e⟩ | ⟨rfl, e⟩ | ⟨rfl, e⟩ | ⟨_, e⟩
  all_goals first | exact e | exact absurd h (by decide)

/-! ## Where a unit is decoded -/

/-- The decoder answers with a unit of the place it was asked about (R109). -/
theorem decode_place {c : Ctx} {bs rest : List Byte} {i : Instr} (h : decode c bs = .ok (i, rest)) : i.ctx = c := by
  cases c with
  | cmd =>
    cases bs with
    | nil => simp [decode] at h
    | cons b bs =>
      simp only [decode] at h
      rcases decodeCmd_cases b with ⟨_, e⟩ | ⟨_, e⟩ | ⟨_, e⟩ | ⟨_, e⟩ | ⟨_, e⟩ | ⟨_, e⟩ | ⟨_, e⟩ <;> rw [e] at h <;> simp at h
      all_goals
        obtain ⟨rfl, _⟩ := h
        rfl
  | lz77Hdr =>
    simp only [decode, decodeLz77Hdr] at h
    split at h <;> simp at h
    obtain ⟨rfl, _⟩ := h
    rfl
  | lz77Tok =>
    simp only [decode, decodeLz77Tok] at h
    repeat' split at h
    all_goals simp at h
    all_goals obtain ⟨rfl, _⟩ := h
    all_goals rfl
  | huffHdr =>
    simp only [decode, decodeHuffHdr] at h
    split at h <;> simp at h
    obtain ⟨rfl, _⟩ := h
    rfl
  | huffSym =>
    simp only [decode, decodeHuffSym] at h
    split at h <;> simp at h
    obtain ⟨rfl, _⟩ := h
    rfl
  | huffBits =>
    simp only [decode, Except.ok.injEq, Prod.mk.injEq] at h
    obtain ⟨rfl, _⟩ := h
    rfl
  | rleRec =>
    simp only [decode, decodeRleRec] at h
    repeat' split at h
    all_goals simp at h
    all_goals obtain ⟨rfl, _⟩ := h
    all_goals rfl

/-! ## What stands where, from what was decoded -/

theorem decodeLz77Hdr_ok {bs rest : List Byte} {i : Instr} (h : decode .lz77Hdr bs = .ok (i, rest)) :
    ∃ v, i = .lz77Hdr v ∧ bs = u32le v ++ rest := by
  simp only [decode, decodeLz77Hdr] at h
  split at h <;> simp at h
  obtain ⟨rfl, rfl⟩ := h
  exact ⟨_, rfl, by rw [u32le_le32]; rfl⟩

theorem decodeLz77Tok_ok {bs rest : List Byte} {i : Instr} (h : decode .lz77Tok bs = .ok (i, rest)) :
    (∃ b, i = .lz77Lit b ∧ bs = 0x00 :: b :: rest) ∨
    (∃ d l nx, i = .lz77Match d l nx ∧ bs = 0x01 :: (u16le d ++ u16le l ++ [nx]) ++ rest) := by
  simp only [decode, decodeLz77Tok] at h
  split at h
  · simp at h
  · split at h
    · rename_i hf
      split at h <;> simp at h
      obtain ⟨rfl, rfl⟩ := h
      exact .inl ⟨_, rfl, by rw [hf]⟩
    · split at h
      · rename_i hf
        split at h <;> simp at h
        obtain ⟨rfl, rfl⟩ := h
        exact .inr ⟨_, _, _, rfl, by rw [u16le_le16, u16le_le16, hf]; rfl⟩
      · simp at h

theorem decodeHuffHdr_ok {bs rest : List Byte} {i : Instr} (h : decode .huffHdr bs = .ok (i, rest)) :
    ∃ o p k, i = .huffHdr o p k ∧ bs = u32le o ++ u64le p ++ u16le k ++ rest := by
  simp only [decode, decodeHuffHdr] at h
  split at h <;> simp at h
  obtain ⟨rfl, rfl⟩ := h
  exact ⟨_, _, _, rfl, by rw [u32le_le32, u64le_le64, u16le_le16]; rfl⟩

theorem decodeHuffSym_ok {bs rest : List Byte} {i : Instr} (h : decode .huffSym bs = .ok (i, rest)) :
    ∃ b f, i = .huffSym b f ∧ bs = b :: (u32le f ++ rest) := by
  simp only [decode, decodeHuffSym] at h
  split at h <;> simp at h
  obtain ⟨rfl, rfl⟩ := h
  exact ⟨_, _, rfl, by rw [u32le_le32]; rfl⟩

theorem decodeRleRec_ok {bs rest : List Byte} {i : Instr} (h : decode .rleRec bs = .ok (i, rest)) :
    (∃ b, i = .rleRaw b ∧ b ≠ escapeByte ∧ bs = b :: rest) ∨
    (i = .rleEsclit ∧ bs = escapeByte :: 0x00 :: escapeByte :: rest) ∨
    (∃ c b, i = .rleRun c b ∧ c ≠ 0 ∧ bs = escapeByte :: c :: b :: rest) := by
  simp only [decode, decodeRleRec] at h
  split at h
  · simp at h
  · split at h
    · rename_i hf
      simp at h
      obtain ⟨rfl, rfl⟩ := h
      exact .inl ⟨_, rfl, hf, rfl⟩
    · rename_i hf
      have hf := not_not.1 hf
      split at h
      · split at h
        · rename_i hs
          split at h <;> simp at h
          rename_i ht
          obtain ⟨rfl, rfl⟩ := h
          exact .inr (.inl ⟨rfl, by rw [hf, hs, ht]⟩)
        · rename_i hs
          simp at h
          obtain ⟨rfl, rfl⟩ := h
          exact .inr (.inr ⟨_, _, rfl, hs, by rw [hf]⟩)
      · simp at h

/-- The kinds by which each place rejects (R112). -/
def rejects : Ctx → List ErrKind
  | .cmd => [.unknownAlgorithm]
  | .lz77Hdr => [.invalidHeader]
  | .lz77Tok => [.truncatedStream, .invalidFlag]
  | .huffHdr | .huffSym => [.corruptHeader]
  | .huffBits => []
  | .rleRec => [.truncatedStream, .invalidEscape]

theorem decode_rejects {c : Ctx} {bs : List Byte} {e : ErrKind} (h : decode c bs = .error e) : e ∈ rejects c := by
  cases c with
  | cmd =>
    simp only [decode] at h
    repeat' split at h
    all_goals simp at h
    all_goals simp [← h, rejects]
  | lz77Hdr =>
    simp only [decode, decodeLz77Hdr] at h
    split at h <;> simp at h
    simp [← h, rejects]
  | lz77Tok =>
    simp only [decode, decodeLz77Tok] at h
    repeat' split at h
    all_goals simp at h
    all_goals simp [← h, rejects]
  | huffHdr =>
    simp only [decode, decodeHuffHdr] at h
    split at h <;> simp at h
    simp [← h, rejects]
  | huffSym =>
    simp only [decode, decodeHuffSym] at h
    split at h <;> simp at h
    simp [← h, rejects]
  | huffBits => simp [decode] at h
  | rleRec =>
    simp only [decode, decodeRleRec] at h
    repeat' split at h
    all_goals simp at h
    all_goals simp [← h, rejects]

end Sys2Proof
end

