-- ==== Sys2Proof/Laws/Frame.lean ====
section
/-! SUPPORT. What no engine step changes: the input side of the block, the instance and the host's side (10_state.md R26,
40_codec_interface.md R136), said once for every phase and unit. -/

namespace Sys2Proof.Machine

/-- The fields an engine step never writes. -/
def Kept (s t : State) : Prop :=
  t.params = s.params ∧ t.inp = s.inp ∧ t.inLen = s.inLen ∧ t.cmd = s.cmd ∧ t.n = s.n ∧ t.host = s.host ∧
  t.hostData = s.hostData ∧ t.stepwise = s.stepwise ∧ t.tainted = s.tainted ∧ t.fresh = s.fresh

theorem Kept.refl (s : State) : Kept s s := ⟨rfl, rfl, rfl, rfl, rfl, rfl, rfl, rfl, rfl, rfl⟩

theorem Kept.trans {s t u : State} (h : Kept s t) (h' : Kept t u) : Kept s u := by
  obtain ⟨a1, a2, a3, a4, a5, a6, a7, a8, a9, a10⟩ := h
  obtain ⟨b1, b2, b3, b4, b5, b6, b7, b8, b9, b10⟩ := h'
  exact ⟨b1.trans a1, b2.trans a2, b3.trans a3, b4.trans a4, b5.trans a5, b6.trans a6, b7.trans a7, b8.trans a8, b9.trans a9,
    b10.trans a10⟩

theorem kept_raise (e : ErrKind) (s : State) : Kept s (raise e s) := Kept.refl s
theorem kept_finish (s : State) : Kept s (finish s) := Kept.refl s
theorem kept_putByte (b : Byte) (s : State) : Kept s (putByte b s) := Kept.refl s

/-- What a rule that keeps those fields goes on to keep. -/
theorem kept_andThen {s : State} {r : Run} {f : State → Run} (hr : Kept s r.state) (hf : ∀ t, Kept t (f t).state) :
    Kept s (r.andThen f).state := by
  cases r with
  | going t => exact hr.trans (hf t)
  | ended t => exact hr

theorem kept_emit (b : Byte) (s : State) : Kept s (emit b s).state := by
  unfold emit
  split <;> exact Kept.refl s

theorem kept_emitAll (bs : List Byte) (s : State) : Kept s (emitAll bs s).state := by
  induction bs generalizing s with
  | nil => exact Kept.refl s
  | cons b bs ih => exact kept_andThen (kept_emit b s) ih

theorem kept_pushBit (bit : Bool) (s : State) : Kept s (pushBit bit s).state := by
  unfold pushBit
  dsimp only
  split
  · exact kept_andThen ((Kept.refl s).trans (kept_emit _ _)) (fun t => Kept.refl t)
  · exact Kept.refl s

theorem kept_pushBits (bits : List Bool) (s : State) : Kept s (pushBits bits s).state := by
  induction bits generalizing s with
  | nil => exact Kept.refl s
  | cons b bs ih => exact kept_andThen (kept_pushBit b s) ih

theorem kept_packBytes (bs : List Byte) (s : State) : Kept s (packBytes bs s).state := by
  induction bs generalizing s with
  | nil => exact Kept.refl s
  | cons b bs ih => exact kept_andThen (kept_pushBits _ s) ih

theorem kept_walkBit (bit : Bool) (s : State) : Kept s (walkBit bit s).state := by
  unfold walkBit
  dsimp only
  split
  · split
    · exact kept_andThen ((Kept.refl s).trans (kept_emit _ _)) (fun t => Kept.refl t)
    · exact Kept.refl s
  · exact Kept.refl s

theorem kept_walkBitSingle (s : State) : Kept s (walkBitSingle s).state := by
  unfold walkBitSingle
  dsimp only
  split
  · exact (Kept.refl s).trans (kept_emit _ _)
  · exact Kept.refl s

theorem kept_walk (bits : List Bool) (s : State) : Kept s (walk bits s).state := by
  induction bits generalizing s with
  | nil =>
    unfold walk
    split <;> exact Kept.refl s
  | cons b bs ih =>
    unfold walk
    split
    · refine kept_andThen ?_ ih
      split
      · exact kept_walkBitSingle s
      · exact kept_walkBit b s
    · exact Kept.refl s

theorem kept_copyLoop (k : Nat) (s : State) : Kept s (copyLoop k s).state := by
  induction k generalizing s with
  | zero => exact Kept.refl s
  | succ k ih => exact kept_andThen (kept_andThen (kept_emit _ s) (fun t => Kept.refl t)) ih

theorem kept_mCopyRun (s : State) : Kept s (mCopyRun s).state := by
  unfold mCopyRun
  split
  · exact Kept.refl s
  · split
    · exact Kept.refl s
    · refine kept_andThen (kept_copyLoop _ s) (fun t => kept_andThen ?_ (fun u => Kept.refl u))
      split
      · exact kept_emit _ t
      · exact Kept.refl t

/-- No stream unit and no start of a command writes those fields. -/
theorem kept_unitRun (i : Instr) (s : State) : Kept s (unitRun i s).state := by
  have hstart : ∀ i, Kept s (startRun i s).state := by
    intro i
    unfold startRun
    split <;> exact Kept.refl s
  cases i with
  | huffCompress => exact hstart _
  | lz77Compress => exact hstart _
  | rleCompress => exact hstart _
  | huffDecompress => exact hstart _
  | lz77Decompress => exact hstart _
  | rleDecompress => exact hstart _
  | lz77Hdr v =>
    simp only [unitRun, lz77HdrRun]
    split <;> exact Kept.refl s
  | lz77Lit b => exact kept_andThen (kept_emit b s) (fun t => Kept.refl t)
  | lz77Match d l nx => exact (Kept.refl s).trans (kept_mCopyRun _)
  | huffHdr o p k =>
    simp only [unitRun, huffHdrRun]
    split
    · exact Kept.refl s
    · split <;> exact Kept.refl s
  | huffSym b f =>
    simp only [unitRun, huffSymRun]
    split
    · exact Kept.refl s
    · split <;> exact Kept.refl s
  | huffBits p =>
    simp only [unitRun, huffBitsRun]
    split
    · exact Kept.refl s
    · exact kept_andThen ((Kept.refl s).trans (kept_walk _ _)) (fun t => Kept.refl t)
  | rleRaw b => exact kept_andThen (kept_emit b s) (fun t => Kept.refl t)
  | rleEsclit => exact kept_andThen (kept_emit _ s) (fun t => Kept.refl t)
  | rleRun c b => exact kept_andThen (kept_emitAll _ s) (fun t => Kept.refl t)

/-- No phase writes those fields. -/
theorem kept_phaseRun (s : State) : Kept s (phaseRun s).state := by
  unfold phaseRun
  split
  case h_4 => exact kept_andThen (kept_emitAll _ s) (fun t => Kept.refl t)
  case h_5 => exact kept_andThen ((Kept.refl s).trans (kept_packBytes _ _)) (fun t => Kept.refl t)
  case h_6 =>
    unfold hFlushPhase
    split
    · exact kept_andThen (kept_emit _ s) (fun t => Kept.refl t)
    · exact Kept.refl s
  case h_7 =>
    unfold dHeaderEnd
    split <;> exact Kept.refl s
  case h_10 =>
    unfold dCheckPhase
    split
    · exact Kept.refl s
    · split
      · exact Kept.refl s
      · split <;> exact Kept.refl s
  case h_11 => exact kept_andThen (kept_emitAll _ s) (fun t => Kept.refl t)
  case h_12 =>
    unfold lSearchPhase
    split <;> exact Kept.refl s
  case h_13 =>
    unfold lEmitPhase
    split
    · exact kept_andThen (kept_emitAll _ s) (fun t => Kept.refl t)
    · exact kept_andThen (kept_emitAll _ s) (fun t => Kept.refl t)
  case h_15 => exact kept_mCopyRun s
  case h_16 =>
    unfold rRunPhase
    split <;> exact Kept.refl s
  case h_17 => exact kept_andThen (kept_emitAll _ s) (fun t => Kept.refl t)
  all_goals exact Kept.refl s

/-- An engine step keeps the input side, the instance and the host's side. -/
theorem engineStep_kept (s : State) : Kept s (engineStep s) := by
  unfold engineStep
  split
  · exact kept_phaseRun s
  · split
    · exact kept_unitRun _ s
    · exact kept_raise _ s

/-- So does any number of them. -/
theorem runEngine_kept (fuel : Nat) (s : State) : Kept s (runEngine fuel s) := by
  induction fuel generalizing s with
  | zero => exact Kept.refl s
  | succ k ih =>
    unfold runEngine
    split
    · exact (engineStep_kept s).trans (ih _)
    · exact Kept.refl s

end Sys2Proof.Machine
end

