-- ==== Sys2Proof/Laws/Engine.lean ====
section
/-! SUPPORT. Engine steps: how they chain, when they have ended, and that a step of the machine is one of them. -/

namespace Sys2Proof.Machine

/-! ## Chains of engine steps -/

theorem runEngine_of_ended (k : Nat) {s : State} (h : s.status ≠ .busy) : runEngine k s = s := by
  cases k with
  | zero => rfl
  | succ k => rw [runEngine, if_neg h]

theorem runEngine_succ (k : Nat) {s : State} (h : s.status = .busy) : runEngine (k + 1) s = runEngine k (engineStep s) := by
  rw [runEngine, if_pos h]

theorem runEngine_add (j k : Nat) (s : State) : runEngine (j + k) s = runEngine k (runEngine j s) := by
  induction j generalizing s with
  | zero => simp [runEngine]
  | succ j ih =>
    by_cases h : s.status = .busy
    · rw [Nat.succ_add, runEngine_succ _ h, runEngine_succ _ h, ih]
    · rw [runEngine_of_ended _ h, runEngine_of_ended _ h, runEngine_of_ended _ h]

/-- Chains compose. -/
theorem runEngine_trans {j k : Nat} {s t u : State} (h : runEngine j s = t) (h' : runEngine k t = u) :
    runEngine (j + k) s = u := by
  rw [runEngine_add, h, h']

/-- More fuel changes nothing once the command has ended. -/
theorem runEngine_le {j k : Nat} {s t : State} (h : runEngine j s = t) (ht : t.status ≠ .busy) (hjk : j ≤ k) :
    runEngine k s = t := by
  obtain ⟨d, rfl⟩ := Nat.exists_eq_add_of_le hjk
  rw [runEngine_add, h, runEngine_of_ended _ ht]

theorem runEngine_one {s : State} (h : s.status = .busy) : runEngine 1 s = engineStep s := by
  rw [runEngine_succ _ h, runEngine]

/-! ## Which engine step it is -/

theorem engineStep_phase {s : State} (h : s.boundary = none) : engineStep s = (phaseRun s).state := by
  rw [engineStep, h]

theorem engineStep_unit {s : State} {c : Ctx} {i : Instr} {rest : List Byte} (h : s.boundary = some c)
    (hd : decode c (s.fetchBytes c) = .ok (i, rest)) : engineStep s = (unitRun i s).state := by
  rw [engineStep, h]
  simp only [hd]

theorem engineStep_reject {s : State} {c : Ctx} {e : ErrKind} (h : s.boundary = some c)
    (hd : decode c (s.fetchBytes c) = .error e) : engineStep s = raise e s := by
  rw [engineStep, h]
  simp only [hd]

/-! ## Units and meanings -/

/-- The meaning of a stream unit is the unit as the engine runs it. -/
theorem exec_unit {i : Instr} (h : i.ctx ≠ .cmd) (s : State) : exec i s = .next (unitRun i s).state := by
  cases i <;> first | rfl | exact absurd rfl h

/-- The meaning of a command is its command word run from the launch. -/
theorem exec_command {i : Instr} (h : i.ctx = .cmd) :
    ∃ c, encode i = [c] ∧ decodeCmd c = some i ∧ ∀ s, exec i s = runCommand c s := by
  cases i <;> simp only [Instr.ctx, reduceCtorEq] at h
  · exact ⟨0x00, rfl, by decide, fun s => by unfold exec execHuffCompress; rfl⟩
  · exact ⟨0x01, rfl, by decide, fun s => by unfold exec execLz77Compress; rfl⟩
  · exact ⟨0x02, rfl, by decide, fun s => by unfold exec execRleCompress; rfl⟩
  · exact ⟨0x04, rfl, by decide, fun s => by unfold exec execHuffDecompress; rfl⟩
  · exact ⟨0x05, rfl, by decide, fun s => by unfold exec execLz77Decompress; rfl⟩
  · exact ⟨0x06, rfl, by decide, fun s => by unfold exec execRleDecompress; rfl⟩

theorem unitRun_command {i : Instr} (h : i.ctx = .cmd) (s : State) : unitRun i s = startRun i s := by
  cases i <;> first | rfl | cases h

/-- What a command word decodes to is a command. -/
theorem decodeCmd_ctx {c : Byte} {i : Instr} (h : decodeCmd c = some i) : i.ctx = .cmd := by
  rcases decodeCmd_cases c with ⟨_, e⟩ | ⟨_, e⟩ | ⟨_, e⟩ | ⟨_, e⟩ | ⟨_, e⟩ | ⟨_, e⟩ | ⟨_, e⟩ <;> rw [e] at h <;>
    first | (cases h; rfl) | exact absurd h (by simp)

theorem decode_command_ok {c : Byte} {i : Instr} (h : decodeCmd c = some i) : decode .cmd [c] = .ok (i, []) := by
  simp only [decode, h]

theorem decode_command_error {c : Byte} (h : decodeCmd c = none) : decode .cmd [c] = .error .unknownAlgorithm := by
  simp only [decode, h]

/-! ## Commands -/

/-- A command where it may be launched: the engine's steps from the launch. -/
theorem runCommand_of_launchable {c : Byte} {s : State} (h : s.launchable) :
    runCommand c s = .next (runEngine (commandFuel s.inLen.toNat) (launch c s)) := by
  rw [runCommand, if_neg h.1, if_neg (Nat.not_lt.2 h.2)]

/-- To say where a command ends it is enough to find one chain of engine steps that ends, within the fuel. -/
theorem runCommand_of_chain {c : Byte} {s t : State} {k : Nat} (h : s.launchable) (hk : k ≤ commandFuel s.inLen.toNat)
    (hr : runEngine k (launch c s) = t) (ht : t.status ≠ .busy) : runCommand c s = .next t := by
  rw [runCommand_of_launchable h, runEngine_le hr ht hk]

/-- The first engine step after a launch: an empty input is done, otherwise the first phase is entered. -/
theorem engineStep_launch {c : Byte} {i : Instr} (s : State) (h : decodeCmd c = some i) :
    engineStep (launch c s) = (startRun i (launch c s)).state := by
  rw [engineStep_unit (c := .cmd) (i := i) (rest := []) rfl (decode_command_ok h), unitRun_command (decodeCmd_ctx h)]

/-- A launch whose word names no command ends at the first engine step (R133). -/
theorem engineStep_launch_unknown {c : Byte} (s : State) (h : decodeCmd c = none) :
    engineStep (launch c s) = raise .unknownAlgorithm (launch c s) :=
  engineStep_reject (c := .cmd) rfl (decode_command_error h)

/-- An empty input is done at once (R134). -/
theorem startRun_empty {i : Instr} {s : State} (h : s.n = 0) : startRun i s = .ended (finish s) := by
  rw [startRun, if_pos h]

theorem startRun_nonempty {i : Instr} {s : State} (h : s.n ≠ 0) :
    startRun i s = .going { s with phase := firstPhase i } := by
  rw [startRun, if_neg h]

/-- A command on an empty input. -/
theorem exec_command_empty {i : Instr} {s : State} (hi : i.ctx = .cmd) (h : s.launchable) (hn : s.inLen.toNat = 0) :
    ∃ c, encode i = [c] ∧ exec i s = .next (finish (launch c s)) := by
  obtain ⟨c, he, hd, hx⟩ := exec_command hi
  refine ⟨c, he, ?_⟩
  rw [hx]
  refine runCommand_of_chain (k := 1) h (by unfold commandFuel; omega) ?_ (by simp)
  rw [runEngine_one rfl, engineStep_launch s hd, startRun_empty hn, Run.state_ended]

/-- A command on an input that is not empty: where the chain from its first phase ends, the command ends. -/
theorem exec_command_chain {i : Instr} {c : Byte} {s t : State} {k : Nat} (he : encode i = [c]) (hi : i.ctx = .cmd)
    (h : s.launchable) (hn : s.inLen.toNat ≠ 0) (hk : k + 1 ≤ commandFuel s.inLen.toNat)
    (hr : runEngine k { launch c s with phase := firstPhase i } = t) (ht : t.status ≠ .busy) : exec i s = .next t := by
  obtain ⟨c', he', hd, hx⟩ := exec_command hi
  obtain rfl : c = c' := by simpa [he] using he'
  rw [hx]
  refine runCommand_of_chain (k := 1 + k) h (by omega) (runEngine_trans (runEngine_one rfl) ?_) ht
  rw [engineStep_launch s hd, startRun_nonempty hn, Run.state_going, hr]

/-! ## The step of the machine -/

/-- A pending request that need not wait is served. -/
theorem step_host {s : State} {r : HostReq} {rest : List HostReq} (h : s.host = r :: rest)
    (hr : r.early = true ∨ s.status ≠ .busy) : step s = hostAct exec r.op { s with host := rest } := by
  simp only [step, turn, h, if_pos hr]

/-- With no request pending, a step of a running machine is the engine's turn. -/
theorem step_running {s : State} (h : s.status = .busy) (hh : s.host = []) : step s = engineTurn exec s := by
  simp only [step, turn, hh, h, if_true]

/-- On a command the host has not disturbed, it is one engine step. -/
theorem step_engine {s : State} (h : s.engineReady) : step s = .next (engineStep s) := by
  obtain ⟨h1, h2, h3, h4⟩ := h
  rw [step_running h1 h2, engineTurn, h3, if_neg (by simp), if_neg (by omega)]
  cases hb : s.boundary with
  | none => rw [engineStep_phase hb]
  | some c =>
    cases hd : decode c (s.fetchBytes c) with
    | error e => simp only [engineStep_reject hb hd, hd]
    | ok p =>
      obtain ⟨i, rest⟩ := p
      have hi := decode_place hd
      simp only [hd, engineStep_unit hb hd]
      by_cases hc : c = .cmd
      · rw [if_pos hc, unitRun_command (hi.trans hc)]
      · rw [if_neg hc, exec_unit (fun h => hc (hi.symm.trans h))]

/-- One more step of a run. -/
theorem run_of_next (M : Host.Core) (k : Nat) {s t : M.State} (h : M.step s = .next t) : M.run (k + 1) s = M.run k t := by
  simp only [Host.Core.run, h]

theorem core_run_step (k : Nat) {s t : State} (h : step s = .next t) : core.run (k + 1) s = core.run k t :=
  run_of_next core k h

/-- A run of the machine, on a command the host leaves alone, is the engine's run. -/
theorem core_run_engine (k : Nat) : ∀ {s : State}, s.host = [] → s.tainted = false → s.n ≤ s.params.inCap →
    core.run k s = .next (runEngine k s) := by
  induction k with
  | zero => exact fun _ _ _ => rfl
  | succ k ih =>
    intro s h1 h2 h3
    by_cases hb : s.status = .busy
    · obtain ⟨a1, -, -, -, a5, a6, -, -, a9, -⟩ := engineStep_kept s
      rw [core_run_step k (step_engine ⟨hb, h1, h2, h3⟩), runEngine_succ _ hb]
      exact ih (a6.trans h1) (a9.trans h2) (by rw [a1, a5]; exact h3)
    · have hs : step s = .next s := by simp only [step, turn, h1, if_neg hb]
      rw [core_run_step k hs, runEngine_of_ended _ hb, ih h1 h2 h3, runEngine_of_ended _ hb]

end Sys2Proof.Machine
end

