-- ==== Sys2Proof/Laws/Outcome.lean ====
section
/-! SUPPORT. What one engine step can do, said once for every phase: the bytes it appends, where it goes, how a command ends
(10_state.md R29; 60_exceptions.md R320). The invariants, the termination and the error kinds of a command follow from it. -/

namespace Sys2Proof.Machine

/-! ## Appending -/

/-- `t` has appended bytes to the output of `s`, and not past the capacity. -/
def Emits (s t : State) : Prop :=
  ∃ bs : List Byte, t.out = s.out.writeAll s.outPos bs ∧ t.outPos = s.outPos + bs.length ∧
    (s.outPos ≤ s.params.outCap → t.outPos ≤ s.params.outCap)

theorem Emits.none {s t : State} (h : t.out = s.out) (h' : t.outPos = s.outPos) : Emits s t :=
  ⟨[], h, h', fun hc => h' ▸ hc⟩

theorem Emits.trans {s t u : State} (h : Emits s t) (hp : t.params = s.params) (h' : Emits t u) : Emits s u := by
  obtain ⟨xs, hx, hxp, hxc⟩ := h
  obtain ⟨ys, hy, hyp, hyc⟩ := h'
  refine ⟨xs ++ ys, ?_, ?_, ?_⟩
  · rw [hy, hx, hxp, writeAll_append]
  · rw [hyp, hxp, List.length_append, Nat.add_assoc]
  · intro hc
    rw [← hp]
    exact hyc (by rw [hp]; exact hxc hc)

theorem Emits.wf {s t : State} (h : Emits s t) (hs : s.out.wf) : t.out.wf := by
  obtain ⟨bs, hx, -, -⟩ := h
  rw [hx]
  exact Memory.writeAll_wf _ _ _ hs

/-! ## A rule that only appends, and the errors it can raise -/

/-- What a rule does that appends bytes, writes working registers and may raise one of `es`: all else stays. -/
def Appends (es : List ErrKind) (s : State) (r : Run) : Prop :=
  (∃ t, r = .going t ∧ Kept s t ∧ Emits s t ∧ t.status = s.status ∧ t.err = s.err ∧ t.outLen = s.outLen ∧ t.phase = s.phase ∧
    t.inPos = s.inPos ∧ t.huff.hdrLen = s.huff.hdrLen ∧ t.lz.target = s.lz.target ∧ t.lz.bestLen = s.lz.bestLen ∧ t.rle = s.rle) ∨
  (∃ t e, e ∈ es ∧ r = .ended (raise e t) ∧ Kept s t ∧ Emits s t)

theorem Appends.refl (es : List ErrKind) (s : State) : Appends es s (.going s) :=
  .inl ⟨s, rfl, Kept.refl s, Emits.none rfl rfl, rfl, rfl, rfl, rfl, rfl, rfl, rfl, rfl, rfl⟩

theorem Appends.fail {es : List ErrKind} {e : ErrKind} (s : State) (h : e ∈ es) : Appends es s (Machine.fail e s) :=
  .inr ⟨s, e, h, rfl, Kept.refl s, Emits.none rfl rfl⟩

theorem Appends.andThen {es : List ErrKind} {s : State} {r : Run} {f : State → Run} (h : Appends es s r)
    (hf : ∀ t, Appends es t (f t)) : Appends es s (r.andThen f) := by
  obtain ⟨t, rfl, hk, he, h1, h2, h3, h4, h5, h6, h7, h8, h9⟩ | ⟨t, e, hm, rfl, hk, he⟩ := h
  · rw [Run.going_andThen]
    obtain ⟨u, hr, hk', he', g1, g2, g3, g4, g5, g6, g7, g8, g9⟩ | ⟨u, e, hm, hr, hk', he'⟩ := hf t
    · exact .inl ⟨u, hr, hk.trans hk', he.trans hk.1 he', g1.trans h1, g2.trans h2, g3.trans h3, g4.trans h4, g5.trans h5,
        g6.trans h6, g7.trans h7, g8.trans h8, g9.trans h9⟩
    · exact .inr ⟨u, e, hm, hr, hk.trans hk', he.trans hk.1 he'⟩
  · exact .inr ⟨t, e, hm, rfl, hk, he⟩

/-- A change of registers no clause of `Appends` speaks of. -/
theorem Appends.of_update {es : List ErrKind} {s s' : State} {r : Run} (h : Appends es s' r) (hk : Kept s s')
    (ho : s'.out = s.out) (hp : s'.outPos = s.outPos) (h1 : s'.status = s.status) (h2 : s'.err = s.err)
    (h3 : s'.outLen = s.outLen) (h4 : s'.phase = s.phase) (h5 : s'.inPos = s.inPos) (h6 : s'.huff.hdrLen = s.huff.hdrLen)
    (h7 : s'.lz.target = s.lz.target) (h8 : s'.lz.bestLen = s.lz.bestLen) (h9 : s'.rle = s.rle) : Appends es s r := by
  obtain ⟨u, hr, hk', he', g1, g2, g3, g4, g5, g6, g7, g8, g9⟩ | ⟨u, e, hm, hr, hk', he'⟩ := h
  · exact .inl ⟨u, hr, hk.trans hk', (Emits.none ho hp).trans hk.1 he', g1.trans h1, g2.trans h2, g3.trans h3, g4.trans h4,
      g5.trans h5, g6.trans h6, g7.trans h7, g8.trans h8, g9.trans h9⟩
  · exact .inr ⟨u, e, hm, hr, hk.trans hk', (Emits.none ho hp).trans hk.1 he'⟩

theorem emit_appends {es : List ErrKind} (b : Byte) (s : State) (h : .outputOverflow ∈ es) : Appends es s (emit b s) := by
  by_cases hc : s.params.outCap ≤ s.outPos
  · rw [emit_full hc]
    exact Appends.fail s h
  · rw [emit_ok (by omega)]
    exact .inl ⟨putByte b s, rfl, kept_putByte b s, ⟨[b], rfl, rfl, fun _ => by simp; omega⟩, rfl, rfl, rfl, rfl, rfl, rfl, rfl,
      rfl, rfl⟩

theorem emitAll_appends {es : List ErrKind} (bs : List Byte) (s : State) (h : .outputOverflow ∈ es) :
    Appends es s (emitAll bs s) := by
  induction bs generalizing s with
  | nil => exact Appends.refl es s
  | cons b bs ih => exact (emit_appends b s h).andThen ih

theorem pushBit_appends {es : List ErrKind} (bit : Bool) (s : State) (h : .outputOverflow ∈ es) :
    Appends es s (pushBit bit s) := by
  unfold pushBit
  dsimp only
  split
  · refine Appends.of_update ((emit_appends _ _ h).andThen fun t => ?_) (Kept.refl s) rfl rfl rfl rfl rfl rfl rfl rfl rfl rfl rfl
    exact (Appends.refl es _).of_update (Kept.refl t) rfl rfl rfl rfl rfl rfl rfl rfl rfl rfl rfl
  · exact (Appends.refl es _).of_update (Kept.refl s) rfl rfl rfl rfl rfl rfl rfl rfl rfl rfl rfl

theorem pushBits_appends {es : List ErrKind} (bits : List Bool) (s : State) (h : .outputOverflow ∈ es) :
    Appends es s (pushBits bits s) := by
  induction bits generalizing s with
  | nil => exact Appends.refl es s
  | cons b bs ih => exact (pushBit_appends b s h).andThen ih

theorem packBytes_appends {es : List ErrKind} (bs : List Byte) (s : State) (h : .outputOverflow ∈ es) :
    Appends es s (packBytes bs s) := by
  induction bs generalizing s with
  | nil => exact Appends.refl es s
  | cons b bs ih => exact (pushBits_appends _ s h).andThen ih

theorem walkBit_appends {es : List ErrKind} (bit : Bool) (s : State) (h : .outputOverflow ∈ es) :
    Appends es s (walkBit bit s) := by
  unfold walkBit
  dsimp only
  split
  · split
    · refine Appends.of_update ((emit_appends _ _ h).andThen fun t => ?_) (Kept.refl s) rfl rfl rfl rfl rfl rfl rfl rfl rfl rfl rfl
      exact (Appends.refl es _).of_update (Kept.refl t) rfl rfl rfl rfl rfl rfl rfl rfl rfl rfl rfl
    · exact (Appends.refl es _).of_update (Kept.refl s) rfl rfl rfl rfl rfl rfl rfl rfl rfl rfl rfl
  · exact (Appends.refl es _).of_update (Kept.refl s) rfl rfl rfl rfl rfl rfl rfl rfl rfl rfl rfl

theorem walkBitSingle_appends {es : List ErrKind} (s : State) (h : .outputOverflow ∈ es) :
    Appends es s (walkBitSingle s) := by
  unfold walkBitSingle
  dsimp only
  split
  · exact (emit_appends _ _ h).of_update (Kept.refl s) rfl rfl rfl rfl rfl rfl rfl rfl rfl rfl rfl
  · exact (Appends.refl es _).of_update (Kept.refl s) rfl rfl rfl rfl rfl rfl rfl rfl rfl rfl rfl

theorem walk_appends (bits : List Bool) (s : State) :
    Appends [.truncatedStream, .outputOverflow] s (walk bits s) := by
  induction bits generalizing s with
  | nil =>
    unfold walk
    split
    · exact Appends.fail s (by simp)
    · exact Appends.refl _ s
  | cons b bs ih =>
    unfold walk
    split
    · refine Appends.andThen ?_ ih
      split
      · exact walkBitSingle_appends s (by simp)
      · exact walkBit_appends b s (by simp)
    · exact Appends.refl _ s

theorem copyLoop_appends {es : List ErrKind} (k : Nat) (s : State) (h : .outputOverflow ∈ es) :
    Appends es s (copyLoop k s) := by
  induction k generalizing s with
  | zero => exact Appends.refl es s
  | succ k ih =>
    refine Appends.andThen (Appends.andThen (emit_appends _ s h) fun t => ?_) ih
    exact (Appends.refl es _).of_update (Kept.refl t) rfl rfl rfl rfl rfl rfl rfl rfl rfl rfl rfl

/-! ## One engine step -/

/-- The error kinds a phase can raise. -/
def raises : Phase → List ErrKind
  | .idle => [.unknownAlgorithm]
  | .hHeader | .hPack | .hFlush | .lHeader | .lEmit | .rEmit => [.outputOverflow]
  | .dHeader => [.corruptHeader]
  | .dCheck => [.corruptHeader, .outputOverflow]
  | .dWalk => [.truncatedStream, .outputOverflow]
  | .mHeader => [.invalidHeader, .outputOverflow]
  | .mToken | .mCopy => [.truncatedStream, .invalidFlag, .invalidDistance, .invalidMatchLength, .outputOverflow]
  | .sToken => [.truncatedStream, .invalidEscape, .outputOverflow]
  | .hFreq | .hBuild | .hCodes | .dBuild | .dCodes | .lSearch | .rRun | .endOk | .endErr => []

/-- The phases in which a command can be done. -/
def donePhases : List Phase := [.idle, .hFlush, .dWalk, .lSearch, .mToken, .rRun, .sToken]

/-- Where a phase leads when the command goes on, and what becomes of the read position. -/
def Goes (s t : State) : Prop :=
  match s.phase with
  | .idle => s.n ≠ 0 ∧ t.inPos = s.inPos ∧ t.huff = s.huff ∧ ∃ i, decodeCmd s.cmd = some i ∧ t.phase = firstPhase i
  | .hFreq => t.phase = .hBuild ∧ t.inPos = s.inPos
  | .hBuild => t.phase = .hCodes ∧ t.inPos = s.inPos
  | .hCodes => t.phase = .hHeader ∧ t.inPos = s.inPos
  | .hHeader => t.phase = .hPack ∧ t.inPos = s.inPos
  | .hPack => t.phase = .hFlush ∧ t.inPos = s.inPos
  | .dHeader =>
    (t.phase = .dHeader ∧ s.inPos = 0 ∧ t.inPos = 14 ∧ t.huff.hdrLen ≤ s.n ∧
      ∃ k, 1 ≤ k ∧ k ≤ 256 ∧ t.huff.hdrLen = 14 + 5 * k) ∨
    (t.phase = .dHeader ∧ s.inPos ≠ 0 ∧ s.inPos < s.huff.hdrLen ∧ t.inPos = s.inPos + 5 ∧ s.inPos + 5 ≤ s.n ∧
      t.huff.hdrLen = s.huff.hdrLen) ∨
    (t.phase = .dBuild ∧ s.inPos ≠ 0 ∧ s.huff.hdrLen ≤ s.inPos ∧ t.inPos = s.inPos)
  | .dBuild => t.phase = .dCodes ∧ t.inPos = s.inPos
  | .dCodes => t.phase = .dCheck ∧ t.inPos = s.inPos
  | .dCheck => t.phase = .dWalk ∧ t.inPos = s.inPos
  | .lHeader => t.phase = .lSearch ∧ t.inPos = s.inPos
  | .lSearch => t.phase = .lEmit ∧ s.inPos < s.n ∧ t.inPos = s.inPos ∧ t.inPos + t.lz.bestLen ≤ s.n
  | .lEmit => t.phase = .lSearch ∧ (t.inPos = s.inPos + s.lz.bestLen + 1 ∨ t.inPos = s.inPos + 1)
  | .mHeader => t.phase = .mToken ∧ t.inPos = 4 ∧ 4 ≤ s.n - s.inPos ∧ t.lz.target ≤ s.params.outCap
  | .mToken =>
    t.phase = .mToken ∧ t.lz.target = s.lz.target ∧ (t.inPos = s.inPos + 2 ∨ t.inPos = s.inPos + 6) ∧ t.inPos ≤ s.n
  | .mCopy => t.phase = .mToken ∧ t.lz.target = s.lz.target ∧ t.inPos = s.inPos + 6
  | .rRun => t.phase = .rEmit ∧ s.inPos < s.n ∧ t.inPos = s.inPos ∧ 1 ≤ t.rle.runCnt ∧ t.inPos + t.rle.runCnt ≤ s.n
  | .rEmit => t.phase = .rRun ∧ t.inPos = s.inPos + s.rle.runCnt
  | .sToken => t.phase = .sToken ∧ (t.inPos = s.inPos + 1 ∨ t.inPos = s.inPos + 3) ∧ t.inPos ≤ s.n
  | .hFlush | .dWalk => False
  | .endOk | .endErr => t = s

/-- The three ways an engine step can leave a command: going on, done, or ended with an error. -/
def Outcome (s t : State) : Prop :=
  Kept s t ∧ Emits s t ∧
  ((t.status = s.status ∧ t.err = s.err ∧ t.outLen = s.outLen ∧ Goes s t) ∨
   (t.status = .done ∧ t.err = s.err ∧ t.outLen = BitVec.ofNat 32 t.outPos ∧ t.phase = .endOk ∧ s.phase ∈ donePhases) ∨
   (∃ e ∈ raises s.phase, t.status = .error ∧ t.err = some e ∧ t.outLen = 0 ∧ t.phase = .endErr))

theorem outcome_raise {s t : State} {e : ErrKind} (hk : Kept s t) (he : Emits s t) (h : e ∈ raises s.phase) :
    Outcome s (raise e t) :=
  ⟨hk, he, .inr (.inr ⟨e, h, rfl, rfl, rfl, rfl⟩)⟩

theorem outcome_fail {s : State} {e : ErrKind} (h : e ∈ raises s.phase) : Outcome s (raise e s) :=
  outcome_raise (Kept.refl s) (Emits.none rfl rfl) h

theorem outcome_finish {s : State} (h : s.phase ∈ donePhases) : Outcome s (finish s) :=
  ⟨Kept.refl s, Emits.none rfl rfl, .inr (.inl ⟨rfl, rfl, rfl, rfl, h⟩)⟩

/-- A rule that appends and then goes on. -/
theorem outcome_going {s : State} {r : Run} {f : State → Run} (h : Appends (raises s.phase) s r)
    (hf : ∀ t, Kept s t → Emits s t → t.status = s.status → t.err = s.err → t.outLen = s.outLen → t.phase = s.phase →
      t.inPos = s.inPos → t.huff.hdrLen = s.huff.hdrLen → t.lz.target = s.lz.target → t.lz.bestLen = s.lz.bestLen →
      t.rle = s.rle → Outcome s (f t).state) : Outcome s (r.andThen f).state := by
  obtain ⟨t, rfl, hk, he, h1, h2, h3, h4, h5, h6, h7, h8, h9⟩ | ⟨t, e, hm, rfl, hk, he⟩ := h
  · exact hf t hk he h1 h2 h3 h4 h5 h6 h7 h8 h9
  · exact outcome_raise hk he hm

/-! ## The input, and how much of it a unit takes -/

@[simp] theorem length_data (s : State) : s.data.length = s.n := by simp [State.data]

@[simp] theorem length_unread (s : State) : s.unread.length = s.n - s.inPos := by simp [State.unread]

theorem fetchBytes_stream {s : State} {c : Ctx} (h : c ≠ .cmd) : s.fetchBytes c = s.unread := by
  cases c <;> first | rfl | exact absurd rfl h

/-- A step at which the stream's bytes decode runs the unit's meaning. -/
theorem step_unit {s : State} {c : Ctx} {i : Instr} {rest : List Byte} (h : s.engineReady) (hb : s.boundary = some c)
    (hc : c ≠ .cmd) (hd : decode c s.unread = .ok (i, rest)) : step s = exec i s := by
  rw [← fetchBytes_stream hc] at hd
  rw [step_engine h, engineStep_unit hb hd, exec_unit (fun hi => hc ((decode_place hd).symm.trans hi))]

/-- A step at which they are rejected takes the error. -/
theorem step_reject {s : State} {c : Ctx} {e : ErrKind} (h : s.engineReady) (hb : s.boundary = some c) (hc : c ≠ .cmd)
    (hd : decode c s.unread = .error e) : step s = .next (raise e s) := by
  rw [← fetchBytes_stream hc] at hd
  rw [step_engine h, engineStep_reject hb hd]

/-! ## The search and the run detector stay inside the input -/

theorem commonLen_le (xs ys : List Byte) (cap : Nat) : commonLen xs ys cap ≤ cap := by
  induction cap generalizing xs ys with
  | zero => cases xs <;> cases ys <;> simp [commonLen]
  | succ cap ih =>
    cases xs with
    | nil => simp [commonLen]
    | cons x xs =>
      cases ys with
      | nil => simp [commonLen]
      | cons y ys =>
        simp only [commonLen]
        split
        · exact Nat.succ_le_succ (ih xs ys)
        · exact Nat.zero_le _

theorem candidateLen_le (data : List Byte) (la p d : Nat) : candidateLen data la p d ≤ min (min (p + la) data.length - p) d :=
  commonLen_le _ _ _

theorem scan_bestLen_le (data : List Byte) (la p count d : Nat) (r : LzRegs) (h : r.bestLen ≤ data.length - p) :
    (scan data la p count d r).bestLen ≤ data.length - p := by
  induction count generalizing d r with
  | zero => exact h
  | succ count ih =>
    simp only [scan]
    have hc := candidateLen_le data la p d
    split
    · exact ih _ _ (by dsimp only; omega)
    · exact ih _ _ h

theorem leadingRun_le (b : Byte) (xs : List Byte) (cap : Nat) : leadingRun b xs cap ≤ min xs.length cap := by
  induction xs generalizing cap with
  | nil => cases cap <;> simp [leadingRun]
  | cons x xs ih =>
    cases cap with
    | zero => simp [leadingRun]
    | succ cap =>
      simp only [leadingRun, List.length_cons]
      have := ih cap
      split <;> omega

/-! ## The outcome of each unit and phase -/

theorem mCopyRun_outcome {s : State} (h : s.phase = .mToken ∨ s.phase = .mCopy)
    (hf : ∀ t, t.phase = .mToken → t.lz.target = s.lz.target → t.inPos = s.inPos + 6 → Goes s t)
    {s' : State} (hk : Kept s s') (ho : s'.out = s.out) (hp : s'.outPos = s.outPos) (h1 : s'.status = s.status)
    (h2 : s'.err = s.err) (h3 : s'.outLen = s.outLen) (h5 : s'.inPos = s.inPos) (h7 : s'.lz.target = s.lz.target) :
    Outcome s (mCopyRun s').state := by
  have hm : ∀ e ∈ [ErrKind.truncatedStream, .invalidFlag, .invalidDistance, .invalidMatchLength, .outputOverflow],
      e ∈ raises s.phase := by
    intro e he
    rcases h with h | h <;> rw [h] <;> exact he
  have he := Emits.none ho hp
  unfold mCopyRun
  split
  · exact outcome_raise hk he (hm _ (by simp))
  · split
    · exact outcome_raise hk he (hm _ (by simp))
    · have happ : Appends (raises s.phase) s' (copyLoop s'.lz.tLen s') := copyLoop_appends _ _ (hm _ (by simp))
      obtain ⟨t, hr, hkt, het, g1, g2, g3, g4, g5, g6, g7, g8, g9⟩ | ⟨t, e, hmem, hr, hkt, het⟩ := happ
      · rw [hr, Run.going_andThen]
        have happ' : Appends (raises s.phase) t (if t.outPos < t.lz.target then emit t.lz.tNext t else .going t) := by
          split
          · exact emit_appends _ _ (hm _ (by simp))
          · exact Appends.refl _ t
        have hkt' := hk.trans hkt
        have het' := he.trans hk.1 het
        obtain ⟨u, hr', hku, heu, k1, k2, k3, k4, k5, k6, k7, k8, k9⟩ | ⟨u, e, hmem, hr', hku, heu⟩ := happ'
        · rw [hr', Run.going_andThen]
          refine ⟨hkt'.trans hku, het'.trans hkt'.1 heu, .inl ⟨?_, ?_, ?_, ?_⟩⟩
          · exact k1.trans (g1.trans h1)
          · exact k2.trans (g2.trans h2)
          · exact k3.trans (g3.trans h3)
          · refine hf _ rfl ?_ ?_
            · exact k7.trans (g7.trans h7)
            · simp only [Run.state_going, k5, g5, h5]
        · rw [hr', Run.ended_andThen]
          exact outcome_raise (hkt'.trans hku) (het'.trans hkt'.1 heu) hmem
      · rw [hr, Run.ended_andThen]
        exact outcome_raise (hk.trans hkt) (he.trans hk.1 het) hmem

/-- A stream unit that appends and advances the read position. -/
theorem appending_outcome {s : State} {r : Run} {f : State → State} (h : Appends (raises s.phase) s r)
    (hg : ∀ t, t.phase = s.phase → t.inPos = s.inPos → t.lz.target = s.lz.target → t.lz.bestLen = s.lz.bestLen →
      t.rle = s.rle → Goes s (f t))
    (hf : ∀ t, Kept t (f t) ∧ (f t).out = t.out ∧ (f t).outPos = t.outPos ∧ (f t).status = t.status ∧ (f t).err = t.err ∧
      (f t).outLen = t.outLen) : Outcome s (r.andThen (fun t => .going (f t))).state := by
  refine outcome_going h fun t hk he h1 h2 h3 h4 h5 h6 h7 h8 h9 => ?_
  obtain ⟨fk, fo, fp, f1, f2, f3⟩ := hf t
  exact ⟨hk.trans fk, he.trans hk.1 (Emits.none fo fp), .inl ⟨f1.trans h1, f2.trans h2, f3.trans h3, hg t h4 h5 h7 h8 h9⟩⟩

/-- A phase that only writes working registers. -/
theorem updating_outcome {s t : State} (hk : Kept s t) (ho : t.out = s.out) (hp : t.outPos = s.outPos)
    (h1 : t.status = s.status) (h2 : t.err = s.err) (h3 : t.outLen = s.outLen) (hg : Goes s t) : Outcome s t :=
  ⟨hk, Emits.none ho hp, .inl ⟨h1, h2, h3, hg⟩⟩

/-- A unit the decoder has just read. -/
theorem unit_outcome {s : State} {c : Ctx} {i : Instr} {rest : List Byte} (hb : s.boundary = some c)
    (hd : decode c (s.fetchBytes c) = .ok (i, rest)) : Outcome s (unitRun i s).state := by
  have hlen := length_unread s
  unfold State.boundary at hb
  split at hb
  case h_1 hp =>
    cases hb
    have hi := decode_place hd
    rw [unitRun_command hi]
    have hcmd : decodeCmd s.cmd = some i := by
      cases hc : decodeCmd s.cmd with
      | none =>
        rw [State.fetchBytes, decode_command_error hc] at hd
        cases hd
      | some j =>
        rw [State.fetchBytes, decode_command_ok hc] at hd
        cases hd
        rfl
    by_cases hn : s.n = 0
    · rw [startRun_empty hn]
      exact outcome_finish (by rw [hp]; decide)
    · rw [startRun_nonempty hn]
      refine updating_outcome (Kept.refl s) rfl rfl rfl rfl rfl ?_
      rw [Goes, hp]
      exact ⟨hn, rfl, rfl, i, hcmd, rfl⟩
  case h_2 hp =>
    split at hb
    · rename_i h0
      cases hb
      rw [fetchBytes_stream (by decide)] at hd
      obtain ⟨o, p, k, rfl, hbs⟩ := decodeHuffHdr_ok hd
      have hmem : ErrKind.corruptHeader ∈ raises s.phase := by rw [hp]; decide
      simp only [unitRun, huffHdrRun]
      split
      · exact outcome_raise (Kept.refl s) (Emits.none rfl rfl) hmem
      · rename_i hk
        split
        · exact outcome_raise (Kept.refl s) (Emits.none rfl rfl) hmem
        · rename_i hn
          refine updating_outcome (Kept.refl s) rfl rfl rfl rfl rfl ?_
          rw [Goes, hp]
          exact .inl ⟨rfl, h0, rfl, Nat.not_lt.1 hn, k.toNat, by omega, by omega, rfl⟩
    · split at hb
      · rename_i h0 h1
        cases hb
        rw [fetchBytes_stream (by decide)] at hd
        obtain ⟨b, f, rfl, hbs⟩ := decodeHuffSym_ok hd
        have hmem : ErrKind.corruptHeader ∈ raises s.phase := by rw [hp]; decide
        rw [hbs] at hlen
        simp at hlen
        simp only [unitRun, huffSymRun]
        split
        · exact outcome_fail hmem
        · split
          · exact outcome_fail hmem
          · refine updating_outcome (Kept.refl s) rfl rfl rfl rfl rfl ?_
            rw [Goes, hp]
            exact .inr (.inl ⟨rfl, h0, h1, rfl, by omega, rfl⟩)
      · cases hb
  case h_3 hp =>
    cases hb
    simp only [decode, Except.ok.injEq, Prod.mk.injEq] at hd
    obtain ⟨rfl, -⟩ := hd
    simp only [unitRun, huffBitsRun]
    have hw : Appends (raises s.phase) s (walk (codeBits (s.fetchBytes .huffBits) s) (walkStart s)) := by
      rw [hp]
      exact (walk_appends _ _).of_update (Kept.refl s) rfl rfl rfl rfl rfl rfl rfl rfl rfl rfl rfl
    split
    · exact outcome_fail (by rw [hp]; decide)
    refine outcome_going hw fun t hk he h1 h2 h3 h4 h5 h6 h7 h8 h9 => ?_
    exact ⟨hk.trans (kept_finish t), he.trans hk.1 (Emits.none rfl rfl), .inr (.inl ⟨rfl, h2, rfl, rfl, by rw [hp]; decide⟩)⟩
  case h_4 hp =>
    cases hb
    rw [fetchBytes_stream (by decide)] at hd
    obtain ⟨v, rfl, hbs⟩ := decodeLz77Hdr_ok hd
    rw [hbs] at hlen
    simp at hlen
    simp only [unitRun, lz77HdrRun]
    split
    · exact outcome_raise (Kept.refl s) (Emits.none rfl rfl) (by rw [hp]; decide)
    · rename_i hc
      refine updating_outcome (Kept.refl s) rfl rfl rfl rfl rfl ?_
      rw [Goes, hp]
      exact ⟨rfl, rfl, by omega, by simpa using hc⟩
  case h_5 hp =>
    split at hb
    · cases hb
      rw [fetchBytes_stream (by decide)] at hd
      obtain ⟨b, rfl, hbs⟩ | ⟨d, l, nx, rfl, hbs⟩ := decodeLz77Tok_ok hd
      · rw [hbs] at hlen
        simp at hlen
        refine appending_outcome (f := fun t => { t with inPos := t.inPos + 2 }) (emit_appends b s (by rw [hp]; decide)) ?_ ?_
        · intro t h1 h2 h3 h4 h5
          rw [Goes, hp]
          exact ⟨h1.trans hp, h3, .inl (by rw [h2]), by dsimp only; omega⟩
        · exact fun t => ⟨Kept.refl t, rfl, rfl, rfl, rfl, rfl⟩
      · rw [hbs] at hlen
        simp at hlen
        refine mCopyRun_outcome (.inl hp) ?_ (Kept.refl s) rfl rfl rfl rfl rfl rfl rfl
        intro t h1 h2 h3
        rw [Goes, hp]
        exact ⟨h1, h2, .inr h3, by omega⟩
    · cases hb
  case h_6 hp =>
    split at hb
    · cases hb
      rw [fetchBytes_stream (by decide)] at hd
      have hmem : ErrKind.outputOverflow ∈ raises s.phase := by rw [hp]; decide
      have hkeep : ∀ k, ∀ t : State, Kept t { t with inPos := t.inPos + k } ∧ ({ t with inPos := t.inPos + k } : State).out = t.out ∧
          ({ t with inPos := t.inPos + k } : State).outPos = t.outPos ∧ ({ t with inPos := t.inPos + k } : State).status = t.status ∧
          ({ t with inPos := t.inPos + k } : State).err = t.err ∧ ({ t with inPos := t.inPos + k } : State).outLen = t.outLen :=
        fun k t => ⟨Kept.refl t, rfl, rfl, rfl, rfl, rfl⟩
      obtain ⟨b, rfl, hbe, hbs⟩ | ⟨rfl, hbs⟩ | ⟨c, b, rfl, hc, hbs⟩ := decodeRleRec_ok hd <;> rw [hbs] at hlen <;> simp at hlen
      · refine appending_outcome (f := fun t => { t with inPos := t.inPos + 1 }) (emit_appends b s hmem) ?_ (hkeep 1)
        intro t h1 h2 h3 h4 h5
        rw [Goes, hp]
        exact ⟨h1.trans hp, .inl (by rw [h2]), by dsimp only; omega⟩
      · refine appending_outcome (f := fun t => { t with inPos := t.inPos + 3 }) (emit_appends _ s hmem) ?_ (hkeep 3)
        intro t h1 h2 h3 h4 h5
        rw [Goes, hp]
        exact ⟨h1.trans hp, .inr (by rw [h2]), by dsimp only; omega⟩
      · refine appending_outcome (f := fun t => { t with inPos := t.inPos + 3 }) (emitAll_appends _ s hmem) ?_ (hkeep 3)
        intro t h1 h2 h3 h4 h5
        rw [Goes, hp]
        exact ⟨h1.trans hp, .inr (by rw [h2]), by dsimp only; omega⟩
    · cases hb
  case h_7 => cases hb

/-- A phase at which no unit stands. -/
theorem phase_outcome {s : State} (hb : s.boundary = none) : Outcome s (phaseRun s).state := by
  have hlen := length_unread s
  unfold State.boundary at hb
  unfold phaseRun
  split
  case h_1 hp => exact updating_outcome (Kept.refl s) rfl rfl rfl rfl rfl (by rw [Goes, hp]; exact ⟨rfl, rfl⟩)
  case h_2 hp => exact updating_outcome (Kept.refl s) rfl rfl rfl rfl rfl (by rw [Goes, hp]; exact ⟨rfl, rfl⟩)
  case h_3 hp => exact updating_outcome (Kept.refl s) rfl rfl rfl rfl rfl (by rw [Goes, hp]; exact ⟨rfl, rfl⟩)
  case h_4 hp =>
    refine appending_outcome (f := fun t => { t with phase := .hPack }) (emitAll_appends _ s (by rw [hp]; decide)) ?_
      fun t => ⟨Kept.refl t, rfl, rfl, rfl, rfl, rfl⟩
    intro t h1 h2 h3 h4 h5
    rw [Goes, hp]
    exact ⟨rfl, h2⟩
  case h_5 hp =>
    have hw : Appends (raises s.phase) s (packBytes s.data (packerStart s)) :=
      (packBytes_appends _ _ (by rw [hp]; decide)).of_update (Kept.refl s) rfl rfl rfl rfl rfl rfl rfl rfl rfl rfl rfl
    refine appending_outcome (f := fun t => { t with phase := .hFlush }) hw ?_ fun t => ⟨Kept.refl t, rfl, rfl, rfl, rfl, rfl⟩
    intro t h1 h2 h3 h4 h5
    rw [Goes, hp]
    exact ⟨rfl, h2⟩
  case h_6 hp =>
    unfold hFlushPhase
    split
    · refine outcome_going (emit_appends _ s (by rw [hp]; decide)) fun t hk he h1 h2 h3 h4 h5 h6 h7 h8 h9 => ?_
      exact ⟨hk.trans (Kept.refl t), he.trans hk.1 (Emits.none rfl rfl), .inr (.inl ⟨rfl, h2, rfl, rfl, by rw [hp]; decide⟩)⟩
    · exact outcome_finish (by rw [hp]; decide)
  case h_7 hp =>
    simp only [hp] at hb
    have h0 : s.inPos ≠ 0 := by
      intro h0
      rw [if_pos h0] at hb
      cases hb
    have h1 : s.huff.hdrLen ≤ s.inPos := by
      rw [if_neg h0] at hb
      by_contra hlt
      rw [if_pos (by omega)] at hb
      cases hb
    unfold dHeaderEnd
    split
    · exact outcome_fail (by rw [hp]; decide)
    · exact updating_outcome (Kept.refl s) rfl rfl rfl rfl rfl (by rw [Goes, hp]; exact .inr (.inr ⟨rfl, h0, h1, rfl⟩))
  case h_8 hp => exact updating_outcome (Kept.refl s) rfl rfl rfl rfl rfl (by rw [Goes, hp]; exact ⟨rfl, rfl⟩)
  case h_9 hp => exact updating_outcome (Kept.refl s) rfl rfl rfl rfl rfl (by rw [Goes, hp]; exact ⟨rfl, rfl⟩)
  case h_10 hp =>
    have hm : ErrKind.corruptHeader ∈ raises s.phase := by rw [hp]; decide
    unfold dCheckPhase
    split
    · exact outcome_fail hm
    · split
      · exact outcome_fail hm
      · split
        · exact outcome_fail (by rw [hp]; decide)
        · exact updating_outcome (Kept.refl s) rfl rfl rfl rfl rfl (by rw [Goes, hp]; exact ⟨rfl, rfl⟩)
  case h_11 hp =>
    refine appending_outcome (f := fun t => { t with phase := .lSearch }) (emitAll_appends _ s (by rw [hp]; decide)) ?_
      fun t => ⟨Kept.refl t, rfl, rfl, rfl, rfl, rfl⟩
    intro t h1 h2 h3 h4 h5
    rw [Goes, hp]
    exact ⟨rfl, h2⟩
  case h_12 hp =>
    unfold lSearchPhase
    split
    · rename_i hlt
      refine updating_outcome (Kept.refl s) rfl rfl rfl rfl rfl ?_
      rw [Goes, hp]
      refine ⟨rfl, hlt, rfl, ?_⟩
      have := scan_bestLen_le s.data s.params.lookahead s.inPos (min s.inPos s.params.window) 1 { s.lz with bestLen := 0 }
        (Nat.zero_le _)
      simp only [length_data] at this
      simp only [Run.state_going, search]
      omega
    · exact outcome_finish (by rw [hp]; decide)
  case h_13 hp =>
    have hm : ErrKind.outputOverflow ∈ raises s.phase := by rw [hp]; decide
    unfold lEmitPhase
    split
    · refine appending_outcome (f := fun t => { t with inPos := t.inPos + t.lz.bestLen + 1, phase := .lSearch })
        (emitAll_appends _ s hm) ?_ fun t => ⟨Kept.refl t, rfl, rfl, rfl, rfl, rfl⟩
      intro t h1 h2 h3 h4 h5
      rw [Goes, hp]
      exact ⟨rfl, .inl (by rw [h2, h4])⟩
    · refine appending_outcome (f := fun t => { t with inPos := t.inPos + 1, phase := .lSearch })
        (emitAll_appends _ s hm) ?_ fun t => ⟨Kept.refl t, rfl, rfl, rfl, rfl, rfl⟩
      intro t h1 h2 h3 h4 h5
      rw [Goes, hp]
      exact ⟨rfl, .inr (by rw [h2])⟩
  case h_14 hp => exact outcome_finish (by rw [hp]; decide)
  case h_15 hp =>
    refine mCopyRun_outcome (.inr hp) ?_ (Kept.refl s) rfl rfl rfl rfl rfl rfl rfl
    intro t h1 h2 h3
    rw [Goes, hp]
    exact ⟨h1, h2, h3⟩
  case h_16 hp =>
    unfold rRunPhase
    split
    · rename_i b rest hu
      rw [hu] at hlen
      simp at hlen
      have := leadingRun_le b rest (runCap - 1)
      refine updating_outcome (Kept.refl s) rfl rfl rfl rfl rfl ?_
      rw [Goes, hp]
      exact ⟨rfl, by omega, rfl, by simp only [Run.state_going]; omega, by simp only [Run.state_going]; omega⟩
    · exact outcome_finish (by rw [hp]; decide)
  case h_17 hp =>
    refine appending_outcome (f := fun t => { t with inPos := t.inPos + t.rle.runCnt, phase := .rRun })
      (emitAll_appends _ s (by rw [hp]; decide)) ?_ fun t => ⟨Kept.refl t, rfl, rfl, rfl, rfl, rfl⟩
    intro t h1 h2 h3 h4 h5
    rw [Goes, hp]
    exact ⟨rfl, by rw [h2, h5]⟩
  case h_18 hp => exact outcome_finish (by rw [hp]; decide)
  case h_19 hp => simp [hp] at hb
  case h_20 hp => simp [hp] at hb
  case h_21 hp => simp [hp] at hb
  case h_22 hp => exact updating_outcome (Kept.refl s) rfl rfl rfl rfl rfl (by rw [Goes, hp]; rfl)
  case h_23 hp => exact updating_outcome (Kept.refl s) rfl rfl rfl rfl rfl (by rw [Goes, hp]; rfl)

theorem rejects_raises {s : State} {c : Ctx} {e : ErrKind} (hb : s.boundary = some c) (h : e ∈ rejects c) :
    e ∈ raises s.phase := by
  unfold State.boundary at hb
  split at hb <;> (try split at hb) <;> (try split at hb) <;> simp at hb <;> subst hb <;> simp_all [rejects, raises]
  all_goals tauto

/-- What one engine step can do. -/
theorem engineStep_outcome (s : State) : Outcome s (engineStep s) := by
  cases hb : s.boundary with
  | none =>
    rw [engineStep_phase hb]
    exact phase_outcome hb
  | some c =>
    cases hd : decode c (s.fetchBytes c) with
    | error e =>
      rw [engineStep_reject hb hd]
      exact outcome_fail (rejects_raises hb (decode_rejects hd))
    | ok p =>
      rw [engineStep_unit hb hd]
      exact unit_outcome hb hd

end Sys2Proof.Machine
end

