-- ==== Sys2Proof/Laws/Progress.lean ====
section
/-! SUPPORT. Every command ends (40_codec_interface.md R146; 70_reset_and_hazards.md R368): a bound on the engine steps still to
come, which each step lowers; and what holds all along a run. -/

namespace Sys2Proof.Machine

/-- An upper bound on the engine steps a command can still take. -/
def remaining (s : State) : Nat :=
  let m := s.n - s.inPos
  match s.phase with
  | .idle => 2 * s.n + 300 + (if s.inPos = 0 then 0 else s.huff.hdrLen)
  | .hFreq => 6
  | .hBuild => 5
  | .hCodes => 4
  | .hHeader => 3
  | .hPack => 2
  | .hFlush => 1
  | .dHeader => if s.inPos = 0 then 262 else (s.huff.hdrLen - s.inPos + 4) / 5 + 5
  | .dBuild => 4
  | .dCodes => 3
  | .dCheck => 2
  | .dWalk => 1
  | .lHeader => 2 * s.n + 2
  | .lSearch => 2 * m + 1
  | .lEmit => max (2 * m) 2
  | .mHeader => s.n + 2
  | .mToken => m + 1
  | .mCopy => m + 2
  | .rRun => 2 * m + 1
  | .rEmit => if s.rle.runCnt = 0 then 2 * m + 2 else max (2 * m) 2
  | .sToken => m + 1
  | .endOk | .endErr => 0

/-- What holds along the run of a command: it has not ended where it is still `BUSY`, and once it has, it is done or in error. -/
def Running (s : State) : Prop :=
  match s.status with
  | .idle => False
  | .busy => s.err = none ∧ s.phase ≠ .endOk ∧ s.phase ≠ .endErr
  | .done => s.err = none ∧ s.outLen = BitVec.ofNat 32 s.outPos
  | .error => s.err ≠ none ∧ s.outLen = 0

theorem Goes.not_ended {s t : State} (h : Goes s t) (h1 : s.phase ≠ .endOk) (h2 : s.phase ≠ .endErr) :
    t.phase ≠ .endOk ∧ t.phase ≠ .endErr := by
  unfold Goes at h
  split at h
  case h_1 =>
    obtain ⟨-, -, -, i, -, hi⟩ := h
    rw [hi]
    cases i <;> exact ⟨by simp [firstPhase], by simp [firstPhase]⟩
  case h_7 => rcases h with h | h | h <;> rw [h.1] <;> exact ⟨by decide, by decide⟩
  case h_20 => exact h.elim
  case h_21 => exact h.elim
  case h_22 hp => exact absurd hp h1
  case h_23 hp => exact absurd hp h2
  all_goals rw [h.1]; exact ⟨by decide, by decide⟩

theorem running_step {s : State} (hb : s.status = .busy) (h : Running s) : Running (engineStep s) := by
  obtain ⟨hk, he, ⟨h1, h2, h3, h4⟩ | ⟨h1, h2, h3, h4, h5⟩ | ⟨e, hm, h1, h2, h3, h4⟩⟩ := engineStep_outcome s
  · simp only [Running, hb] at h
    simp only [Running, h1, hb]
    exact ⟨h2.trans h.1, h4.not_ended h.2.1 h.2.2⟩
  · simp only [Running, hb] at h
    simp only [Running, h1]
    exact ⟨h2.trans h.1, h3⟩
  · simp only [Running, h1]
    exact ⟨by rw [h2]; simp, h3⟩

theorem running_runEngine (k : Nat) {s : State} (h : Running s) : Running (runEngine k s) := by
  induction k generalizing s with
  | zero => exact h
  | succ k ih =>
    rw [runEngine]
    split
    · rename_i hb
      exact ih (running_step hb h)
    · exact h

theorem running_launch (c : Byte) (s : State) : Running (launch c s) := by
  simp [Running]

/-- Each step that goes on leaves fewer to come. -/
theorem Goes.remaining_lt {s t : State} (h : Goes s t) (hn : t.n = s.n) (h1 : s.phase ≠ .endOk) (h2 : s.phase ≠ .endErr) :
    remaining t < remaining s := by
  unfold Goes at h
  split at h
  case h_1 hp =>
    obtain ⟨h0, hi, hh, i, hd, ht⟩ := h
    have hc := decodeCmd_ctx hd
    simp only [remaining, ht, hp, hn, hi, hh]
    cases i <;> simp only [Instr.ctx, reduceCtorEq] at hc <;> simp only [firstPhase] <;> split <;> omega
  case h_7 hp =>
    rcases h with ⟨ht, h0, hi, hl, k, hk1, hk2, hk3⟩ | ⟨ht, h0, hi, hi2, hi3, hh⟩ | ⟨ht, h0, hi, hi2⟩ <;>
      simp only [remaining, ht, hp]
    · rw [if_neg (by omega), if_pos h0]
      omega
    · rw [if_neg (by omega), if_neg h0, hh]
      omega
    · rw [if_neg h0]
      omega
  case h_13 hp =>
    obtain ⟨ht, hi⟩ := h
    simp only [remaining, ht, hp, hn]
    omega
  case h_17 hp =>
    obtain ⟨ht, hi1, hi2, hi3, hi4⟩ := h
    simp only [remaining, ht, hp, hn]
    rw [if_neg (by omega)]
    omega
  case h_18 hp =>
    obtain ⟨ht, hi⟩ := h
    simp only [remaining, ht, hp, hn]
    split <;> omega
  case h_20 => exact h.elim
  case h_21 => exact h.elim
  case h_22 hp => exact absurd hp h1
  case h_23 hp => exact absurd hp h2
  all_goals
    rename_i hp
    obtain ⟨ht, hi⟩ := h
    simp only [remaining, ht, hp, hn]
    omega

/-- A run with enough fuel ends. -/
theorem runEngine_ends (k : Nat) {s : State} (h : Running s) (hk : remaining s ≤ k) (hpos : 0 < k ∨ s.status ≠ .busy) :
    (runEngine k s).status ≠ .busy := by
  induction k generalizing s with
  | zero =>
    exact hpos.resolve_left (by omega)
  | succ k ih =>
    by_cases hb : s.status = .busy
    · rw [runEngine_succ _ hb]
      have hr := running_step hb h
      obtain ⟨hkept, he, ⟨h1, h2, h3, h4⟩ | ⟨h1, h2, h3, h4, h5⟩ | ⟨e, hm, h1, h2, h3, h4⟩⟩ := engineStep_outcome s
      · simp only [Running, hb] at h
        have hlt := h4.remaining_lt hkept.2.2.2.2.1 h.2.1 h.2.2
        refine ih hr (by omega) (.inl ?_)
        have : 0 < remaining (engineStep s) := by
          have := h4.not_ended h.2.1 h.2.2
          unfold remaining
          split <;> (try split) <;> first | omega | simp_all
        omega
      · rw [runEngine_of_ended _ (by rw [h1]; decide), h1]
        decide
      · rw [runEngine_of_ended _ (by rw [h1]; decide), h1]
        decide
    · rw [runEngine_of_ended _ hb]
      exact hb

/-- A command that may be launched ends, done without an error or in error without an output. -/
theorem runCommand_ends (c : Byte) {s : State} (h : s.launchable) :
    ∃ t, runCommand c s = .next t ∧ Running t ∧ t.status ≠ .busy ∧
      t = runEngine (commandFuel s.inLen.toNat) (launch c s) := by
  refine ⟨_, runCommand_of_launchable h, running_runEngine _ (running_launch c s), ?_, rfl⟩
  exact runEngine_ends _ (running_launch c s) (Nat.le_refl _) (.inl (by unfold commandFuel; omega))

/-- A property of runs that every engine step keeps holds where the command ends. -/
theorem runEngine_induction {P : State → Prop} (hstep : ∀ s, s.status = .busy → P s → P (engineStep s)) (k : Nat) {s : State}
    (h : P s) : P (runEngine k s) := by
  induction k generalizing s with
  | zero => exact h
  | succ k ih =>
    rw [runEngine]
    split
    · rename_i hb
      exact ih (hstep s hb h)
    · exact h

/-! ## Where a command ends -/

/-- Engine steps lead from `s` to `t`, and there the command has ended. -/
def Ends (s t : State) : Prop := ∃ k, runEngine k s = t ∧ t.status ≠ .busy

theorem Ends.unique {s t u : State} (h : Ends s t) (h' : Ends s u) : t = u := by
  obtain ⟨j, hj, ht⟩ := h
  obtain ⟨k, hk, hu⟩ := h'
  rcases Nat.le_total j k with hle | hle
  · rw [← hk, runEngine_le hj ht hle]
  · rw [← hj, runEngine_le hk hu hle]

theorem Ends.here {s : State} (h : s.status ≠ .busy) : Ends s s := ⟨0, rfl, h⟩

theorem Ends.step {s t : State} (hb : s.status = .busy) (h : Ends (engineStep s) t) : Ends s t := by
  obtain ⟨k, hk, ht⟩ := h
  exact ⟨k + 1, by rw [runEngine_succ _ hb, hk], ht⟩

/-- A command on an input that is not empty ends where the run from its first phase does. -/
theorem exec_command_ends {i : Instr} {c : Byte} {s t : State} (he : encode i = [c]) (hi : i.ctx = .cmd) (h : s.launchable)
    (hn : s.inLen.toNat ≠ 0) (hr : Ends { launch c s with phase := firstPhase i } t) : exec i s = .next t := by
  obtain ⟨c', he', hd, hx⟩ := exec_command hi
  obtain rfl : c = c' := by simpa [he] using he'
  obtain ⟨u, hu, -, hb, hut⟩ := runCommand_ends c h
  rw [hx, hu]
  have h1 : Ends (launch c s) u := ⟨_, hut.symm, hb⟩
  have h2 : Ends (launch c s) t := by
    refine Ends.step rfl ?_
    rw [engineStep_launch s hd, startRun_nonempty hn]
    exact hr
  rw [h1.unique h2]

/-! ## The phases of one command -/

/-- The command a phase belongs to (R29). -/
def owner : Phase → Option Instr
  | .hFreq | .hBuild | .hCodes | .hHeader | .hPack | .hFlush => some .huffCompress
  | .dHeader | .dBuild | .dCodes | .dCheck | .dWalk => some .huffDecompress
  | .lHeader | .lSearch | .lEmit => some .lz77Compress
  | .mHeader | .mToken | .mCopy => some .lz77Decompress
  | .rRun | .rEmit => some .rleCompress
  | .sToken => some .rleDecompress
  | .idle | .endOk | .endErr => none

theorem Goes.owner_eq {s t : State} {i : Instr} (h : Goes s t) (ho : owner s.phase = some i) : owner t.phase = some i := by
  unfold Goes at h
  split at h
  case h_1 hp => rw [hp] at ho; cases ho
  case h_7 hp => rw [hp] at ho; rcases h with h | h | h <;> rw [h.1] <;> exact ho
  case h_20 => exact h.elim
  case h_21 => exact h.elim
  case h_22 hp => rw [hp] at ho; cases ho
  case h_23 hp => rw [hp] at ho; cases ho
  all_goals
    rename_i hp
    rw [hp] at ho
    rw [h.1]
    exact ho

/-- The kinds a phase raises are among those of its command (R320). -/
theorem raises_possible {ph : Phase} {i : Instr} {e : ErrKind} (ho : owner ph = some i) (he : e ∈ raises ph) :
    e ∈ possibleErrors (some i) := by
  cases ph <;> simp [owner] at ho <;> subst ho <;> revert he <;> simp [raises, possibleErrors] <;> tauto

/-- Along the run of command `i`: it is in one of its phases, or has ended with one of its kinds. -/
def RunsCommand (i : Instr) (s : State) : Prop :=
  (s.status = .busy → owner s.phase = some i) ∧ ∀ e, s.err = some e → e ∈ possibleErrors (some i)

theorem runsCommand_step {i : Instr} {s : State} (hb : s.status = .busy) (h : RunsCommand i s) :
    RunsCommand i (engineStep s) := by
  obtain ⟨ho, he⟩ := h
  have ho := ho hb
  obtain ⟨-, -, ⟨h1, h2, h3, h4⟩ | ⟨h1, h2, h3, h4, h5⟩ | ⟨e, hm, h1, h2, h3, h4⟩⟩ := engineStep_outcome s
  · exact ⟨fun _ => h4.owner_eq ho, fun e hx => he e (h2 ▸ hx)⟩
  · exact ⟨fun hx => absurd (h1 ▸ hx) (by decide), fun e hx => he e (h2 ▸ hx)⟩
  · refine ⟨fun hx => absurd (h1 ▸ hx) (by decide), fun e' hx => ?_⟩
    rw [h2] at hx
    cases hx
    exact raises_possible ho hm

end Sys2Proof.Machine
end

