-- ==== Sys2Proof/Laws/StepCases.lean ====
section
/-! SUPPORT. What one step of the machine can do, the host's accesses included (70_reset_and_hazards.md R354 to R359), said once. -/

namespace Sys2Proof.Machine

/-- The command a command word names runs as that word. -/
theorem exec_of_decodeCmd {c : Byte} {i : Instr} (h : decodeCmd c = some i) (s : State) : exec i s = runCommand c s := by
  obtain ⟨c', -, h', hx⟩ := exec_command (decodeCmd_ctx h)
  have hne : c ∈ ([0x00, 0x01, 0x02, 0x04, 0x05, 0x06] : List Byte) := by
    by_contra hn
    rw [decodeCmd_none hn] at h
    cases h
  have hne' : c' ∈ ([0x00, 0x01, 0x02, 0x04, 0x05, 0x06] : List Byte) := by
    by_contra hn
    rw [decodeCmd_none hn] at h'
    cases h'
  have inj : ∀ a ∈ ([0x00, 0x01, 0x02, 0x04, 0x05, 0x06] : List Byte), ∀ b ∈ ([0x00, 0x01, 0x02, 0x04, 0x05, 0x06] : List Byte),
      decodeCmd a = decodeCmd b → a = b := by decide
  obtain rfl : c = c' := inj c hne c' hne' (h.trans h'.symm)
  exact hx s

/-- A write of `CMD`, at either level (R132, R359). -/
theorem hostWriteCmd_next {c : Byte} {s t : State} (h : hostWriteCmd exec c s = .next t) :
    (s.status = .busy ∧ t = s) ∨
    (s.launchable ∧ (t = launch c s ∨ t = runEngine (commandFuel s.inLen.toNat) (launch c s))) := by
  unfold hostWriteCmd at h
  by_cases hb : s.status = .busy
  · rw [if_pos hb] at h
    cases h
    exact .inl ⟨hb, rfl⟩
  · rw [if_neg hb] at h
    by_cases hl : s.params.inCap < s.inLen.toNat
    · have hr : runCommand c s = .refused .inLenExceedsInCap := by rw [runCommand, if_neg hb, if_pos hl]
      split at h
      · cases h
      · cases hd : decodeCmd c with
        | none =>
          rw [decode_command_error hd] at h
          simp only [hr] at h
          cases h
        | some i =>
          rw [decode_command_ok hd] at h
          simp only [exec_of_decodeCmd hd, hr] at h
          cases h
    · have hla : s.launchable := ⟨hb, Nat.not_lt.1 hl⟩
      have hr := runCommand_of_launchable (c := c) hla
      refine .inr ⟨hla, ?_⟩
      split at h
      · cases h
        exact .inl rfl
      · cases hd : decodeCmd c with
        | none =>
          rw [decode_command_error hd] at h
          simp only [hr] at h
          cases h
          exact .inr rfl
        | some i =>
          rw [decode_command_ok hd] at h
          simp only [exec_of_decodeCmd hd, hr] at h
          cases h
          exact .inr rfl

/-! ## Register accesses by number -/

@[simp] theorem hostAct_writeCmd (ex : Instr → State → Host.Outcome State Fault Refusal) (c : Byte) (s : State) :
    hostAct ex (.writeCmd c) s = hostWriteCmd ex c s := by
  have : (c.setWidth 32).setWidth 8 = c := by
    rw [BitVec.setWidth_setWidth_of_le _ (by omega), BitVec.setWidth_eq]
  simp only [hostAct, regOfNumber, hostWriteReg, this]

@[simp] theorem hostAct_writeInLen (ex : Instr → State → Host.Outcome State Fault Refusal) (v : Word) (s : State) :
    hostAct ex (.writeInLen v) s = .next (hostWriteInLen v s) := rfl

/-- What the host's accesses change. -/
theorem hostAct_next {op : HostOp} {s t : State} (h : hostAct exec op s = .next t) :
    t = s ∨
    (∃ c, s.launchable ∧ (t = launch c s ∨ t = runEngine (commandFuel s.inLen.toNat) (launch c s))) ∨
    (∃ v f b, t = { s with inLen := v, fresh := f, tainted := b }) ∨
    (∃ a v f b, t = { s with inp := s.inp.write a v, fresh := f, tainted := b }) ∨
    (∃ v f, t = { s with hostData := v, fresh := f }) ∨
    t = rst s ∨ t = powerUp s := by
  cases op with
  | writeReg n v =>
    simp only [hostAct] at h
    split at h
    · rename_i r _
      cases r
      case cmd =>
        rcases hostWriteCmd_next h with ⟨-, h⟩ | h
        · exact .inl h
        · exact .inr (.inl ⟨_, h⟩)
      case inLen =>
        cases h
        unfold hostWriteInLen
        split <;> exact .inr (.inr (.inl ⟨_, _, _, rfl⟩))
      all_goals
        cases h
        exact .inl rfl
    · cases h
  | writeIn a b =>
    simp only [hostAct] at h
    split at h
    · cases h
    · split at h <;> cases h <;> exact .inr (.inr (.inr (.inl ⟨_, _, _, _, rfl⟩)))
  | writeOut a b =>
    simp only [hostAct] at h
    split at h <;> cases h
    exact .inl rfl
  | readReg n =>
    simp only [hostAct] at h
    split at h <;> cases h
    unfold hostReadReg
    split <;> exact .inr (.inr (.inr (.inr (.inl ⟨_, _, rfl⟩))))
  | readIn a =>
    simp only [hostAct] at h
    split at h <;> cases h
    exact .inr (.inr (.inr (.inr (.inl ⟨_, _, rfl⟩))))
  | readOut a =>
    simp only [hostAct] at h
    split at h
    · cases h
    · split at h <;> cases h <;> exact .inr (.inr (.inr (.inr (.inl ⟨_, _, rfl⟩))))
  | readDone =>
    cases h
    exact .inr (.inr (.inr (.inr (.inl ⟨_, _, rfl⟩))))
  | reset =>
    cases h
    exact .inr (.inr (.inr (.inr (.inr (.inl rfl)))))
  | powerUp =>
    cases h
    exact .inr (.inr (.inr (.inr (.inr (.inr rfl)))))

/-- The engine's turn. -/
theorem engineTurn_next {s t : State} (h : engineTurn exec s = .next t) :
    (s.tainted = true ∧ t = freeCompletion s) ∨ (s.tainted = false ∧ s.n ≤ s.params.inCap ∧ t = engineStep s) := by
  unfold engineTurn at h
  cases ht : s.tainted with
  | true =>
    rw [if_pos ht] at h
    cases h
    exact .inl ⟨rfl, rfl⟩
  | false =>
    rw [if_neg (by rw [ht]; decide)] at h
    by_cases hn : s.params.inCap < s.n
    · rw [if_pos hn] at h
      cases h
    · rw [if_neg hn] at h
      refine .inr ⟨rfl, Nat.not_lt.1 hn, ?_⟩
      cases hb : s.boundary with
      | none =>
        rw [hb] at h
        rw [engineStep_phase hb]
        cases h
        rfl
      | some c =>
        rw [hb] at h
        simp only at h
        cases hd : decode c (s.fetchBytes c) with
        | error e =>
          rw [engineStep_reject hb hd]
          rw [hd] at h
          cases h
          rfl
        | ok p =>
          obtain ⟨i, rest⟩ := p
          rw [engineStep_unit hb hd]
          rw [hd] at h
          simp only at h
          have hi := decode_place hd
          by_cases hc : c = .cmd
          · rw [if_pos hc] at h
            rw [unitRun_command (hi.trans hc)]
            cases h
            rfl
          · rw [if_neg hc, exec_unit (fun h => hc (hi.symm.trans h))] at h
            cases h
            rfl

/-- What one step can do. -/
theorem step_next {s t : State} (h : step s = .next t) :
    (∃ r rest, s.host = r :: rest ∧ (r.early = true ∨ s.status ≠ .busy) ∧
      hostAct exec r.op { s with host := rest } = .next t) ∨
    (s.status = .busy ∧ s.tainted = true ∧ t = freeCompletion s) ∨
    (s.status = .busy ∧ s.tainted = false ∧ s.n ≤ s.params.inCap ∧ t = engineStep s) ∨
    (s.status ≠ .busy ∧ s.host = [] ∧ t = s) := by
  have engine : s.status = .busy → engineTurn exec s = .next t →
      (s.status = .busy ∧ s.tainted = true ∧ t = freeCompletion s) ∨
      (s.status = .busy ∧ s.tainted = false ∧ s.n ≤ s.params.inCap ∧ t = engineStep s) := by
    intro hb he
    rcases engineTurn_next he with ⟨h1, h2⟩ | ⟨h1, h2, h3⟩
    · exact .inl ⟨hb, h1, h2⟩
    · exact .inr ⟨hb, h1, h2, h3⟩
  simp only [step, turn] at h
  cases hh : s.host with
  | nil =>
    rw [hh] at h
    simp only at h
    by_cases hb : s.status = .busy
    · rw [if_pos hb] at h
      rcases engine hb h with h | h
      · exact .inr (.inl h)
      · exact .inr (.inr (.inl h))
    · rw [if_neg hb] at h
      cases h
      exact .inr (.inr (.inr ⟨hb, rfl, rfl⟩))
  | cons r rest =>
    rw [hh] at h
    simp only at h
    by_cases hr : r.early = true ∨ s.status ≠ .busy
    · rw [if_pos hr] at h
      exact .inl ⟨r, rest, rfl, hr, h⟩
    · rw [if_neg hr] at h
      rcases engine (by_contra fun hb => hr (.inr hb)) h with h | h
      · exact .inr (.inl h)
      · exact .inr (.inr (.inl h))

/-- A completion the host has made unspecified is one of the command's (R357). -/
theorem freeCompletion_cases (s : State) :
    (∃ e ∈ possibleErrors (decodeCmd s.cmd), freeCompletion s = { raise e s with fresh := s.fresh + 2, tainted := false }) ∨
    ((decodeCmd s.cmd).isSome = true ∧ ∃ k, k ≤ s.params.outCap ∧
      freeCompletion s = { finish { s with outPos := k, out := [] } with fresh := s.fresh + 2, tainted := false }) := by
  unfold freeCompletion
  dsimp only
  split
  · rename_i e he
    refine .inl ⟨e, ?_, rfl⟩
    obtain ⟨o, ho, rfl⟩ : ∃ o, (if (decodeCmd s.cmd).isSome then none :: (possibleErrors (decodeCmd s.cmd)).map some
        else (possibleErrors (decodeCmd s.cmd)).map some)[Config.freeNat s.fresh %
          (if (decodeCmd s.cmd).isSome then none :: (possibleErrors (decodeCmd s.cmd)).map some
            else (possibleErrors (decodeCmd s.cmd)).map some).length]? = some o ∧ o = some e := by
      revert he
      cases (if (decodeCmd s.cmd).isSome then none :: (possibleErrors (decodeCmd s.cmd)).map some
        else (possibleErrors (decodeCmd s.cmd)).map some)[Config.freeNat s.fresh %
          (if (decodeCmd s.cmd).isSome then none :: (possibleErrors (decodeCmd s.cmd)).map some
            else (possibleErrors (decodeCmd s.cmd)).map some).length]? with
      | none => simp
      | some o => simp
    have hm := List.mem_of_getElem? ho
    split at hm <;> simpa using hm
  · rename_i he
    by_cases hd : (decodeCmd s.cmd).isSome = true
    · exact .inr ⟨hd, _, Nat.le_of_lt_succ (Nat.mod_lt _ (Nat.succ_pos _)), rfl⟩
    · exfalso
      simp only [hd] at he
      have : decodeCmd s.cmd = none := by simpa using hd
      rw [this] at he
      simp [possibleErrors] at he
      have := Nat.mod_one (Config.freeNat s.fresh)
      simp [this] at he

end Sys2Proof.Machine
end

