-- ==== Sys2Proof/Laws/Same.lean ====
section
/-! SUPPORT. What a command's run depends on: two states that agree on the command's own state and on `IN[0 .. N-1]` go on
agreeing, whatever else differs (20_memory.md R67, 40_codec_interface.md R135). -/

namespace Sys2Proof.Machine

/-- The two states agree on all that the engine reads; below `OUT_POS` every byte of `OUT` has been written. -/
structure Same (s t : State) : Prop where
  params : t.params = s.params
  cmd    : t.cmd = s.cmd
  status : t.status = s.status
  err    : t.err = s.err
  data   : t.data = s.data
  n      : t.n = s.n
  out    : t.out = s.out
  phase  : t.phase = s.phase
  inPos  : t.inPos = s.inPos
  outPos : t.outPos = s.outPos
  huff   : t.huff = s.huff
  lz     : t.lz = s.lz
  rle    : t.rle = s.rle
  outLen : s.status ≠ .busy → t.outLen = s.outLen
  written : ∀ a < s.outPos, (s.out.read a).isSome = true

/-- Two rules stand at the same place, in states that agree. -/
def RunSame : Run → Run → Prop
  | .going s, .going t => Same s t
  | .ended s, .ended t => Same s t
  | _, _ => False

theorem RunSame.state {r r' : Run} (h : RunSame r r') : Same r.state r'.state := by
  cases r <;> cases r' <;> first | exact h | exact h.elim

theorem RunSame.andThen {r r' : Run} {f g : State → Run} (h : RunSame r r') (hf : ∀ s t, Same s t → RunSame (f s) (g t)) :
    RunSame (r.andThen f) (r'.andThen g) := by
  cases r <;> cases r' <;> first | exact hf _ _ h | exact h | exact h.elim

/-! ## Updates -/

section
variable {s t : State}

/-- The equalities, for `simp`. -/
theorem Same.eqs (h : Same s t) : t.params = s.params ∧ t.cmd = s.cmd ∧ t.status = s.status ∧ t.err = s.err ∧ t.n = s.n ∧
    t.out = s.out ∧ t.phase = s.phase ∧ t.inPos = s.inPos ∧ t.outPos = s.outPos ∧ t.huff = s.huff ∧ t.lz = s.lz ∧
    t.rle = s.rle :=
  ⟨h.params, h.cmd, h.status, h.err, h.n, h.out, h.phase, h.inPos, h.outPos, h.huff, h.lz, h.rle⟩

/-- Registers updated alike. -/
theorem Same.update (h : Same s t) {s' t' : State} (hs : s'.inp = s.inp ∧ s'.n = s.n ∧ s'.out = s.out ∧ s'.outPos = s.outPos ∧
      s'.status = s.status ∧ s'.outLen = s.outLen) (ht : t'.inp = t.inp ∧ t'.outLen = t.outLen)
    (hst : t'.params = s'.params ∧ t'.cmd = s'.cmd ∧ t'.status = s'.status ∧ t'.err = s'.err ∧ t'.n = s'.n ∧ t'.out = s'.out ∧
      t'.phase = s'.phase ∧ t'.inPos = s'.inPos ∧ t'.outPos = s'.outPos ∧ t'.huff = s'.huff ∧ t'.lz = s'.lz ∧
      t'.rle = s'.rle) : Same s' t' := by
  obtain ⟨h1, h2, h3, h4, h5, h6⟩ := hs
  obtain ⟨k1, k2⟩ := ht
  obtain ⟨g1, g2, g3, g4, g5, g6, g7, g8, g9, g10, g11, g12⟩ := hst
  refine ⟨g1, g2, g3, g4, ?_, g5, g6, g7, g8, g9, g10, g11, g12, ?_, ?_⟩
  · have hd := h.data
    have hin : ∀ a, t'.inByte a = t.inByte a := fun a => by simp only [State.inByte, k1]
    have hin' : ∀ a, s'.inByte a = s.inByte a := fun a => by simp only [State.inByte, h1]
    simp only [State.data, g5, h2, h.n] at hd ⊢
    rw [show t'.inByte = t.inByte from funext hin, show s'.inByte = s.inByte from funext hin', hd]
  · rw [h5, h6, k2]
    exact h.outLen
  · rw [h3, h4]
    exact h.written

theorem Same.raise (h : Same s t) (e : ErrKind) : Same (Machine.raise e s) (Machine.raise e t) :=
  { h with err := rfl, status := rfl, phase := rfl, data := h.data, outLen := fun _ => rfl }

theorem Same.finish (h : Same s t) : Same (Machine.finish s) (Machine.finish t) :=
  { h with status := rfl, phase := rfl, data := h.data, outLen := fun _ => by simp [h.outPos] }

theorem Same.fail (h : Same s t) (e : ErrKind) : RunSame (Machine.fail e s) (Machine.fail e t) := h.raise e

theorem Same.putByte (h : Same s t) (b : Byte) : Same (Machine.putByte b s) (Machine.putByte b t) :=
  { h with
    out := by simp [h.out, h.outPos]
    outPos := by simp [h.outPos]
    data := h.data
    written := by
      intro a ha
      simp only [putByte_out, putByte_outPos, Memory.read_write] at ha ⊢
      split
      · rfl
      · exact h.written a (by omega) }

theorem Same.emit (h : Same s t) (b : Byte) : RunSame (Machine.emit b s) (Machine.emit b t) := by
  unfold Machine.emit
  rw [h.params, h.outPos]
  split
  · exact h.raise _
  · exact h.putByte b

theorem Same.emitAll (bs : List Byte) : ∀ {s t : State}, Same s t → RunSame (Machine.emitAll bs s) (Machine.emitAll bs t) := by
  induction bs with
  | nil => exact fun h => h
  | cons b bs ih => exact fun h => (h.emit b).andThen fun _ _ h => ih h

/-- A byte of `OUT` below `OUT_POS` reads the same in both. -/
theorem Same.outByte (h : Same s t) {a : Nat} (ha : a < s.outPos) : t.outByte a = s.outByte a := by
  simp only [State.outByte, h.out]
  obtain ⟨v, hv⟩ := Option.isSome_iff_exists.1 (h.written a ha)
  rw [hv]
  rfl

theorem Same.unread (h : Same s t) : t.unread = s.unread := by simp only [State.unread, h.data, h.inPos]

end

/-- Once the command has ended, the states differ in the host's side and the input side only. -/
theorem Same.eq_update {u v : State} (h : Same u v) (hb : u.status ≠ .busy) :
    v = { u with
      inp := v.inp, inLen := v.inLen, host := v.host, hostData := v.hostData, stepwise := v.stepwise, tainted := v.tainted
      fresh := v.fresh } := by
  obtain ⟨c1, c2, c3, c4, c5, c6, c7, c8, c9, c10, c11, c12⟩ := h.eqs
  have c13 := h.outLen hb
  cases u
  cases v
  simp only [State.mk.injEq]
  exact ⟨c1, c2, c3, c4, trivial, c13, trivial, c6, c7, c5, c8, c9, c10, c11, c12, trivial, trivial, trivial, trivial, trivial⟩

/-! ## The rules -/

theorem pushBit_same {s t : State} (h : Same s t) (bit : Bool) : RunSame (pushBit bit s) (pushBit bit t) := by
  unfold pushBit
  dsimp only
  rw [h.huff]
  split
  · refine RunSame.andThen (Same.emit ?_ _) fun s t h => ?_
    · exact h.update ⟨rfl, rfl, rfl, rfl, rfl, rfl⟩ ⟨rfl, rfl⟩ (by simp [h.eqs])
    simp only [h.huff]
    exact h.update ⟨rfl, rfl, rfl, rfl, rfl, rfl⟩ ⟨rfl, rfl⟩ (by simp [h.eqs])
  · exact h.update ⟨rfl, rfl, rfl, rfl, rfl, rfl⟩ ⟨rfl, rfl⟩ (by simp [h.eqs])

theorem pushBits_same (bits : List Bool) : ∀ {s t : State}, Same s t → RunSame (pushBits bits s) (pushBits bits t) := by
  induction bits with
  | nil => exact fun h => h
  | cons b bs ih => exact fun h => (pushBit_same h b).andThen fun _ _ h => ih h

theorem packBytes_same (bs : List Byte) : ∀ {s t : State}, Same s t → RunSame (packBytes bs s) (packBytes bs t) := by
  induction bs with
  | nil => exact fun h => h
  | cons b bs ih =>
    intro s t h
    unfold packBytes
    rw [h.huff]
    exact (pushBits_same _ h).andThen fun _ _ h => ih h

theorem walkBit_same {s t : State} (h : Same s t) (bit : Bool) : RunSame (walkBit bit s) (walkBit bit t) := by
  unfold walkBit
  dsimp only
  rw [h.huff]
  split
  · split
    · refine RunSame.andThen (Same.emit ?_ _) fun s t h => ?_
      · exact h.update ⟨rfl, rfl, rfl, rfl, rfl, rfl⟩ ⟨rfl, rfl⟩ (by simp [h.eqs])
      simp only [h.huff]
      exact h.update ⟨rfl, rfl, rfl, rfl, rfl, rfl⟩ ⟨rfl, rfl⟩ (by simp [h.eqs])
    · exact h.update ⟨rfl, rfl, rfl, rfl, rfl, rfl⟩ ⟨rfl, rfl⟩ (by simp [h.eqs])
  · exact h.update ⟨rfl, rfl, rfl, rfl, rfl, rfl⟩ ⟨rfl, rfl⟩ (by simp [h.eqs])

theorem walkBitSingle_same {s t : State} (h : Same s t) : RunSame (walkBitSingle s) (walkBitSingle t) := by
  unfold walkBitSingle
  dsimp only
  rw [h.huff]
  split
  · refine Same.emit ?_ _
    exact h.update ⟨rfl, rfl, rfl, rfl, rfl, rfl⟩ ⟨rfl, rfl⟩ (by simp [h.eqs])
  · exact h.update ⟨rfl, rfl, rfl, rfl, rfl, rfl⟩ ⟨rfl, rfl⟩ (by simp [h.eqs])

theorem walk_same (bits : List Bool) : ∀ {s t : State}, Same s t → RunSame (walk bits s) (walk bits t) := by
  induction bits with
  | nil =>
    intro s t h
    unfold walk
    rw [h.huff, h.outPos]
    split
    · exact h.fail _
    · exact h
  | cons b bs ih =>
    intro s t h
    unfold walk
    rw [h.huff, h.outPos]
    split
    · refine RunSame.andThen ?_ fun _ _ h => ih h
      split
      · exact walkBitSingle_same h
      · exact walkBit_same h b
    · exact h

theorem copyLoop_same (k : Nat) : ∀ {s t : State}, Same s t → 0 < s.lz.tDist → s.lz.tDist ≤ s.outPos →
    RunSame (copyLoop k s) (copyLoop k t) := by
  induction k with
  | zero => exact fun h _ _ => h
  | succ k ih =>
    intro s t h h1 h2
    unfold copyLoop
    rw [h.lz, h.outPos, h.outByte (a := s.outPos - s.lz.tDist) (by omega)]
    by_cases hc : s.params.outCap ≤ s.outPos
    · rw [emit_full hc, emit_full (by rw [h.params, h.outPos]; exact hc)]
      exact h.raise _
    · rw [emit_ok (by omega), emit_ok (by rw [h.params, h.outPos]; omega)]
      simp only [Run.going_andThen]
      refine ih ?_ h1 (by simp; omega)
      simp only [putByte_lz, h.lz]
      have h' := h.putByte (s.outByte (s.outPos - s.lz.tDist))
      exact h'.update ⟨rfl, rfl, rfl, rfl, rfl, rfl⟩ ⟨rfl, rfl⟩ (by simp [h.eqs])

theorem mCopyRun_same {s t : State} (h : Same s t) : RunSame (mCopyRun s) (mCopyRun t) := by
  unfold mCopyRun
  rw [h.lz, h.outPos]
  split
  · exact h.fail _
  · rename_i hd
    split
    · exact h.fail _
    · refine (copyLoop_same _ h (by omega) (by omega)).andThen fun s t h => RunSame.andThen ?_ fun s t h => ?_
      · rw [h.lz, h.outPos]
        split
        · exact h.emit _
        · exact h
      · rw [h.inPos]
        exact h.update ⟨rfl, rfl, rfl, rfl, rfl, rfl⟩ ⟨rfl, rfl⟩ (by simp [h.eqs])

theorem unitRun_same (i : Instr) {s t : State} (h : Same s t) : RunSame (unitRun i s) (unitRun i t) := by
  have hstart : ∀ i, RunSame (startRun i s) (startRun i t) := by
    intro i
    unfold startRun
    rw [h.n]
    split
    · exact h.finish
    · exact h.update ⟨rfl, rfl, rfl, rfl, rfl, rfl⟩ ⟨rfl, rfl⟩ (by simp [h.eqs])
  have advance : ∀ k (s t : State), Same s t →
      RunSame (.going { s with inPos := s.inPos + k }) (.going { t with inPos := t.inPos + k }) := by
    intro k s t h
    rw [h.inPos]
    exact h.update ⟨rfl, rfl, rfl, rfl, rfl, rfl⟩ ⟨rfl, rfl⟩ (by simp [h.eqs])
  cases i with
  | huffCompress => exact hstart _
  | lz77Compress => exact hstart _
  | rleCompress => exact hstart _
  | huffDecompress => exact hstart _
  | lz77Decompress => exact hstart _
  | rleDecompress => exact hstart _
  | lz77Hdr v =>
    simp only [unitRun, lz77HdrRun]
    rw [h.params, h.lz]
    split
    · refine Same.raise ?_ _
      exact h.update ⟨rfl, rfl, rfl, rfl, rfl, rfl⟩ ⟨rfl, rfl⟩ (by simp [h.eqs])
    · exact h.update ⟨rfl, rfl, rfl, rfl, rfl, rfl⟩ ⟨rfl, rfl⟩ (by simp [h.eqs])
  | lz77Lit b => exact (h.emit b).andThen (advance 2)
  | lz77Match d l nx =>
    simp only [unitRun, lz77MatchRun]
    rw [h.lz]
    refine mCopyRun_same ?_
    exact h.update ⟨rfl, rfl, rfl, rfl, rfl, rfl⟩ ⟨rfl, rfl⟩ (by simp [h.eqs])
  | huffHdr o p k =>
    simp only [unitRun, huffHdrRun]
    rw [h.huff, h.n]
    split
    · refine Same.raise ?_ _
      exact h.update ⟨rfl, rfl, rfl, rfl, rfl, rfl⟩ ⟨rfl, rfl⟩ (by simp [h.eqs])
    · split
      · refine Same.raise ?_ _
        exact h.update ⟨rfl, rfl, rfl, rfl, rfl, rfl⟩ ⟨rfl, rfl⟩ (by simp [h.eqs])
      · exact h.update ⟨rfl, rfl, rfl, rfl, rfl, rfl⟩ ⟨rfl, rfl⟩ (by simp only [h.eqs, eq_self, and_self])
  | huffSym b f =>
    simp only [unitRun, huffSymRun]
    rw [h.huff, h.inPos]
    split
    · exact h.fail _
    · split
      · exact h.fail _
      · exact h.update ⟨rfl, rfl, rfl, rfl, rfl, rfl⟩ ⟨rfl, rfl⟩ (by simp [h.eqs])
  | huffBits p =>
    simp only [unitRun, huffBitsRun, codeBits]
    rw [h.huff]
    split
    · exact h.fail _
    refine RunSame.andThen (walk_same _ ?_) fun s t h => h.finish
    simp only [walkStart]
    rw [h.huff]
    exact h.update ⟨rfl, rfl, rfl, rfl, rfl, rfl⟩ ⟨rfl, rfl⟩ (by simp [h.eqs])
  | rleRaw b => exact (h.emit b).andThen (advance 1)
  | rleEsclit => exact (h.emit _).andThen (advance 3)
  | rleRun c b => exact (Same.emitAll _ h).andThen (advance 3)

theorem phaseRun_same {s t : State} (h : Same s t) : RunSame (phaseRun s) (phaseRun t) := by
  have phase : ∀ p (s t : State), Same s t → RunSame (.going { s with phase := p }) (.going { t with phase := p }) :=
    fun p s t h => h.update ⟨rfl, rfl, rfl, rfl, rfl, rfl⟩ ⟨rfl, rfl⟩ (by simp [h.eqs])
  unfold phaseRun
  rw [h.phase]
  split
  case h_1 =>
    simp only [hFreqPhase, h.huff, h.data]
    exact h.update ⟨rfl, rfl, rfl, rfl, rfl, rfl⟩ ⟨rfl, rfl⟩ (by simp [h.eqs])
  case h_2 =>
    simp only [hBuildPhase, h.huff]
    exact h.update ⟨rfl, rfl, rfl, rfl, rfl, rfl⟩ ⟨rfl, rfl⟩ (by simp [h.eqs])
  case h_3 =>
    simp only [hCodesPhase, h.huff]
    exact h.update ⟨rfl, rfl, rfl, rfl, rfl, rfl⟩ ⟨rfl, rfl⟩ (by simp [h.eqs])
  case h_4 =>
    simp only [hHeaderPhase, huffHeader, h.huff, h.n]
    exact (Same.emitAll _ h).andThen (phase _)
  case h_5 =>
    simp only [hPackPhase, packerStart, h.huff, h.data]
    refine RunSame.andThen (packBytes_same _ ?_) (phase _)
    exact h.update ⟨rfl, rfl, rfl, rfl, rfl, rfl⟩ ⟨rfl, rfl⟩ (by simp [h.eqs])
  case h_6 =>
    simp only [hFlushPhase]
    rw [h.huff]
    split
    · refine (h.emit _).andThen fun s t h => ?_
      rw [h.huff]
      refine Same.finish ?_
      exact h.update ⟨rfl, rfl, rfl, rfl, rfl, rfl⟩ ⟨rfl, rfl⟩ (by simp [h.eqs])
    · exact h.finish
  case h_7 =>
    simp only [dHeaderEnd]
    rw [h.huff]
    split
    · exact h.fail _
    · exact h.update ⟨rfl, rfl, rfl, rfl, rfl, rfl⟩ ⟨rfl, rfl⟩ (by simp [h.eqs])
  case h_8 =>
    simp only [dBuildPhase, h.huff]
    exact h.update ⟨rfl, rfl, rfl, rfl, rfl, rfl⟩ ⟨rfl, rfl⟩ (by simp [h.eqs])
  case h_9 =>
    simp only [dCodesPhase, h.huff]
    exact h.update ⟨rfl, rfl, rfl, rfl, rfl, rfl⟩ ⟨rfl, rfl⟩ (by simp [h.eqs])
  case h_10 =>
    simp only [dCheckPhase]
    rw [h.huff, h.n, h.params]
    split
    · exact h.fail _
    · split
      · exact h.fail _
      · split
        · exact h.fail _
        · exact h.update ⟨rfl, rfl, rfl, rfl, rfl, rfl⟩ ⟨rfl, rfl⟩ (by simp [h.eqs])
  case h_11 =>
    simp only [lHeaderPhase, h.n]
    exact (Same.emitAll _ h).andThen (phase _)
  case h_12 =>
    simp only [lSearchPhase]
    rw [h.inPos, h.n, h.data, h.params, h.lz]
    split
    · exact h.update ⟨rfl, rfl, rfl, rfl, rfl, rfl⟩ ⟨rfl, rfl⟩ (by simp [h.eqs])
    · exact h.finish
  case h_13 =>
    simp only [lEmitPhase, matchNext]
    rw [h.params, h.lz, h.data, h.inPos]
    split
    · refine (Same.emitAll _ h).andThen fun s t h => ?_
      rw [h.inPos, h.lz]
      exact h.update ⟨rfl, rfl, rfl, rfl, rfl, rfl⟩ ⟨rfl, rfl⟩ (by simp [h.eqs])
    · refine (Same.emitAll _ h).andThen fun s t h => ?_
      rw [h.inPos]
      exact h.update ⟨rfl, rfl, rfl, rfl, rfl, rfl⟩ ⟨rfl, rfl⟩ (by simp [h.eqs])
  case h_14 => exact h.finish
  case h_15 => exact mCopyRun_same h
  case h_16 =>
    simp only [rRunPhase]
    rw [h.unread]
    split
    · exact h.update ⟨rfl, rfl, rfl, rfl, rfl, rfl⟩ ⟨rfl, rfl⟩ (by simp [h.eqs])
    · exact h.finish
  case h_17 =>
    simp only [rEmitPhase]
    rw [h.rle]
    refine (Same.emitAll _ h).andThen fun s t h => ?_
    rw [h.inPos, h.rle]
    exact h.update ⟨rfl, rfl, rfl, rfl, rfl, rfl⟩ ⟨rfl, rfl⟩ (by simp [h.eqs])
  case h_18 => exact h.finish
  all_goals exact h

/-! ## Engine steps -/

theorem Same.boundary {s t : State} (h : Same s t) : t.boundary = s.boundary := by
  simp only [State.boundary, h.phase, h.inPos, h.huff, h.outPos, h.lz, h.n]

theorem Same.fetchBytes {s t : State} (h : Same s t) (c : Ctx) : t.fetchBytes c = s.fetchBytes c := by
  cases c <;> simp only [State.fetchBytes, h.cmd, h.unread]

theorem engineStep_same {s t : State} (h : Same s t) : Same (engineStep s) (engineStep t) := by
  unfold engineStep
  rw [h.boundary]
  split
  · exact (phaseRun_same h).state
  · rw [h.fetchBytes]
    split
    · exact (unitRun_same _ h).state
    · exact h.raise _

theorem runEngine_same (k : Nat) : ∀ {s t : State}, Same s t → Same (runEngine k s) (runEngine k t) := by
  induction k with
  | zero => exact fun h => h
  | succ k ih =>
    intro s t h
    simp only [runEngine, h.status]
    split
    · exact ih (engineStep_same h)
    · exact h

/-- Two launches of one command word on the same bytes. -/
theorem launch_same {s t : State} (c : Byte) (hp : t.params = s.params) (hn : t.inLen = s.inLen) (hi : t.input = s.input) :
    Same (launch c s) (launch c t) where
  params := hp
  cmd := rfl
  status := rfl
  err := rfl
  data := hi
  n := by simp [hn]
  out := rfl
  phase := rfl
  inPos := rfl
  outPos := rfl
  huff := rfl
  lz := rfl
  rle := rfl
  outLen := fun h => absurd rfl h
  written := fun a ha => absurd ha (Nat.not_lt_zero a)

end Sys2Proof.Machine
end

