-- ==== Sys2Proof/Laws/Rle.lean ====
section
/-! SUPPORT. The RLE codec: what its run detector measures, what its engine steps do, and where its two commands end
(45_rle_codec.md). -/

namespace Sys2Proof.Machine

/-! ## The input -/

theorem data_getElem? (s : State) {a : Nat} (h : a < s.n) : s.data[a]? = some (s.inByte a) := by
  simp [State.data, h]

theorem unread_eq_cons (s : State) (h : s.inPos < s.n) : s.unread = s.inByte s.inPos :: s.data.drop (s.inPos + 1) := by
  have hlt : s.inPos < s.data.length := by rw [length_data]; exact h
  rw [State.unread, List.drop_eq_getElem_cons hlt]
  congr 1
  have := data_getElem? s h
  rw [List.getElem?_eq_getElem hlt] at this
  exact Option.some.inj this

theorem unread_eq_nil (s : State) (h : s.n ≤ s.inPos) : s.unread = [] := by
  rw [State.unread, List.drop_eq_nil_iff, length_data]
  exact h

theorem inPos_lt_of_unread {s : State} {b : Byte} {rest : List Byte} (h : s.unread = b :: rest) : s.inPos < s.n := by
  have := congrArg List.length h
  rw [length_unread, List.length_cons] at this
  omega

/-! ## Run detection -/

theorem leadingRun_eq (b : Byte) (xs : List Byte) (cap : Nat) {j : Nat} (h : j < leadingRun b xs cap) : xs[j]? = some b := by
  induction xs generalizing cap j with
  | nil => cases cap <;> simp [leadingRun] at h
  | cons x xs ih =>
    cases cap with
    | zero => simp [leadingRun] at h
    | succ cap =>
      simp only [leadingRun] at h
      split at h
      · rename_i hx
        cases j with
        | zero => simp [hx]
        | succ j => simpa using ih cap (by omega)
      · omega

/-- The run stops at the cap, at the end of the input, or at a byte of another value. -/
theorem leadingRun_stops (b : Byte) (xs : List Byte) (cap : Nat) :
    leadingRun b xs cap = cap ∨ leadingRun b xs cap = xs.length ∨
      ∃ x, xs[leadingRun b xs cap]? = some x ∧ x ≠ b := by
  induction xs generalizing cap with
  | nil => cases cap <;> simp [leadingRun]
  | cons x xs ih =>
    cases cap with
    | zero => simp [leadingRun]
    | succ cap =>
      simp only [leadingRun]
      split
      · rcases ih cap with h | h | ⟨y, h, hy⟩
        · exact .inl (by rw [h])
        · exact .inr (.inl (by rw [h, List.length_cons]))
        · exact .inr (.inr ⟨y, by simpa using h, hy⟩)
      · rename_i hx
        exact .inr (.inr ⟨x, rfl, hx⟩)

/-- A detected run is that many equal bytes at the head of what is left. -/
theorem take_leadingRun (b : Byte) (xs : List Byte) (cap : Nat) :
    xs = List.replicate (leadingRun b xs cap) b ++ xs.drop (leadingRun b xs cap) := by
  induction xs generalizing cap with
  | nil => cases cap <;> rfl
  | cons x xs ih =>
    cases cap with
    | zero => rfl
    | succ cap =>
      simp only [leadingRun]
      split
      · rename_i hx
        rw [List.replicate_succ, List.cons_append, List.drop_succ_cons, ← ih cap, hx]
      · rfl

/-! ## The records of a run -/

/-- The records stand for the run, each is a record of its own, and they take at most three bytes for each byte of the run. -/
theorem runUnits_spec (b : Byte) {c : Nat} (h1 : 1 ≤ c) (h2 : c ≤ 255) :
    (runUnits b c).flatMap rleExpand = List.replicate c b ∧
    (∀ i ∈ runUnits b c, i.ctx = .rleRec ∧ i.wf = true) ∧
    ((runUnits b c).flatMap encode).length ≤ 3 * c := by
  unfold runUnits
  split
  · rename_i h
    obtain ⟨rfl, hb⟩ := h
    simp [rleExpand, Instr.ctx, Instr.wf, hb, encode]
  · split
    · rename_i h h'
      subst h'
      have hb : b = escapeByte := by
        by_contra hb
        exact h ⟨rfl, hb⟩
      subst hb
      simp [rleExpand, Instr.ctx, Instr.wf, encode, escapeByte]
    · split
      · rename_i hc
        have hrep : ∀ k, (List.replicate k (Instr.rleRaw b)).flatMap rleExpand = List.replicate k b ∧
            ((List.replicate k (Instr.rleRaw b)).flatMap encode).length = k := by
          intro k
          induction k with
          | zero => simp
          | succ k ih => simp [List.replicate_succ, rleExpand, encode, ih.1, ih.2, Nat.add_comm]
        refine ⟨(hrep c).1, ?_, by rw [(hrep c).2]; omega⟩
        intro i hi
        rw [List.eq_of_mem_replicate hi]
        exact ⟨rfl, by simpa [Instr.wf] using hc.2⟩
      · have hn : (BitVec.ofNat 8 c).toNat = c := by rw [BitVec.toNat_ofNat, Nat.mod_eq_of_lt (by omega)]
        refine ⟨?_, ?_, ?_⟩
        · simp only [List.flatMap_cons, List.flatMap_nil, List.append_nil, rleExpand, hn]
        · intro i hi
          rw [List.mem_singleton.1 hi]
          refine ⟨rfl, ?_⟩
          simp only [Instr.wf, bne_iff_ne, ne_eq]
          intro h0
          rw [h0] at hn
          simp at hn
          omega
        · simp only [List.flatMap_cons, List.flatMap_nil, List.append_nil, encode, List.length_cons, List.length_nil]
          omega

theorem units_eq_nil {units : List Instr} (hu : ∀ i ∈ units, i.ctx = .rleRec) (h : units.flatMap encode = []) : units = [] := by
  cases units with
  | nil => rfl
  | cons i units =>
    have hc := hu i (by simp)
    rw [List.flatMap_cons, List.append_eq_nil_iff] at h
    have h := h.1
    cases i <;> simp only [Instr.ctx, reduceCtorEq] at hc <;> simp [encode] at h

/-! ## Engine steps -/

theorem engineStep_rRun {s : State} (hp : s.phase = .rRun) (hn : s.inPos < s.n) :
    engineStep s = { s with
      rle := { runByte := s.inByte s.inPos
               runCnt := leadingRun (s.inByte s.inPos) (s.data.drop (s.inPos + 1)) (runCap - 1) + 1 }
      phase := .rEmit } := by
  rw [engineStep_phase (by simp only [State.boundary, hp])]
  simp only [phaseRun, hp, rRunPhase, unread_eq_cons s hn, Run.state_going]

theorem engineStep_rRun_end {s : State} (hp : s.phase = .rRun) (hn : s.n ≤ s.inPos) : engineStep s = finish s := by
  rw [engineStep_phase (by simp only [State.boundary, hp])]
  simp only [phaseRun, hp, rRunPhase, unread_eq_nil s hn, Run.state_ended]

theorem engineStep_rEmit {s : State} (hp : s.phase = .rEmit) {bytes : List Byte}
    (hb : bytes = (runUnits s.rle.runByte s.rle.runCnt).flatMap encode) :
    engineStep s = ((emitAll bytes s).andThen
      fun s => .going { s with inPos := s.inPos + s.rle.runCnt, phase := .rRun }).state := by
  rw [engineStep_phase (by simp only [State.boundary, hp]), hb]
  simp only [phaseRun, hp, rEmitPhase]

/-- In `S_TOKEN` a record of the stream is run as its unit. -/
theorem engineStep_rleUnit {s : State} {i : Instr} {rest : List Byte} (hp : s.phase = .sToken)
    (hu : s.unread = encode i ++ rest) (hc : i.ctx = .rleRec) (hw : i.wf = true) : engineStep s = (unitRun i s).state := by
  have hlt : s.inPos < s.n := by
    have hl := congrArg List.length hu
    rw [length_unread] at hl
    have : 0 < (encode i ++ rest).length := by
      cases i <;> simp only [Instr.ctx, reduceCtorEq] at hc <;> simp [encode]
    omega
  refine engineStep_unit (c := .rleRec) (rest := rest) (by simp only [State.boundary, hp, if_pos hlt]) ?_
  rw [fetchBytes_stream (by decide), hu]
  cases i <;> simp only [Instr.ctx, reduceCtorEq] at hc
  · rename_i b
    have hb : b ≠ escapeByte := by simpa [Instr.wf] using hw
    simp [decode, decodeRleRec, encode, hb]
  · rfl
  · rename_i c b
    have hc0 : ¬ c = 0#8 := by simpa [Instr.wf] using hw
    simp [decode, decodeRleRec, encode, hc0]

theorem engineStep_sToken_end {s : State} (hp : s.phase = .sToken) (hn : s.n ≤ s.inPos) : engineStep s = finish s := by
  rw [engineStep_phase (by simp only [State.boundary, hp, if_neg (Nat.not_lt.2 hn)])]
  simp only [phaseRun, hp, Run.state_ended]

/-- A record with room for what it stands for. -/
theorem unitRun_rle {s : State} {i : Instr} (hc : i.ctx = .rleRec) (h : s.outPos + (rleExpand i).length ≤ s.params.outCap) :
    unitRun i s = .going { putAll (rleExpand i) s with inPos := s.inPos + (encode i).length } := by
  cases i <;> simp only [Instr.ctx, reduceCtorEq] at hc
  · simp only [rleExpand, List.length_cons, List.length_nil] at h
    simp only [unitRun, rleRawRun, emit_ok (b := _) (show s.outPos < s.params.outCap by omega), Run.going_andThen, rleExpand,
      encode, putAll_cons, putAll_nil, List.length_cons, List.length_nil]
    rfl
  · simp only [rleExpand, List.length_cons, List.length_nil] at h
    simp only [unitRun, rleEsclitRun, emit_ok (b := _) (show s.outPos < s.params.outCap by omega), Run.going_andThen, rleExpand,
      encode, putAll_cons, putAll_nil, List.length_cons, List.length_nil]
    rfl
  · rename_i c b
    simp only [rleExpand] at h
    simp only [unitRun, rleRunRun, emitAll_ok h, Run.going_andThen, rleExpand, encode, List.length_cons, List.length_nil]
    rfl

/-! ## Where the commands end -/

/-- The completion of a command that has appended `bytes` to an empty `OUT`. -/
def Delivers (t : State) (bytes : List Byte) : Prop :=
  t.status = .done ∧ t.err = none ∧ t.out = cellsOf bytes ∧ t.outPos = bytes.length ∧ t.outLen = BitVec.ofNat 32 bytes.length

theorem Delivers.result {t : State} {bytes : List Byte} (h : Delivers t bytes) (hb : bytes.length < 4294967296) :
    t.result = bytes :=
  result_of_done h.1 h.2.2.1 h.2.2.2.2 hb

/-- What has been written so far, from offset 0. -/
def Wrote (s : State) (bytes : List Byte) : Prop := s.out = cellsOf bytes ∧ s.outPos = bytes.length

theorem Wrote.putAll {s : State} {xs : List Byte} (h : Wrote s xs) (ys : List Byte) : Wrote (Machine.putAll ys s) (xs ++ ys) := by
  refine ⟨?_, ?_⟩
  · rw [putAll_out, h.1, h.2, cellsOf_append]
  · rw [putAll_outPos, h.2, List.length_append]

theorem Wrote.finish {s : State} {xs : List Byte} (h : Wrote s xs) (he : s.err = none) : Delivers (Machine.finish s) xs :=
  ⟨rfl, he, h.1, h.2, by rw [finish_outLen, h.2]⟩

/-- `RLE_COMPRESS` from a run boundary: the records it still writes stand for what is left of the input. -/
theorem rle_compress_ends (m : Nat) : ∀ {s : State} {done : List Byte}, s.n - s.inPos ≤ m → s.status = .busy → s.err = none →
    s.phase = .rRun → Wrote s done → s.outPos ≤ s.params.outCap →
    ∃ units : List Instr, (∀ i ∈ units, i.ctx = .rleRec ∧ i.wf = true) ∧ units.flatMap rleExpand = s.unread ∧
      (units.flatMap encode).length ≤ 3 * (s.n - s.inPos) ∧
      ∃ t, Ends s t ∧
        (s.outPos + (units.flatMap encode).length ≤ s.params.outCap → Delivers t (done ++ units.flatMap encode)) ∧
        (t.status = .done → s.outPos + (units.flatMap encode).length ≤ s.params.outCap) := by
  induction m with
  | zero =>
    intro s done hm hb he hp hw hc
    have hn : s.n ≤ s.inPos := by omega
    refine ⟨[], by simp, by simp [unread_eq_nil s hn], by simp, finish s, ?_, ?_, ?_⟩
    · exact Ends.step hb (by rw [engineStep_rRun_end hp hn]; exact Ends.here (by simp))
    · intro _
      simpa using hw.finish he
    · intro _
      simpa using hc
  | succ m ih =>
    intro s done hm hb he hp hw hc
    by_cases hn : s.n ≤ s.inPos
    · exact ih (by omega) hb he hp hw hc
    · have hlt : s.inPos < s.n := by omega
      have hlen := leadingRun_le (s.inByte s.inPos) (s.data.drop (s.inPos + 1)) (runCap - 1)
      rw [List.length_drop, length_data] at hlen
      have htake := take_leadingRun (s.inByte s.inPos) (s.data.drop (s.inPos + 1)) (runCap - 1)
      have hstep := engineStep_rRun hp hlt
      generalize hrun : leadingRun (s.inByte s.inPos) (s.data.drop (s.inPos + 1)) (runCap - 1) = r at *
      have hcap : runCap = 255 := rfl
      obtain ⟨hexp, hwf, hlen3⟩ := runUnits_spec (s.inByte s.inPos) (c := r + 1) (by omega) (by omega)
      have hunread : s.unread = List.replicate (r + 1) (s.inByte s.inPos) ++ s.data.drop (s.inPos + (r + 1)) := by
        rw [unread_eq_cons s hlt, List.replicate_succ, List.cons_append]
        congr 1
        rw [List.drop_drop] at htake
        rw [show s.inPos + (r + 1) = s.inPos + 1 + r by omega]
        exact htake
      generalize hs1 : engineStep s = s1 at *
      have hemit := engineStep_rEmit (s := s1) (bytes := (runUnits (s.inByte s.inPos) (r + 1)).flatMap encode)
        (by rw [hstep]) (by rw [hstep])
      have hs1b : s1.status = .busy := by rw [hstep]; exact hb
      by_cases hfit : s.outPos + ((runUnits (s.inByte s.inPos) (r + 1)).flatMap encode).length ≤ s.params.outCap
      · have hok : emitAll ((runUnits (s.inByte s.inPos) (r + 1)).flatMap encode) s1 =
            .going (putAll ((runUnits (s.inByte s.inPos) (r + 1)).flatMap encode) s1) :=
          emitAll_ok (by rw [hstep]; exact hfit)
        rw [hok, Run.going_andThen, Run.state_going] at hemit
        generalize hs2 : engineStep s1 = s2 at *
        have hn2 : s2.n = s.n := by rw [hemit, hstep]; rfl
        have hi2 : s2.inPos = s.inPos + (r + 1) := by rw [hemit, hstep]; rfl
        have hd2 : s2.data = s.data := by rw [hemit, hstep]; rfl
        have hp2 : s2.params = s.params := by rw [hemit, hstep]; rfl
        have ho2 : s2.outPos = s.outPos + ((runUnits (s.inByte s.inPos) (r + 1)).flatMap encode).length := by
          rw [hemit, hstep]; rfl
        have hw2 : Wrote s2 (done ++ (runUnits (s.inByte s.inPos) (r + 1)).flatMap encode) := by
          have := hw.putAll ((runUnits (s.inByte s.inPos) (r + 1)).flatMap encode)
          rw [hemit, hstep]
          exact this
        obtain ⟨units, hu1, hu2, hu3, t, ht1, ht2, ht3⟩ := ih (s := s2) (by rw [hn2, hi2]; omega)
          (by rw [hemit, hstep]; exact hb) (by rw [hemit, hstep]; exact he) (by rw [hemit]) hw2 (by rw [ho2, hp2]; exact hfit)
        refine ⟨runUnits (s.inByte s.inPos) (r + 1) ++ units, ?_, ?_, ?_, t, ?_, ?_, ?_⟩
        · intro i hi
          rcases List.mem_append.1 hi with hi | hi
          · exact hwf i hi
          · exact hu1 i hi
        · rw [List.flatMap_append, hexp, hu2, hunread, State.unread, hd2, hi2]
        · rw [List.flatMap_append, List.length_append]
          rw [hn2, hi2] at hu3
          omega
        · exact Ends.step hb (hs1 ▸ Ends.step hs1b (hs2 ▸ ht1))
        · intro hf
          rw [List.flatMap_append, List.length_append] at hf
          rw [List.flatMap_append, ← List.append_assoc]
          exact ht2 (by rw [ho2, hp2]; omega)
        · intro hdone
          have := ht3 hdone
          rw [ho2, hp2] at this
          rw [List.flatMap_append, List.length_append]
          omega
      · have hfull := emitAll_full (s := s1) (bs := (runUnits (s.inByte s.inPos) (r + 1)).flatMap encode)
          (by rw [hstep]; exact hc) (by rw [hstep]; simpa using hfit)
        rw [hfull, Run.ended_andThen, Run.state_ended] at hemit
        refine ⟨runUnits (s.inByte s.inPos) (r + 1) ++ (s.data.drop (s.inPos + (r + 1))).flatMap (fun b => runUnits b 1), ?_, ?_, ?_,
          engineStep s1, ?_, ?_, ?_⟩
        · intro i hi
          rcases List.mem_append.1 hi with hi | hi
          · exact hwf i hi
          · obtain ⟨b, -, hb⟩ := List.mem_flatMap.1 hi
            exact (runUnits_spec b (by omega) (by omega)).2.1 i hb
        · rw [List.flatMap_append, hexp, hunread, List.flatMap_assoc]
          congr 1
          have : ∀ b, (runUnits b 1).flatMap rleExpand = [b] := fun b => (runUnits_spec b (by omega) (by omega)).1
          simp only [this]
          exact List.flatMap_singleton' _
        · rw [List.flatMap_append, List.length_append, List.flatMap_assoc]
          have hall : ∀ xs : List Byte, (xs.flatMap fun b => (runUnits b 1).flatMap encode).length ≤ 3 * xs.length := by
            intro xs
            induction xs with
            | nil => simp
            | cons x xs ih =>
              have := (runUnits_spec x (c := 1) (by omega) (by omega)).2.2
              simp only [List.flatMap_cons, List.length_append, List.length_cons]
              omega
          have := hall (s.data.drop (s.inPos + (r + 1)))
          rw [List.length_drop, length_data] at this
          omega
        · refine Ends.step hb ?_
          rw [hs1]
          exact Ends.step hs1b (Ends.here (by rw [hemit]; simp))
        · intro hf
          rw [List.flatMap_append, List.length_append] at hf
          omega
        · intro hdone
          rw [hemit] at hdone
          simp at hdone

/-- `RLE_DECOMPRESS` from a record boundary: whatever records are left, they are expanded in order. -/
theorem rle_decompress_ends (units : List Instr) : ∀ {s : State} {done : List Byte}, s.status = .busy → s.err = none →
    s.phase = .sToken → Wrote s done → (∀ i ∈ units, i.ctx = .rleRec ∧ i.wf = true) → s.unread = units.flatMap encode →
    s.outPos + (units.flatMap rleExpand).length ≤ s.params.outCap →
    ∃ t, Ends s t ∧ Delivers t (done ++ units.flatMap rleExpand) := by
  induction units with
  | nil =>
    intro s done hb he hp hw hu hin hfit
    have hn : s.n ≤ s.inPos := by
      have := congrArg List.length hin
      simp at this
      omega
    refine ⟨finish s, Ends.step hb (by rw [engineStep_sToken_end hp hn]; exact Ends.here (by simp)), ?_⟩
    simpa using hw.finish he
  | cons i units ih =>
    intro s done hb he hp hw hu hin hfit
    obtain ⟨hc, hwf⟩ := hu i (by simp)
    rw [List.flatMap_cons, List.length_append] at hfit
    rw [List.flatMap_cons] at hin
    have hstep := engineStep_rleUnit hp hin hc hwf
    rw [unitRun_rle hc (by omega), Run.state_going] at hstep
    generalize hs1 : engineStep s = s1 at *
    have hu1 : s1.unread = units.flatMap encode := by
      have hd : s1.unread = s.unread.drop (encode i).length := by
        rw [hstep]
        simp only [State.unread, List.drop_drop]
        rfl
      rw [hd, hin, List.drop_left]
    have hw1 : Wrote s1 (done ++ rleExpand i) := by
      rw [hstep]
      exact hw.putAll (rleExpand i)
    obtain ⟨t, ht1, ht2⟩ := ih (s := s1) (by rw [hstep]; exact hb) (by rw [hstep]; exact he) (by rw [hstep]; exact hp) hw1
      (fun j hj => hu j (by simp [hj])) hu1 (by rw [hstep]; simp only [putAll_outPos, putAll_params]; omega)
    refine ⟨t, Ends.step hb (hs1 ▸ ht1), ?_⟩
    rw [List.flatMap_cons, ← List.append_assoc]
    exact ht2

end Sys2Proof.Machine
end

