-- ==== Sys2Proof/Laws/Lz77.lean ====
section
/-! SUPPORT. The LZ77 codec: what the search finds, what the copy loop copies, and where the two commands end
(43_lz77_encoder.md, 44_lz77_decoder.md). -/

namespace Sys2Proof.Machine

/-! ## The search -/

theorem le_commonLen_iff (cap : Nat) : ∀ (xs ys : List Byte) (k : Nat), cap ≤ xs.length → cap ≤ ys.length →
    (k ≤ commonLen xs ys cap ↔ k ≤ cap ∧ ∀ j < k, xs[j]? = ys[j]?) := by
  induction cap with
  | zero =>
    intro xs ys k _ _
    have : commonLen xs ys 0 = 0 := by cases xs <;> cases ys <;> rfl
    rw [this]
    refine ⟨fun h => ⟨h, fun j hj => absurd hj (by omega)⟩, fun h => h.1⟩
  | succ cap ih =>
    intro xs ys k hx hy
    cases xs with
    | nil => simp at hx
    | cons x xs =>
      cases ys with
      | nil => simp at hy
      | cons y ys =>
        simp only [List.length_cons, Nat.add_le_add_iff_right] at hx hy
        simp only [commonLen]
        split
        · rename_i hxy
          subst hxy
          cases k with
          | zero => simp
          | succ k =>
            rw [Nat.add_le_add_iff_right, ih xs ys k hx hy, Nat.add_le_add_iff_right]
            refine and_congr_right fun _ => ⟨fun h j hj => ?_, fun h j hj => ?_⟩
            · cases j with
              | zero => rfl
              | succ j => simpa using h j (by omega)
            · simpa using h (j + 1) (by omega)
        · rename_i hxy
          refine ⟨fun h => ⟨by omega, fun j hj => absurd hj (by omega)⟩, fun h => ?_⟩
          by_contra hk
          have := h.2 0 (by omega)
          simp only [List.getElem?_cons_zero, Option.some.injEq] at this
          exact hxy this

/-- The candidate's length is the greatest match length at its distance (R223). -/
theorem matches_iff (data : List Byte) (la p d k : Nat) (h1 : d ≤ p) (h2 : p ≤ data.length) :
    Matches data la p d k ↔ k ≤ candidateLen data la p d := by
  rw [candidateLen, le_commonLen_iff _ _ _ _ (by rw [List.length_drop]; omega) (by rw [List.length_drop]; omega), Matches]
  refine and_congr_right fun _ => ?_
  simp only [List.getElem?_drop]

/-- What the scan leaves in the registers: the greatest candidate length, at the smallest distance that has it, unless no candidate
is longer than what stood there before. -/
theorem scan_spec (data : List Byte) (la p count : Nat) : ∀ (d : Nat) (r : LzRegs), 1 ≤ d → d + count ≤ p + 1 →
    (scan data la p count d r).target = r.target ∧ (scan data la p count d r).tDist = r.tDist ∧
    (scan data la p count d r).tLen = r.tLen ∧ (scan data la p count d r).tNext = r.tNext ∧
    (scan data la p count d r).copyI = r.copyI ∧
    r.bestLen ≤ (scan data la p count d r).bestLen ∧
    (∀ d', d ≤ d' → d' < d + count → candidateLen data la p d' ≤ (scan data la p count d r).bestLen) ∧
    ((scan data la p count d r).bestLen = r.bestLen ∧ (scan data la p count d r).bestDist = r.bestDist ∨
     r.bestLen < (scan data la p count d r).bestLen ∧
       d ≤ (scan data la p count d r).bestDist ∧ (scan data la p count d r).bestDist < d + count ∧
       candidateLen data la p (scan data la p count d r).bestDist = (scan data la p count d r).bestLen ∧
       ∀ d', d ≤ d' → d' < (scan data la p count d r).bestDist →
         candidateLen data la p d' < (scan data la p count d r).bestLen) := by
  induction count with
  | zero =>
    intro d r _ _
    exact ⟨rfl, rfl, rfl, rfl, rfl, Nat.le_refl _, fun d' h1 h2 => absurd h2 (by omega), .inl ⟨rfl, rfl⟩⟩
  | succ count ih =>
    intro d r hd hp
    simp only [scan]
    split
    · rename_i hlt
      obtain ⟨f1, f2, f3, f4, f5, g1, g2, g3⟩ := ih (d + 1)
        { s := p - d, clen := candidateLen data la p d, bestLen := candidateLen data la p d, bestDist := d, target := r.target,
          tDist := r.tDist, tLen := r.tLen, tNext := r.tNext, copyI := r.copyI } (by omega) (by omega)
      refine ⟨f1, f2, f3, f4, f5, by dsimp only at g1; omega, ?_, .inr ?_⟩
      · intro d' h1 h2
        rcases Nat.eq_or_lt_of_le h1 with rfl | h1
        · exact g1
        · exact g2 d' (by omega) (by omega)
      · rcases g3 with ⟨k1, k2⟩ | ⟨k1, k2, k3, k4, k5⟩
        · refine ⟨?_, ?_, ?_, ?_, ?_⟩
          · rw [k1]; exact hlt
          · rw [k2]
          · rw [k2]; dsimp only; omega
          · rw [k2, k1]
          · intro d' h1 h2
            rw [k2] at h2
            dsimp only at h2
            omega
        · refine ⟨by dsimp only at k1; omega, by omega, by omega, k4, ?_⟩
          intro d' h1 h2
          rcases Nat.eq_or_lt_of_le h1 with rfl | h1
          · exact k1
          · exact k5 d' (by omega) h2
    · rename_i hge
      obtain ⟨f1, f2, f3, f4, f5, g1, g2, g3⟩ := ih (d + 1)
        { s := p - d, clen := candidateLen data la p d, bestLen := r.bestLen, bestDist := r.bestDist, target := r.target,
          tDist := r.tDist, tLen := r.tLen, tNext := r.tNext, copyI := r.copyI } (by omega) (by omega)
      refine ⟨f1, f2, f3, f4, f5, g1, ?_, ?_⟩
      · intro d' h1 h2
        rcases Nat.eq_or_lt_of_le h1 with rfl | h1
        · dsimp only at g1; omega
        · exact g2 d' (by omega) (by omega)
      · rcases g3 with ⟨k1, k2⟩ | ⟨k1, k2, k3, k4, k5⟩
        · exact .inl ⟨k1, k2⟩
        · refine .inr ⟨k1, by omega, by omega, k4, ?_⟩
          intro d' h1 h2
          rcases Nat.eq_or_lt_of_le h1 with rfl | h1
          · dsimp only at k1; omega
          · exact k5 d' (by omega) h2

/-! ## Engine steps of the encoder -/

theorem engineStep_lHeader {s : State} (hp : s.phase = .lHeader) :
    engineStep s = ((emitAll (encode (.lz77Hdr (BitVec.ofNat 32 s.n))) s).andThen
      fun s => .going { s with phase := .lSearch }).state := by
  rw [engineStep_phase (by simp only [State.boundary, hp])]
  simp only [phaseRun, hp, lHeaderPhase]

theorem engineStep_lSearch {s : State} (hp : s.phase = .lSearch) (hn : s.inPos < s.n) :
    engineStep s = { s with
      lz := search s.data s.params.window s.params.lookahead s.inPos s.lz, phase := .lEmit } := by
  rw [engineStep_phase (by simp only [State.boundary, hp])]
  simp only [phaseRun, hp, lSearchPhase, if_pos hn, Run.state_going]

theorem engineStep_lSearch_end {s : State} (hp : s.phase = .lSearch) (hn : s.n ≤ s.inPos) : engineStep s = finish s := by
  rw [engineStep_phase (by simp only [State.boundary, hp])]
  simp only [phaseRun, hp, lSearchPhase, if_neg (Nat.not_lt.2 hn), Run.state_ended]

/-- The token the emitter writes, and how far it advances (R225, R226). -/
def tokenAt (s : State) : Instr × Nat :=
  if s.params.minMatch ≤ s.lz.bestLen then
    (.lz77Match (BitVec.ofNat 16 s.lz.bestDist) (BitVec.ofNat 16 s.lz.bestLen) (matchNext s), s.lz.bestLen + 1)
  else (.lz77Lit (s.data.getD s.inPos 0x00), 1)

theorem engineStep_lEmit {s : State} (hp : s.phase = .lEmit) :
    engineStep s = ((emitAll (encode (tokenAt s).1) s).andThen
      fun t => .going { t with inPos := t.inPos + (tokenAt s).2, phase := .lSearch }).state := by
  rw [engineStep_phase (by simp only [State.boundary, hp])]
  simp only [phaseRun, hp, lEmitPhase, tokenAt]
  split
  · by_cases hc : s.params.outCap < s.outPos + (encode (Instr.lz77Match (BitVec.ofNat 16 s.lz.bestDist)
        (BitVec.ofNat 16 s.lz.bestLen) (matchNext s))).length
    · cases hr : emitAll (encode (Instr.lz77Match (BitVec.ofNat 16 s.lz.bestDist) (BitVec.ofNat 16 s.lz.bestLen)
          (matchNext s))) s with
      | ended t => rfl
      | going t =>
        obtain ⟨u, hu, -, -, -, -, -, -, -, -, -, h8, -⟩ | ⟨u, e, -, hu, -⟩ :=
          emitAll_appends (es := [.outputOverflow]) (encode (Instr.lz77Match (BitVec.ofNat 16 s.lz.bestDist)
            (BitVec.ofNat 16 s.lz.bestLen) (matchNext s))) s (by simp)
        · rw [hr] at hu
          cases hu
          simp only [Run.going_andThen, Run.state_going, h8, Nat.add_assoc]
        · rw [hr] at hu
          cases hu
    · rw [emitAll_ok (by omega)]
      rfl
  · rfl

/-! ## The copy -/

/-- The copy loop on legal fields: byte `i` of the copy is the byte at `i mod DISTANCE` of the last `DISTANCE` (R259). -/
theorem copyLoop_spec (k : Nat) : ∀ {s : State}, 1 ≤ s.lz.tDist → s.lz.tDist ≤ s.outPos → s.outPos + k ≤ s.params.outCap →
    ∃ bs : List Byte, bs.length = k ∧
      copyLoop k s = .going { putAll bs s with lz := { s.lz with copyI := s.lz.copyI + k } } ∧
      ∀ i < k, bs[i]? = some (s.outByte (s.outPos - s.lz.tDist + i % s.lz.tDist)) := by
  induction k with
  | zero =>
    intro s _ _ _
    exact ⟨[], rfl, rfl, fun i hi => absurd hi (by omega)⟩
  | succ k ih =>
    intro s h1 h2 h3
    obtain ⟨bs, hl, hc, hb⟩ := ih
      (s := { putByte (s.outByte (s.outPos - s.lz.tDist)) s with lz := { s.lz with copyI := s.lz.copyI + 1 } })
      h1 (by simp only [putByte_outPos]; omega) (by simp only [putByte_outPos, putByte_params]; omega)
    refine ⟨s.outByte (s.outPos - s.lz.tDist) :: bs, by rw [List.length_cons, hl], ?_, ?_⟩
    · rw [copyLoop, emit_ok (by omega)]
      simp only [Run.going_andThen, putByte_lz, hc, putAll_cons]
      simp only [putAll, putByte, Nat.add_assoc, Nat.add_comm 1 k]
    · intro i hi
      cases i with
      | zero => simp
      | succ i =>
        rw [List.getElem?_cons_succ, hb i (by omega)]
        dsimp only [putByte_outPos]
        congr 1
        have hread : ∀ a, a ≤ s.outPos → ({ putByte (s.outByte (s.outPos - s.lz.tDist)) s with
            lz := { s.lz with copyI := s.lz.copyI + 1 } } : State).outByte a =
            if a = s.outPos then s.outByte (s.outPos - s.lz.tDist) else s.outByte a :=
          fun a _ => outByte_putByte s (s.outByte (s.outPos - s.lz.tDist)) a
        have hmod := Nat.mod_lt i (show 0 < s.lz.tDist by omega)
        refine (hread _ (by omega)).trans ?_
        by_cases he : i % s.lz.tDist + 1 = s.lz.tDist
        · have : (i + 1) % s.lz.tDist = 0 := by
            rw [Nat.add_mod, ← he]
            by_cases h1' : s.lz.tDist = 1
            · simp [h1', Nat.mod_one]
            · rw [he, Nat.mod_eq_of_lt (show 1 < s.lz.tDist by omega), he, Nat.mod_self]
          rw [if_pos (by omega), this, Nat.add_zero]
        · have : (i + 1) % s.lz.tDist = i % s.lz.tDist + 1 := by
            rw [Nat.add_mod, Nat.mod_eq_of_lt (show 1 < s.lz.tDist by omega), Nat.mod_eq_of_lt (by omega)]
          rw [if_neg (by omega), this]
          congr 1
          omega

/-! ## The decoder's units -/

/-- A match on legal fields with room for it (R256, R259, R260). -/
theorem unitRun_match {s : State} {d l : BitVec 16} {nx : Byte} (h1 : 1 ≤ d.toNat) (h2 : d.toNat ≤ s.outPos)
    (h3 : s.outPos + l.toNat ≤ s.lz.target) (h4 : s.lz.target ≤ s.params.outCap) :
    ∃ bs : List Byte, bs.length = l.toNat ∧
      (∀ i < l.toNat, bs[i]? = some (s.outByte (s.outPos - d.toNat + i % d.toNat))) ∧
      unitRun (.lz77Match d l nx) s = .going
        { putAll (bs ++ if s.outPos + l.toNat < s.lz.target then [nx] else []) s with
          lz := { s.lz with tDist := d.toNat, tLen := l.toNat, tNext := nx, copyI := l.toNat }
          inPos := s.inPos + 6, phase := .mToken } := by
  obtain ⟨bs, hl, hc, hb⟩ := copyLoop_spec l.toNat
    (s := { s with lz := { s.lz with tDist := d.toNat, tLen := l.toNat, tNext := nx, copyI := 0 }, phase := .mCopy })
    h1 h2 (by dsimp only; omega)
  refine ⟨bs, hl, hb, ?_⟩
  simp only [unitRun, lz77MatchRun, mCopyRun]
  rw [if_neg (by omega), if_neg (by omega), hc, Run.going_andThen]
  simp only [putAll, hl, Nat.zero_add]
  by_cases hlt : s.outPos + l.toNat < s.lz.target
  · rw [if_pos hlt, if_pos hlt, emit_ok (by dsimp only; omega), Run.going_andThen]
    simp only [putByte, writeAll_append, hl, List.length_append, List.length_cons, List.length_nil, Memory.writeAll, Nat.zero_add,
      Nat.add_assoc]
  · rw [if_neg hlt, if_neg hlt, Run.going_andThen]
    simp only [List.append_nil, hl]

/-- A literal with room for it (R255). -/
theorem unitRun_lit {s : State} {b : Byte} (h : s.outPos < s.params.outCap) :
    unitRun (.lz77Lit b) s = .going { putAll [b] s with inPos := s.inPos + 2 } := by
  simp only [unitRun, lz77LitRun, emit_ok h, Run.going_andThen]
  rfl

/-- In `M_TOKEN` below the target a token of the stream is run as its unit. -/
theorem engineStep_token {s : State} {i : Instr} {rest : List Byte} (hp : s.phase = .mToken) (ht : s.outPos < s.lz.target)
    (hu : s.unread = encode i ++ rest) (hc : i.ctx = .lz77Tok) : engineStep s = (unitRun i s).state := by
  refine engineStep_unit (c := .lz77Tok) (rest := rest) (by simp only [State.boundary, hp, if_pos ht]) ?_
  rw [fetchBytes_stream (by decide), hu]
  cases i <;> simp only [Instr.ctx, reduceCtorEq] at hc
  · rfl
  · simp [decode, decodeLz77Tok, encode, u16le, le16_parts]

theorem engineStep_mToken_end {s : State} (hp : s.phase = .mToken) (ht : s.lz.target ≤ s.outPos) : engineStep s = finish s := by
  rw [engineStep_phase (by simp only [State.boundary, hp, if_neg (Nat.not_lt.2 ht)])]
  simp only [phaseRun, hp, Run.state_ended]

theorem Wrote.outByte {s : State} {bytes : List Byte} (h : Wrote s bytes) {a : Nat} (ha : a < bytes.length) :
    s.outByte a = bytes.getD a 0 := by
  simp [State.outByte, h.1, ha]

/-- One legal token: what it appends is what it stands for. -/
theorem unitRun_token {s : State} {i : Instr} {done out : List Byte} (hp : s.phase = .mToken) (hw : Wrote s done)
    (ht : lzToken s.lz.target done i = some out) (hcap : s.lz.target ≤ s.params.outCap) :
    i.ctx = .lz77Tok ∧ s.outPos < s.lz.target ∧
    ∃ s', unitRun i s = .going s' ∧ Wrote s' out ∧ s'.lz.target = s.lz.target ∧ s'.phase = .mToken ∧
      s'.status = s.status ∧ s'.err = s.err ∧ s'.params = s.params ∧ s'.unread = s.unread.drop (encode i).length := by
  cases i <;> simp only [lzToken, reduceCtorEq] at ht
  case lz77Lit b =>
    split at ht
    · rename_i hlt
      cases ht
      rw [← hw.2] at hlt
      refine ⟨rfl, hlt, _, unitRun_lit (by omega), hw.putAll [b], rfl, hp, rfl, rfl, rfl, ?_⟩
      · simp only [State.unread, List.drop_drop]
        rfl
    · cases ht
  case lz77Match d l nx =>
    split at ht
    · rename_i hc
      obtain ⟨hlt, h1, h2, h3⟩ := hc
      rw [← hw.2] at hlt h2 h3
      obtain ⟨bs, hl, hb, hrun⟩ := unitRun_match (nx := nx) h1 h2 h3 hcap
      have hbs : bs = (List.range l.toNat).map (fun i => done.getD (done.length - d.toNat + i % d.toNat) 0) := by
        apply List.ext_getElem?
        intro i
        by_cases hi : i < l.toNat
        · have hmod := Nat.mod_lt i (show 0 < d.toNat by omega)
          rw [hb i hi, hw.outByte (by rw [← hw.2]; omega), hw.2]
          simp [hi]
        · rw [List.getElem?_eq_none (by omega), List.getElem?_eq_none (by simp; omega)]
      refine ⟨rfl, hlt, _, hrun, ?_, rfl, rfl, rfl, rfl, rfl, ?_⟩
      · have := hw.putAll (bs ++ if s.outPos + l.toNat < s.lz.target then [nx] else [])
        rw [← hbs] at ht
        have hlen : (done ++ bs).length = s.outPos + l.toNat := by rw [List.length_append, hl, hw.2]
        rw [hlen] at ht
        split at ht
        · rename_i hx
          simp only [if_pos hx] at this ⊢
          cases ht
          rw [List.append_assoc]
          exact this
        · rename_i hx
          simp only [if_neg hx, List.append_nil] at this ⊢
          cases ht
          exact this
      · simp only [State.unread, List.drop_drop]
        rfl
    · cases ht

/-- `LZ77_DECOMPRESS` from a token boundary: the tokens up to the target are run in order; what follows them is not read. -/
theorem lz77_decompress_ends (tokens : List Instr) : ∀ {s : State} {done out trailing : List Byte}, s.status = .busy →
    s.err = none → s.phase = .mToken → Wrote s done → s.lz.target ≤ s.params.outCap →
    lzTokens s.lz.target tokens done = some out → out.length = s.lz.target → s.unread = tokens.flatMap encode ++ trailing →
    ∃ t, Ends s t ∧ Delivers t out := by
  induction tokens with
  | nil =>
    intro s done out trailing hb he hp hw hcap ht hlen hin
    simp only [lzTokens, Option.some.injEq] at ht
    subst ht
    exact ⟨finish s, Ends.step hb (by rw [engineStep_mToken_end hp (by rw [hw.2, hlen])]; exact Ends.here (by simp)),
      hw.finish he⟩
  | cons i tokens ih =>
    intro s done out trailing hb he hp hw hcap ht hlen hin
    simp only [lzTokens, Option.bind_eq_some_iff] at ht
    obtain ⟨mid, hm, ht⟩ := ht
    obtain ⟨hc, hlt, s', hrun, hw', htg, hph, hst, her, hpar, hun⟩ := unitRun_token hp hw hm hcap
    rw [List.flatMap_cons, List.append_assoc] at hin
    have hstep := engineStep_token hp hlt hin hc
    rw [hrun, Run.state_going] at hstep
    obtain ⟨t, h1, h2⟩ := ih (s := s') (trailing := trailing) (hst.trans hb) (her.trans he) hph hw' (by rw [htg, hpar]; exact hcap)
      (by rw [htg]; exact ht) (by rw [htg]; exact hlen) (by rw [hun, hin, List.drop_left])
    exact ⟨t, Ends.step hb (by rw [hstep]; exact h1), h2⟩

/-! ## The encoder's run -/

/-- A bound on the bytes of the tokens that cover `m` bytes of input (R362). -/
def tokenBound (minMatch m : Nat) : Nat :=
  if m = 0 then 0 else if 3 ≤ minMatch then 2 * m else if minMatch = 2 then 2 * m + 2 else 3 * m + 3

/-- What the search leaves for the emitter at position `p` of the input. -/
theorem search_spec (data : List Byte) (window la p : Nat) (r : LzRegs) (hp : p ≤ data.length) :
    let q := search data window la p r
    q.target = r.target ∧ q.tDist = r.tDist ∧ q.tLen = r.tLen ∧ q.tNext = r.tNext ∧ q.copyI = r.copyI ∧
    (∀ d k, 1 ≤ d → d ≤ min p window → Matches data la p d k → k ≤ q.bestLen) ∧
    (0 < q.bestLen → 1 ≤ q.bestDist ∧ q.bestDist ≤ min p window ∧ Matches data la p q.bestDist q.bestLen ∧
      ∀ d, 1 ≤ d → d < q.bestDist → ¬ Matches data la p d q.bestLen) := by
  intro q
  have hscan := scan_spec data la p (min p window) 1 { r with bestLen := 0 } (Nat.le_refl _) (by omega)
  rw [show scan data la p (min p window) 1 { r with bestLen := 0 } = q from rfl] at hscan
  obtain ⟨f1, f2, f3, f4, f5, -, g2, g3⟩ := hscan
  refine ⟨f1, f2, f3, f4, f5, ?_, ?_⟩
  · intro d k h1 h2 hm
    exact ((matches_iff data la p d k (by omega) hp).1 hm).trans (g2 d h1 (by omega))
  · intro hpos
    rcases g3 with ⟨k1, -⟩ | ⟨-, k2, k3, k4, k5⟩
    · exact absurd (k1 ▸ hpos) (by simp)
    · refine ⟨k2, by omega, ?_, ?_⟩
      · exact (matches_iff data la p _ _ (by omega) hp).2 (Nat.le_of_eq k4.symm)
      · intro d h1 h2 hm
        have := (matches_iff data la p d _ (by omega) hp).1 hm
        have := k5 d h1 h2
        omega

/-- The registers hold a match the emitter may use. -/
def MatchReady (s : State) : Prop :=
  s.inPos < s.n ∧ s.lz.bestLen ≤ s.n - s.inPos ∧
  (s.params.minMatch ≤ s.lz.bestLen → 1 ≤ s.lz.bestDist ∧ s.lz.bestDist ≤ s.inPos ∧ s.lz.bestDist ≤ 65535 ∧
    s.lz.bestLen ≤ s.lz.bestDist ∧
    ∀ j < s.lz.bestLen, s.data[s.inPos - s.lz.bestDist + j]? = s.data[s.inPos + j]?)

/-- The token emitted at a position stands for the bytes it advances past. -/
theorem tokenAt_spec {s : State} (h : MatchReady s) :
    lzToken s.n (s.data.take s.inPos) (tokenAt s).1 = some (s.data.take (s.inPos + (tokenAt s).2)) := by
  obtain ⟨hn, hb, hm⟩ := h
  have hlen : (s.data.take s.inPos).length = s.inPos := by
    rw [List.length_take, length_data]
    omega
  unfold tokenAt
  split
  · rename_i hmm
    obtain ⟨h1, h2, h3, h4, h5⟩ := hm hmm
    have hd : (BitVec.ofNat 16 s.lz.bestDist).toNat = s.lz.bestDist := by rw [BitVec.toNat_ofNat, Nat.mod_eq_of_lt (by omega)]
    have hl : (BitVec.ofNat 16 s.lz.bestLen).toNat = s.lz.bestLen := by rw [BitVec.toNat_ofNat, Nat.mod_eq_of_lt (by omega)]
    simp only [lzToken, hd, hl, hlen]
    rw [if_pos ⟨hn, h1, h2, by omega⟩]
    have hcopy : s.data.take s.inPos ++ (List.range s.lz.bestLen).map
        (fun i => (s.data.take s.inPos).getD (s.inPos - s.lz.bestDist + i % s.lz.bestDist) 0) =
        s.data.take (s.inPos + s.lz.bestLen) := by
      rw [List.take_add]
      congr 1
      apply List.ext_getElem?
      intro i
      by_cases hi : i < s.lz.bestLen
      · have hget : s.inPos + i < s.data.length := by rw [length_data]; omega
        rw [List.getElem?_map, List.getElem?_range hi, Option.map_some, Nat.mod_eq_of_lt (by omega),
          List.getD_eq_getElem?_getD, List.getElem?_take_of_lt (by omega), h5 i hi,
          List.getElem?_take_of_lt hi, List.getElem?_drop, List.getElem?_eq_getElem hget]
        rfl
      · rw [List.getElem?_eq_none (by simp; omega), List.getElem?_eq_none (by simp; omega)]
    rw [hcopy]
    have hlen' : (s.data.take (s.inPos + s.lz.bestLen)).length = s.inPos + s.lz.bestLen := by
      rw [List.length_take, length_data]
      omega
    rw [hlen']
    split
    · rename_i hlt
      have hget : s.inPos + s.lz.bestLen < s.data.length := by rw [length_data]; exact hlt
      rw [matchNext, List.getD_eq_getElem?_getD, List.getElem?_eq_getElem hget, Option.getD_some, ← Nat.add_assoc,
        List.take_succ_eq_append_getElem hget]
    · rename_i hge
      rw [List.take_of_length_le (by rw [length_data]; omega), List.take_of_length_le (by rw [length_data]; omega)]
  · have hget : s.inPos < s.data.length := by rw [length_data]; exact hn
    simp only [lzToken, hlen, if_pos hn]
    rw [List.getD_eq_getElem?_getD, List.getElem?_eq_getElem hget, Option.getD_some,
      List.take_succ_eq_append_getElem hget]

theorem tokenAt_advance (s : State) : 1 ≤ (tokenAt s).2 := by
  unfold tokenAt
  split
  · exact Nat.le_add_left 1 _
  · exact Nat.le_refl 1

theorem tokenAt_ctx (s : State) : (tokenAt s).1.ctx = .lz77Tok := by
  unfold tokenAt
  split <;> rfl

/-- A token and a bound for what follows it stay within the bound for the whole. -/
theorem tokenAt_bound {s : State} (h : MatchReady s) (hmm : 1 ≤ s.params.minMatch) {k : Nat}
    (hk : k ≤ tokenBound s.params.minMatch (s.n - (s.inPos + (tokenAt s).2))) :
    (encode (tokenAt s).1).length + k ≤ tokenBound s.params.minMatch (s.n - s.inPos) := by
  obtain ⟨hn, hb, -⟩ := h
  unfold tokenAt at hk ⊢
  split at hk
  · rename_i hm
    rw [if_pos hm]
    simp only [encode, List.length_cons, List.length_append, length_u16le, List.length_nil]
    unfold tokenBound at hk ⊢
    rw [if_neg (show ¬ s.n - s.inPos = 0 by omega)]
    split at hk
    · split
      · omega
      · split <;> omega
    · split at hk
      · rw [if_pos ‹_›]
        omega
      · rw [if_neg ‹_›]
        split at hk
        · rw [if_pos ‹_›]
          omega
        · rw [if_neg ‹_›]
          omega
  · rename_i hm
    rw [if_neg hm]
    simp only [encode, List.length_cons, List.length_nil]
    unfold tokenBound at hk ⊢
    rw [if_neg (show ¬ s.n - s.inPos = 0 by omega)]
    split at hk
    · split
      · omega
      · split <;> omega
    · split at hk
      · rw [if_pos ‹_›]
        omega
      · rw [if_neg ‹_›]
        split at hk
        · rw [if_pos ‹_›]
          omega
        · rw [if_neg ‹_›]
          omega

/-- The search leaves a match the emitter may use. -/
theorem matchReady_of_search {s : State} (hn : s.inPos < s.n) (hw : s.params.window ≤ 65535) (hmm : 1 ≤ s.params.minMatch) :
    MatchReady { s with lz := search s.data s.params.window s.params.lookahead s.inPos s.lz, phase := .lEmit } := by
  obtain ⟨-, -, -, -, -, -, h⟩ := search_spec s.data s.params.window s.params.lookahead s.inPos s.lz
    (by rw [length_data]; omega)
  have hle := scan_bestLen_le s.data s.params.lookahead s.inPos (min s.inPos s.params.window) 1 { s.lz with bestLen := 0 }
    (Nat.zero_le _)
  rw [length_data] at hle
  refine ⟨hn, hle, fun hm => ?_⟩
  obtain ⟨h1, h2, h3, -⟩ := h (Nat.lt_of_lt_of_le hmm hm)
  refine ⟨h1, by dsimp only; omega, by dsimp only; omega, ?_, h3.2⟩
  have := h3.1
  dsimp only
  omega

/-- Some tokens that stand for what is left of the input, from any position. -/
theorem literals_cover (data : List Byte) (m : Nat) : ∀ p, data.length - p ≤ m → p ≤ data.length →
    lzTokens data.length ((data.drop p).map .lz77Lit) (data.take p) = some data := by
  induction m with
  | zero =>
    intro p hm hp
    have : p = data.length := by omega
    subst this
    simp [lzTokens]
  | succ m ih =>
    intro p hm hp
    rcases Nat.eq_or_lt_of_le hp with rfl | hlt
    · simp [lzTokens]
    · rw [List.drop_eq_getElem_cons hlt, List.map_cons, lzTokens, lzToken, List.length_take, Nat.min_eq_left hp, if_pos hlt,
        Option.bind_some, ← List.take_succ_eq_append_getElem hlt]
      exact ih (p + 1) (by omega) hlt

/-- `LZ77_COMPRESS` from a search: the tokens it still writes stand for what is left of the input. -/
theorem lz77_compress_ends (m : Nat) : ∀ {s : State} {done : List Byte}, s.n - s.inPos ≤ m → s.status = .busy → s.err = none →
    s.phase = .lSearch → Wrote s done → s.outPos ≤ s.params.outCap → s.params.window ≤ 65535 → 1 ≤ s.params.minMatch →
    ∃ tokens : List Instr, (∀ i ∈ tokens, i.ctx = .lz77Tok) ∧
      lzTokens s.n tokens (s.data.take s.inPos) = some s.data ∧
      ∃ t, Ends s t ∧
        ((tokens.flatMap encode).length ≤ tokenBound s.params.minMatch (s.n - s.inPos) ∨ t.status ≠ .done ∧
          s.params.outCap < s.outPos + tokenBound s.params.minMatch (s.n - s.inPos)) ∧
        (t.status = .done → s.outPos + (tokens.flatMap encode).length ≤ s.params.outCap ∧
          Delivers t (done ++ tokens.flatMap encode)) ∧
        (s.outPos + tokenBound s.params.minMatch (s.n - s.inPos) ≤ s.params.outCap → t.status = .done) := by
  induction m with
  | zero =>
    intro s done hm hb he hp hw hc hwin hmm
    have hn : s.n ≤ s.inPos := by omega
    refine ⟨[], by simp, ?_, finish s, ?_, .inl (by simp), ?_, fun _ => rfl⟩
    · rw [lzTokens, List.take_of_length_le (by rw [length_data]; exact hn)]
    · exact Ends.step hb (by rw [engineStep_lSearch_end hp hn]; exact Ends.here (by simp))
    · intro _
      exact ⟨by simpa using hc, by simpa using hw.finish he⟩
  | succ m ih =>
    intro s done hm hb he hp hw hc hwin hmm
    by_cases hn : s.n ≤ s.inPos
    · exact ih (by omega) hb he hp hw hc hwin hmm
    · have hlt : s.inPos < s.n := by omega
      have hstep := engineStep_lSearch hp hlt
      have hready := matchReady_of_search hlt hwin hmm
      rw [← hstep] at hready
      generalize hs1 : engineStep s = s1 at *
      have hs1b : s1.status = .busy := by rw [hstep]; exact hb
      have f1 : s1.n = s.n := by rw [hstep]
      have f2 : s1.inPos = s.inPos := by rw [hstep]
      have f3 : s1.data = s.data := by rw [hstep]; rfl
      have f4 : s1.params = s.params := by rw [hstep]
      have f5 : s1.outPos = s.outPos := by rw [hstep]
      have f6 : s1.out = s.out := by rw [hstep]
      have f7 : s1.err = none := by rw [hstep]; exact he
      have hw1 : Wrote s1 done := ⟨f6.trans hw.1, f5.trans hw.2⟩
      have htok := tokenAt_spec hready
      rw [f1, f2, f3] at htok
      have hadv := tokenAt_advance s1
      have hemit := engineStep_lEmit (s := s1) (by rw [hstep])
      by_cases hfit : s1.outPos + (encode (tokenAt s1).1).length ≤ s1.params.outCap
      · rw [emitAll_ok hfit, Run.going_andThen, Run.state_going] at hemit
        generalize hs2 : engineStep s1 = s2 at *
        have g1 : s2.n = s.n := by rw [hemit]; exact f1
        have g2 : s2.inPos = s.inPos + (tokenAt s1).2 := by rw [hemit, ← f2]; rfl
        have g3 : s2.data = s.data := by rw [hemit]; exact f3
        have g4 : s2.params = s.params := by rw [hemit]; exact f4
        have g5 : s2.outPos = s.outPos + (encode (tokenAt s1).1).length := by rw [hemit, ← f5]; rfl
        obtain ⟨tokens, hu1, hu2, t, ht1, ht2, ht3, ht4⟩ := ih (s := s2) (done := done ++ encode (tokenAt s1).1)
          (by rw [g1, g2]; omega) (by rw [hemit]; exact hs1b) (by rw [hemit]; exact f7) (by rw [hemit])
          (by rw [hemit]; exact hw1.putAll _) (by rw [g5, g4, ← f4, ← f5]; exact hfit) (by rw [g4]; exact hwin)
          (by rw [g4]; exact hmm)
        rw [g1, g2, g3] at hu2
        rw [g1, g2, g4] at ht2 ht4
        rw [g5] at ht2 ht3 ht4
        rw [g4] at ht3
        have hbound : ∀ k, k ≤ tokenBound s.params.minMatch (s.n - (s.inPos + (tokenAt s1).2)) →
            (encode (tokenAt s1).1).length + k ≤ tokenBound s.params.minMatch (s.n - s.inPos) := by
          intro k hk
          have := tokenAt_bound hready (by rw [f4]; exact hmm) (k := k) (by rw [f1, f2, f4]; exact hk)
          rw [f1, f2, f4] at this
          exact this
        refine ⟨(tokenAt s1).1 :: tokens, ?_, ?_, t, ?_, ?_, ?_, ?_⟩
        · intro i hi
          rcases List.mem_cons.1 hi with rfl | hi
          · exact tokenAt_ctx s1
          · exact hu1 i hi
        · rw [lzTokens, htok, Option.bind_some]
          exact hu2
        · exact Ends.step hb (hs1 ▸ Ends.step hs1b (hs2 ▸ ht1))
        · rcases ht2 with h | ⟨h, h'⟩
          · refine .inl ?_
            rw [List.flatMap_cons, List.length_append]
            exact hbound _ h
          · have := hbound _ (Nat.le_refl _)
            exact .inr ⟨h, by omega⟩
        · intro hd
          obtain ⟨h1, h2⟩ := ht3 hd
          rw [List.flatMap_cons, List.length_append]
          refine ⟨by omega, ?_⟩
          rw [← List.append_assoc]
          exact h2
        · intro hf
          have := hbound _ (Nat.le_refl _)
          exact ht4 (by omega)
      · rw [emitAll_full (by rw [f4, f5]; exact hc) (by omega), Run.ended_andThen, Run.state_ended] at hemit
        have hbound := tokenAt_bound hready (by rw [f4]; exact hmm) (k := 0) (Nat.zero_le _)
        rw [f1, f2, f4] at hbound
        rw [f4, f5] at hfit
        have hend : (engineStep s1).status = .error := by rw [hemit]; rfl
        refine ⟨(s.data.drop s.inPos).map .lz77Lit, ?_, ?_, engineStep s1, ?_, .inr ⟨by rw [hend]; decide, by omega⟩, ?_, ?_⟩
        · intro i hi
          obtain ⟨b, -, rfl⟩ := List.mem_map.1 hi
          rfl
        · have := literals_cover s.data s.n s.inPos (by rw [length_data]; omega) (by rw [length_data]; omega)
          rwa [length_data] at this
        · refine Ends.step hb ?_
          rw [hs1]
          exact Ends.step hs1b (Ends.here (by rw [hend]; decide))
        · intro hd
          rw [hend] at hd
          cases hd
        · intro hf
          omega

end Sys2Proof.Machine
end

