-- ==== Sys2Proof/Laws/HuffTree.lean ====
section
/-! SUPPORT. The tree builder: what the queue hands out, what a merge does, and what stands when the loop ends
(41_huffman_encoder.md R154 to R159). -/

namespace Sys2Proof.Machine

/-! ## The queue -/

/-- The order of R156. -/
abbrev Prec (node : List Node) (i j : Nat) : Prop :=
  weight node i < weight node j ∨ weight node i = weight node j ∧ i < j

theorem before_iff (node : List Node) (i j : Nat) : before node i j = true ↔ Prec node i j := by
  simp [before]

theorem Prec.total {node : List Node} {i j : Nat} (h : i ≠ j) (hn : ¬ Prec node i j) : Prec node j i := by
  unfold Prec at *
  omega

theorem Prec.trans {node : List Node} {i j k : Nat} (h : Prec node i j) (h' : Prec node j k) : Prec node i k := by
  unfold Prec at *
  omega

/-- The queue hands out an alive node that comes before all the others. -/
theorem firstAlive_spec (node : List Node) (alive : List Nat) (h : alive ≠ []) :
    ∃ i, firstAlive node alive = some i ∧ i ∈ alive ∧ ∀ j ∈ alive, j ≠ i → Prec node i j := by
  induction alive with
  | nil => exact absurd rfl h
  | cons x xs ih =>
    by_cases hx : xs = []
    · subst hx
      exact ⟨x, rfl, by simp, by simp⟩
    · obtain ⟨i, h1, h2, h3⟩ := ih hx
      simp only [firstAlive, h1]
      by_cases hb : before node x i = true
      · rw [if_pos hb]
        refine ⟨x, rfl, by simp, ?_⟩
        intro j hj hne
        rcases List.mem_cons.1 hj with rfl | hj
        · exact absurd rfl hne
        · by_cases hji : j = i
          · subst hji
            exact (before_iff _ _ _).1 hb
          · exact ((before_iff _ _ _).1 hb).trans (h3 j hj hji)
      · rw [if_neg hb]
        refine ⟨i, rfl, by simp [h2], ?_⟩
        intro j hj hne
        rcases List.mem_cons.1 hj with rfl | hj
        · exact Prec.total hne (fun h => hb ((before_iff _ _ _).2 h))
        · exact h3 j hj hne

/-- What is left of the queue when one node is taken out. -/
theorem popMin_spec {node : List Node} {alive : List Nat} (h : alive ≠ []) :
    ∃ i ∈ alive, popMin node alive = some (i, alive.erase i) ∧ ∀ j ∈ alive, j ≠ i → Prec node i j := by
  obtain ⟨i, h1, h2, h3⟩ := firstAlive_spec node alive h
  exact ⟨i, h2, by rw [popMin, h1, Option.map_some], h3⟩

/-- One turn of the merge loop takes two alive nodes and puts their parent in (R157). -/
theorem mergeStep_takes (node : List Node) (alive : List Nat) (hd : alive.Nodup) (h2 : 2 ≤ alive.length) :
    ∃ a ∈ alive, ∃ b ∈ alive, a ≠ b ∧
      mergeStep node alive = some
        (node ++ [Node.internal (weight node a + weight node b) a b],
         alive.filter (fun i => i ≠ a ∧ i ≠ b) ++ [node.length]) := by
  obtain ⟨a, ham, ha, -⟩ := popMin_spec (node := node) (alive := alive) (by rintro rfl; simp at h2)
  have hne : alive.erase a ≠ [] := by
    intro h
    have := List.length_erase_of_mem ham
    rw [h, List.length_nil] at this
    omega
  obtain ⟨b, hbm, hb, -⟩ := popMin_spec (node := node) hne
  have hbm' := (hd.mem_erase_iff).1 hbm
  refine ⟨a, ham, b, hbm'.2, fun h => hbm'.1 h.symm, ?_⟩
  simp only [mergeStep, ha, hb]
  rw [(hd.erase a).erase_eq_filter, hd.erase_eq_filter, List.filter_filter]
  congr 4
  funext i
  by_cases h1 : i = a <;> by_cases h2 : i = b <;> simp [h1, h2]

theorem mergeStep_short (node : List Node) (alive : List Nat) (h : alive.length < 2) : mergeStep node alive = none := by
  match alive with
  | [] => rfl
  | [a] => simp [mergeStep, popMin, firstAlive]
  | a :: b :: r => simp at h

/-! ## Weights -/

theorem weight_append (node : List Node) (x : Node) {i : Nat} (h : i < node.length) : weight (node ++ [x]) i = weight node i := by
  simp [weight, List.getElem?_append_left h]

theorem weight_last (node : List Node) (x : Node) : weight (node ++ [x]) node.length = nodeF x := by
  simp [weight]

/-! ## Traversal -/

/-- Children come before their parent in the arena. -/
def Closed (node : List Node) : Prop := ∀ i f l r, node[i]? = some (Node.internal f l r) → l < i ∧ r < i

theorem visit_fuel {node : List Node} (hc : Closed node) : ∀ {f1 f2 i : Nat} {path : List Bool}, i < f1 → i < f2 →
    visit node f1 i path = visit node f2 i path := by
  intro f1
  induction f1 with
  | zero => intro f2 i path h; omega
  | succ f1 ih =>
    intro f2 i path h1 h2
    obtain ⟨f2, rfl⟩ : ∃ k, f2 = k + 1 := ⟨f2 - 1, by omega⟩
    simp only [visit]
    split
    · rfl
    · rfl
    · rename_i f l r hn
      obtain ⟨hl, hr⟩ := hc _ _ _ _ hn
      rw [ih (f2 := f2) (by omega) (by omega), ih (f2 := f2) (i := r) (by omega) (by omega)]

theorem visit_append {node : List Node} (hc : Closed node) (x : Node) : ∀ {f i : Nat} {path : List Bool}, i < node.length →
    visit (node ++ [x]) f i path = visit node f i path := by
  intro f
  induction f with
  | zero => intros; rfl
  | succ f ih =>
    intro i path h
    simp only [visit]
    rw [List.getElem?_append_left h]
    split
    · rfl
    · rfl
    · rename_i g l r hn
      obtain ⟨hl, hr⟩ := hc _ _ _ _ hn
      rw [ih (by omega), ih (i := r) (by omega)]

theorem visit_path (node : List Node) : ∀ (f i : Nat) (path : List Bool),
    visit node f i path = (visit node f i []).map (fun e => (e.1, path ++ e.2)) := by
  intro f
  induction f with
  | zero => intros; rfl
  | succ f ih =>
    intro i path
    simp only [visit]
    split
    · rfl
    · simp
    · rename_i g l r hn
      rw [ih l, ih r, ih l ([] ++ [false]), ih r ([] ++ [true])]
      simp [Function.comp_def]

/-- The symbols below node `i`, left first. -/
def below (node : List Node) (i : Nat) : List Byte := (visit node (i + 1) i []).map Prod.fst

theorem below_append {node : List Node} (hc : Closed node) (x : Node) {i : Nat} (h : i < node.length) :
    below (node ++ [x]) i = below node i := by
  rw [below, visit_append hc x h, below]

theorem below_internal {node : List Node} (hc : Closed node) {i f l r : Nat} (hn : node[i]? = some (.internal f l r)) :
    below node i = below node l ++ below node r := by
  obtain ⟨hl, hr⟩ := hc _ _ _ _ hn
  rw [below, visit, hn]
  simp only [List.nil_append, List.map_append]
  rw [visit_path node _ l [false], visit_path node _ r [true], visit_fuel hc (f1 := i) (f2 := l + 1) hl (by omega),
    visit_fuel hc (f1 := i) (f2 := r + 1) hr (by omega)]
  simp [below, Function.comp_def]

/-! ## The forest -/

/-- `SYM` of a node. -/
def nodeSym : Node → Byte
  | .leaf sym _ => sym
  | .internal _ _ _ => 0

/-- Node `j` is the parent of node `i`. -/
def Parent (node : List Node) (j i : Nat) : Prop := ∃ f l r, node[j]? = some (.internal f l r) ∧ (i = l ∨ i = r)

/-- What holds between the turns of the merge loop. -/
structure Forest (leaves node : List Node) (alive : List Nat) : Prop where
  leafs : ∀ x ∈ leaves, ∃ sym f, x = .leaf sym f
  head : node.take leaves.length = leaves
  inner : ∀ i, leaves.length ≤ i → i < node.length →
    ∃ l r, node[i]? = some (.internal (weight node l + weight node r) l r) ∧ l < i ∧ r < i ∧ l ≠ r
  nodup : alive.Nodup
  bound : ∀ i ∈ alive, i < node.length
  last : node.length - 1 ∈ alive
  count : node.length + alive.length = 2 * leaves.length
  total : (alive.map (weight node)).sum = (leaves.map nodeF).sum
  syms : (alive.flatMap (below node)).Perm (leaves.map nodeSym)
  free : ∀ i ∈ alive, ∀ j, ¬ Parent node j i
  taken : ∀ i < node.length, i ∉ alive → ∃ j, Parent node j i
  once : ∀ i j j', Parent node j i → Parent node j' i → j = j'

variable {leaves node : List Node} {alive : List Nat}

theorem Forest.leaf_of_lt (h : Forest leaves node alive) {i : Nat} (hi : i < leaves.length) : node[i]? = leaves[i]? := by
  conv => rhs; rw [← h.head]
  rw [List.getElem?_take, if_pos hi]

theorem Forest.of_leaf (h : Forest leaves node alive) {i : Nat} {sym : Byte} {f : Nat} (hn : node[i]? = some (.leaf sym f)) :
    i < leaves.length ∧ leaves[i]? = some (.leaf sym f) := by
  by_cases hi : i < leaves.length
  · exact ⟨hi, by rw [← h.leaf_of_lt hi, hn]⟩
  · have hlt : i < node.length := by
      by_contra hx
      rw [List.getElem?_eq_none (by omega)] at hn
      cases hn
    obtain ⟨l, r, h1, -⟩ := h.inner i (by omega) hlt
    rw [h1] at hn
    cases hn

theorem Forest.of_internal (h : Forest leaves node alive) {i f l r : Nat} (hn : node[i]? = some (.internal f l r)) :
    leaves.length ≤ i ∧ l < i ∧ r < i ∧ l ≠ r ∧ f = weight node l + weight node r := by
  have hlt : i < node.length := by
    by_contra hx
    rw [List.getElem?_eq_none (by omega)] at hn
    cases hn
  have hi : leaves.length ≤ i := by
    by_contra hi
    rw [h.leaf_of_lt (by omega)] at hn
    obtain ⟨sym, g, hx⟩ := h.leafs _ (List.mem_of_getElem? hn)
    cases hx
  obtain ⟨l', r', h1, h2, h3, h4⟩ := h.inner i hi hlt
  rw [hn] at h1
  cases h1
  exact ⟨hi, h2, h3, h4, rfl⟩

theorem Forest.closed (h : Forest leaves node alive) : Closed node := by
  intro i f l r hn
  obtain ⟨-, h1, h2, -⟩ := h.of_internal hn
  exact ⟨h1, h2⟩

theorem Forest.init {leaves : List Node} (h0 : leaves ≠ []) (hl : ∀ x ∈ leaves, ∃ sym f, x = .leaf sym f) :
    Forest leaves leaves (List.range leaves.length) := by
  have hpos : 0 < leaves.length := List.length_pos_iff.2 h0
  have hno : ∀ j i, ¬ Parent leaves j i := by
    rintro j i ⟨f, l, r, hn, -⟩
    obtain ⟨sym, g, hx⟩ := hl _ (List.mem_of_getElem? hn)
    cases hx
  refine ⟨hl, by simp, fun i h1 h2 => by omega, List.nodup_range, by simp, by simp; omega, by simp; omega, ?_, ?_,
    fun i _ j => hno j i, fun i hi h => absurd (List.mem_range.2 hi) h, fun i j j' h => absurd h (hno j i)⟩
  · congr 1
    apply List.ext_getElem
    · simp
    · intro i h1 h2
      have : i < leaves.length := by simpa using h1
      simp [weight, this]
  · have : (List.range leaves.length).flatMap (below leaves) = leaves.map nodeSym := by
      have hb : ∀ i ∈ List.range leaves.length, below leaves i = [nodeSym (leaves.getD i (.leaf 0 0))] := by
        intro i hi
        have hi := List.mem_range.1 hi
        have hg : leaves[i]? = some leaves[i] := List.getElem?_eq_getElem hi
        obtain ⟨sym, g, hx⟩ := hl _ (List.getElem_mem hi)
        rw [below, visit, List.getD_eq_getElem?_getD, hg, hx]
        rfl
      rw [List.flatMap_congr hb, ← List.map_eq_flatMap]
      apply List.ext_getElem
      · simp
      · intro i h1 h2
        have : i < leaves.length := by simpa using h1
        simp [this]
    rw [this]

theorem perm_two {a b : Nat} {alive : List Nat} (hd : alive.Nodup) (ha : a ∈ alive) (hb : b ∈ alive) (hab : a ≠ b) :
    alive.Perm (a :: b :: alive.filter (fun i => i ≠ a ∧ i ≠ b)) := by
  rw [List.perm_ext_iff_of_nodup hd]
  · intro i
    simp only [List.mem_cons, List.mem_filter, decide_eq_true_eq]
    constructor
    · intro hi
      by_cases h1 : i = a
      · exact .inl h1
      · by_cases h2 : i = b
        · exact .inr (.inl h2)
        · exact .inr (.inr ⟨hi, h1, h2⟩)
    · rintro (rfl | rfl | h)
      · exact ha
      · exact hb
      · exact h.1
  · simp [hab, hd.filter]

theorem Forest.step (h : Forest leaves node alive) {a b : Nat} (ha : a ∈ alive) (hb : b ∈ alive) (hab : a ≠ b) :
    Forest leaves (node ++ [Node.internal (weight node a + weight node b) a b])
      (alive.filter (fun i => i ≠ a ∧ i ≠ b) ++ [node.length]) := by
  have hperm := perm_two h.nodup ha hb hab
  have hal := h.bound a ha
  have hbl := h.bound b hb
  have hlen := hperm.length_eq
  have hle : leaves.length ≤ node.length := by
    have := congrArg List.length h.head
    rw [List.length_take] at this
    omega
  have hclosed : Closed (node ++ [Node.internal (weight node a + weight node b) a b]) := by
    intro i f l r hn
    by_cases hi : i < node.length
    · rw [List.getElem?_append_left hi] at hn
      exact h.closed _ _ _ _ hn
    · have : i = node.length := by
        by_contra hx
        rw [List.getElem?_eq_none (by simp; omega)] at hn
        cases hn
      subst this
      simp at hn
      omega
  have hpar : ∀ j i, Parent (node ++ [Node.internal (weight node a + weight node b) a b]) j i ↔
      Parent node j i ∨ j = node.length ∧ (i = a ∨ i = b) := by
    intro j i
    unfold Parent
    by_cases hj : j < node.length
    · rw [List.getElem?_append_left hj]
      constructor
      · exact .inl
      · rintro (h | h)
        · exact h
        · omega
    · constructor
      · rintro ⟨f, l, r, hn, hi⟩
        have : j = node.length := by
          by_contra hx
          rw [List.getElem?_eq_none (by simp; omega)] at hn
          cases hn
        subst this
        simp at hn
        obtain ⟨-, rfl, rfl⟩ := hn
        exact .inr ⟨rfl, hi⟩
      · rintro (⟨f, l, r, hn, hi⟩ | ⟨rfl, hi⟩)
        · rw [List.getElem?_eq_none (by omega)] at hn
          cases hn
        · exact ⟨weight node a + weight node b, a, b, by simp, hi⟩
  have hparlt : ∀ j i, Parent node j i → j < node.length ∧ i < node.length := by
    rintro j i ⟨f, l, r, hn, hi⟩
    have hj : j < node.length := by
      by_contra hx
      rw [List.getElem?_eq_none (by omega)] at hn
      cases hn
    obtain ⟨-, h1, h2, -⟩ := h.of_internal hn
    exact ⟨hj, by rcases hi with rfl | rfl <;> omega⟩
  have hmem : ∀ i, i ∈ alive.filter (fun i => i ≠ a ∧ i ≠ b) ++ [node.length] ↔
      (i ∈ alive ∧ i ≠ a ∧ i ≠ b) ∨ i = node.length := by
    intro i
    simp
  refine ⟨h.leafs, ?_, ?_, ?_, ?_, ?_, ?_, ?_, ?_, ?_, ?_, ?_⟩
  · rw [List.take_append_of_le_length hle, h.head]
  · intro i h1 h2
    simp only [List.length_append, List.length_cons, List.length_nil] at h2
    by_cases hi : i < node.length
    · obtain ⟨l, r, g1, g2, g3, g4⟩ := h.inner i h1 hi
      refine ⟨l, r, ?_, g2, g3, g4⟩
      rw [List.getElem?_append_left hi, weight_append _ _ (by omega), weight_append _ _ (by omega), g1]
    · have : i = node.length := by omega
      subst this
      refine ⟨a, b, ?_, hal, hbl, hab⟩
      rw [weight_append _ _ hal, weight_append _ _ hbl]
      simp
  · rw [List.nodup_append]
    refine ⟨h.nodup.filter _, by simp, ?_⟩
    intro x hx y hy
    have h1 := h.bound x (List.mem_filter.1 hx).1
    have h2 := List.mem_singleton.1 hy
    omega
  · intro i hi
    rw [List.length_append]
    rcases (hmem i).1 hi with hi | hi
    · have := h.bound i hi.1
      simp; omega
    · simp [hi]
  · rw [hmem]
    right
    simp
  · have := h.count
    simp only [List.length_append, List.length_cons, List.length_nil] at hlen ⊢
    omega
  · rw [List.map_append, List.sum_append, ← h.total, (hperm.map (weight node)).sum_eq]
    have : (alive.filter (fun i => i ≠ a ∧ i ≠ b)).map
        (weight (node ++ [Node.internal (weight node a + weight node b) a b])) =
        (alive.filter (fun i => i ≠ a ∧ i ≠ b)).map (weight node) := by
      apply List.map_congr_left
      intro i hi
      exact weight_append _ _ (h.bound i (List.mem_filter.1 hi).1)
    rw [this]
    simp only [List.map_cons, List.map_nil, List.sum_cons, List.sum_nil, weight_last, nodeF]
    omega
  · refine List.Perm.trans ?_ h.syms
    refine List.Perm.trans ?_ (hperm.flatMap_right (below node)).symm
    rw [List.flatMap_append]
    have : (alive.filter (fun i => i ≠ a ∧ i ≠ b)).flatMap
        (below (node ++ [Node.internal (weight node a + weight node b) a b])) =
        (alive.filter (fun i => i ≠ a ∧ i ≠ b)).flatMap (below node) := by
      apply List.flatMap_congr
      intro i hi
      exact below_append h.closed _ (h.bound i (List.mem_filter.1 hi).1)
    rw [this]
    simp only [List.flatMap_cons, List.flatMap_nil, List.append_nil]
    rw [below_internal hclosed (i := node.length) (f := weight node a + weight node b) (l := a) (r := b) (by simp),
      below_append h.closed _ hal, below_append h.closed _ hbl]
    refine List.perm_append_comm.trans ?_
    rw [List.append_assoc]
  · intro i hi j hp
    rcases (hpar j i).1 hp with hp | ⟨-, hp'⟩
    · rcases (hmem i).1 hi with hi | hi
      · exact h.free i hi.1 j hp
      · have := (hparlt j i hp).2
        omega
    · rcases (hmem i).1 hi with hi | hi
      · rcases hp' with hp' | hp'
        · exact hi.2.1 hp'
        · exact hi.2.2 hp'
      · rcases hp' with hp' | hp' <;> omega
  · intro i hi hni
    rw [hmem] at hni
    simp only [List.length_append, List.length_cons, List.length_nil] at hi
    by_cases h1 : i = a
    · exact ⟨node.length, (hpar _ _).2 (.inr ⟨rfl, .inl h1⟩)⟩
    · by_cases h2 : i = b
      · exact ⟨node.length, (hpar _ _).2 (.inr ⟨rfl, .inr h2⟩)⟩
      · obtain ⟨j, hj⟩ := h.taken i (by omega) (fun hx => hni (.inl ⟨hx, h1, h2⟩))
        exact ⟨j, (hpar _ _).2 (.inl hj)⟩
  · intro i j j' hj hj'
    rcases (hpar j i).1 hj with g | ⟨g1, g2⟩ <;> rcases (hpar j' i).1 hj' with g' | ⟨g1', g2'⟩
    · exact h.once i j j' g g'
    · rcases g2' with e | e
      · exact absurd (e ▸ g) (h.free _ ha j)
      · exact absurd (e ▸ g) (h.free _ hb j)
    · rcases g2 with e | e
      · exact absurd (e ▸ g') (h.free _ ha j')
      · exact absurd (e ▸ g') (h.free _ hb j')
    · rw [g1, g1']

/-- The merge loop ends with one node alive, the last of the arena. -/
theorem mergeAll_spec : ∀ {fuel : Nat} {node : List Node} {alive : List Nat}, Forest leaves node alive → alive.length ≤ fuel + 1 →
    ∃ node', mergeAll fuel node alive = (node', [2 * leaves.length - 2]) ∧
      Forest leaves node' [2 * leaves.length - 2] := by
  intro fuel
  induction fuel with
  | zero =>
    intro node alive h hf
    have hone : alive = [node.length - 1] := by
      match alive, h.last, hf with
      | [], hl, _ => simp at hl
      | [x], hl, _ => simp at hl; rw [hl]
    have hc := h.count
    rw [hone] at hc
    simp only [List.length_cons, List.length_nil] at hc
    have : alive = [2 * leaves.length - 2] := by rw [hone]; congr 1; omega
    subst this
    exact ⟨node, rfl, h⟩
  | succ fuel ih =>
    intro node alive h hf
    by_cases h2 : 2 ≤ alive.length
    · obtain ⟨a, ha, b, hb, hab, hs⟩ := mergeStep_takes node alive h.nodup h2
      simp only [mergeAll, hs]
      refine ih (h.step ha hb hab) ?_
      have := (perm_two h.nodup ha hb hab).length_eq
      simp only [List.length_append, List.length_cons, List.length_nil] at this ⊢
      omega
    · simp only [mergeAll, mergeStep_short node alive (by omega)]
      have hone : alive = [node.length - 1] := by
        match alive, h.last, h2 with
        | [], hl, _ => simp at hl
        | [x], hl, _ => simp at hl; rw [hl]
        | x :: y :: r, _, h2 => simp at h2
      have hc := h.count
      rw [hone] at hc
      simp only [List.length_cons, List.length_nil] at hc
      have : alive = [2 * leaves.length - 2] := by rw [hone]; congr 1; omega
      subst this
      exact ⟨node, rfl, h⟩

end Sys2Proof.Machine
end

