-- ==== Sys2Proof/Laws/HuffCode.lean ====
section
/-! SUPPORT. Frequencies, leaves and codes: what the counter counts, which leaves are seeded, and what the code table holds
(41_huffman_encoder.md R151 to R163). -/

namespace Sys2Proof.Machine

/-! ## Counting -/

theorem byte_lt (b : Byte) : b.toNat < 256 := b.isLt

theorem getD_set_nat (l : List Nat) (i j v : Nat) (h : i < l.length) :
    (l.set i v).getD j 0 = if j = i then v else l.getD j 0 := by
  simp only [List.getD_eq_getElem?_getD, List.getElem?_set]
  by_cases hj : i = j
  · subst hj; simp [h]
  · simp [hj, Ne.symm hj]

theorem length_countBytes_from (data : List Byte) (freq : List Nat) :
    (data.foldl countByte freq).length = freq.length := by
  induction data generalizing freq with
  | nil => rfl
  | cons x xs ih => rw [List.foldl_cons, ih]; simp [countByte]

@[simp] theorem length_countBytes (data : List Byte) : (countBytes data).length = 256 := by
  rw [countBytes, length_countBytes_from]; exact List.length_replicate

theorem getD_countBytes_from (data : List Byte) (freq : List Nat) (h : freq.length = 256) (b : Byte) :
    (data.foldl countByte freq).getD b.toNat 0 = freq.getD b.toNat 0 + data.count b := by
  induction data generalizing freq with
  | nil => simp
  | cons x xs ih =>
    rw [List.foldl_cons, ih _ (by simp [countByte, h]), countByte, getD_set_nat _ _ _ _ (by rw [h]; exact byte_lt x),
      List.count_cons]
    by_cases hx : x = b
    · subst hx; simp; omega
    · have : ¬ b.toNat = x.toNat := fun h => hx (BitVec.eq_of_toNat_eq h.symm)
      simp [hx, this]

theorem getD_countBytes (data : List Byte) (b : Byte) : (countBytes data).getD b.toNat 0 = data.count b := by
  have h0 : ∀ i, (List.replicate 256 0).getD i 0 = 0 := by
    intro i
    rw [List.getD_eq_getElem?_getD, List.getElem?_replicate]
    split <;> rfl
  rw [countBytes, getD_countBytes_from _ _ List.length_replicate, h0, Nat.zero_add]

theorem sum_set_succ (l : List Nat) (i : Nat) (h : i < l.length) : (l.set i (l.getD i 0 + 1)).sum = l.sum + 1 := by
  induction l generalizing i with
  | nil => simp at h
  | cons x xs ih =>
    cases i with
    | zero => simp; omega
    | succ i =>
      simp only [List.set_cons_succ, List.sum_cons, List.getD_cons_succ]
      rw [ih i (by simpa using h)]
      omega

theorem sum_countBytes_from (data : List Byte) (freq : List Nat) (h : freq.length = 256) :
    (data.foldl countByte freq).sum = freq.sum + data.length := by
  induction data generalizing freq with
  | nil => simp
  | cons x xs ih =>
    rw [List.foldl_cons, ih _ (by simp [countByte, h]), countByte, sum_set_succ _ _ (by rw [h]; exact byte_lt x),
      List.length_cons]
    omega

theorem sum_countBytes (data : List Byte) : (countBytes data).sum = data.length := by
  rw [countBytes, sum_countBytes_from _ _ List.length_replicate]
  have : (List.replicate 256 0).sum = 0 := by rw [List.sum_replicate]; rfl
  omega

/-! ## The payload length -/

theorem zipSum_set_succ (f : List Nat) (c : List (List Bool)) (i : Nat) (hf : i < f.length) (hc : i < c.length) :
    (List.zipWith (fun f c => f * c.length) (f.set i (f.getD i 0 + 1)) c).sum =
      (List.zipWith (fun f (c : List Bool) => f * c.length) f c).sum + (c.getD i []).length := by
  induction f generalizing i c with
  | nil => simp at hf
  | cons x xs ih =>
    cases c with
    | nil => simp at hc
    | cons y ys =>
      cases i with
      | zero => simp [Nat.add_mul]; omega
      | succ i =>
        simp only [List.set_cons_succ, List.zipWith_cons_cons, List.sum_cons, List.getD_cons_succ]
        rw [ih ys i (by simpa using hf) (by simpa using hc)]
        omega

theorem payloadLength_count_from (data : List Byte) (freq : List Nat) (code : List (List Bool)) (hf : freq.length = 256)
    (hc : code.length = 256) : payloadLength (data.foldl countByte freq) code =
      payloadLength freq code + (data.flatMap (codeOf code)).length := by
  induction data generalizing freq with
  | nil => simp
  | cons x xs ih =>
    rw [List.foldl_cons, ih _ (by simp [countByte, hf]), payloadLength, countByte,
      zipSum_set_succ _ _ _ (by rw [hf]; exact byte_lt x) (by rw [hc]; exact byte_lt x), List.flatMap_cons, List.length_append]
    rw [payloadLength, codeOf]
    omega

/-- The payload length is the length of the coded input (R163, R168). -/
theorem payloadLength_count (data : List Byte) (code : List (List Bool)) (hc : code.length = 256) :
    payloadLength (countBytes data) code = (data.flatMap (codeOf code)).length := by
  rw [countBytes, payloadLength_count_from _ _ _ List.length_replicate hc]
  have : payloadLength (List.replicate 256 0) code = 0 := by
    rw [payloadLength, List.sum_eq_zero]
    intro x hx
    obtain ⟨i, h1, h2⟩ := List.getElem_of_mem hx
    rw [List.getElem_zipWith, List.getElem_replicate, Nat.zero_mul] at h2
    exact h2.symm
  omega

/-- The payload length as a sum over the byte values (R163). -/
theorem payloadLength_range (freq : List Nat) (code : List (List Bool)) (hf : freq.length = 256) (hc : code.length = 256) :
    payloadLength freq code = ((List.range 256).map (fun b => freq.getD b 0 * (code.getD b []).length)).sum := by
  rw [payloadLength]
  congr 1
  apply List.ext_getElem
  · simp [hf, hc]
  · intro i h1 h2
    have : i < 256 := by simpa using h2
    simp [List.getD_eq_getElem?_getD, hf, hc, this]

/-! ## The leaves -/

/-- `occurring` from byte value `n` on. -/
def occFrom (n : Nat) (freq : List Nat) : List (Byte × Nat) :=
  (freq.zipIdx n).filterMap (fun p => if 0 < p.1 then some (BitVec.ofNat 8 p.2, p.1) else none)

theorem occurring_eq (freq : List Nat) : occurring freq = occFrom 0 freq := rfl

@[simp] theorem occFrom_nil (n : Nat) : occFrom n [] = [] := rfl

theorem occFrom_cons (n x : Nat) (xs : List Nat) :
    occFrom n (x :: xs) = if 0 < x then (BitVec.ofNat 8 n, x) :: occFrom (n + 1) xs else occFrom (n + 1) xs := by
  simp only [occFrom, List.zipIdx_cons, List.filterMap_cons]
  by_cases h : 0 < x <;> simp [h]

theorem occFrom_append (n : Nat) (xs ys : List Nat) : occFrom n (xs ++ ys) = occFrom n xs ++ occFrom (n + xs.length) ys := by
  simp only [occFrom, List.zipIdx_append, List.filterMap_append]

theorem length_occFrom (n : Nat) (xs : List Nat) : (occFrom n xs).length = (xs.filter (fun f => 0 < f)).length := by
  induction xs generalizing n with
  | nil => rfl
  | cons x xs ih => rw [occFrom_cons]; by_cases h : 0 < x <;> simp [h, ih]

theorem sum_occFrom (n : Nat) (xs : List Nat) : ((occFrom n xs).map Prod.snd).sum = xs.sum := by
  induction xs generalizing n with
  | nil => rfl
  | cons x xs ih =>
    rw [occFrom_cons]
    by_cases h : 0 < x
    · simp [h, ih]
    · simp [ih, (show x = 0 by omega)]

theorem mem_occFrom {n : Nat} {xs : List Nat} (h : n + xs.length ≤ 256) {b : Byte} {f : Nat} :
    (b, f) ∈ occFrom n xs ↔ n ≤ b.toNat ∧ xs[b.toNat - n]? = some f ∧ 0 < f := by
  induction xs generalizing n with
  | nil => simp
  | cons x xs ih =>
    simp only [List.length_cons] at h
    have hx : (b, f) ∈ occFrom n (x :: xs) ↔ (b = BitVec.ofNat 8 n ∧ f = x ∧ 0 < x) ∨ (b, f) ∈ occFrom (n + 1) xs := by
      rw [occFrom_cons]
      by_cases h : 0 < x <;> simp [h]
    rw [hx, ih (by omega)]
    have hb : b = BitVec.ofNat 8 n ↔ b.toNat = n := by
      constructor
      · rintro rfl
        rw [BitVec.toNat_ofNat, Nat.mod_eq_of_lt (by omega)]
      · intro h
        rw [← h]; simp
    rw [hb]
    constructor
    · rintro (⟨h1, rfl, h2⟩ | ⟨h1, h2, h3⟩)
      · simp [h1, h2]
      · obtain ⟨k, hk⟩ : ∃ k, b.toNat - n = k + 1 := ⟨b.toNat - n - 1, by omega⟩
        refine ⟨by omega, ?_, h3⟩
        rw [hk, List.getElem?_cons_succ, ← h2]
        congr 1; omega
    · rintro ⟨h1, h2, h3⟩
      by_cases hn : b.toNat = n
      · rw [hn, Nat.sub_self] at h2
        simp at h2
        exact .inl ⟨hn, h2.symm, by omega⟩
      · obtain ⟨k, hk⟩ : ∃ k, b.toNat - n = k + 1 := ⟨b.toNat - n - 1, by omega⟩
        rw [hk, List.getElem?_cons_succ] at h2
        refine .inr ⟨by omega, ?_, h3⟩
        rw [← h2]
        congr 1; omega

theorem occFrom_ascending {n : Nat} {xs : List Nat} (h : n + xs.length ≤ 256) :
    (occFrom n xs).Pairwise (fun x y => x.1.toNat < y.1.toNat) := by
  induction xs generalizing n with
  | nil => simp
  | cons x xs ih =>
    simp only [List.length_cons] at h
    have := ih (n := n + 1) (by omega)
    rw [occFrom_cons]
    split
    · refine List.pairwise_cons.2 ⟨?_, this⟩
      rintro ⟨b, f⟩ hb
      have := ((mem_occFrom (by omega)).1 hb).1
      simp only [BitVec.toNat_ofNat]
      omega
    · exact this

theorem occurring_nodup {freq : List Nat} (h : freq.length = 256) : ((occurring freq).map Prod.fst).Nodup := by
  rw [List.nodup_iff_pairwise_ne, List.pairwise_map]
  refine (occFrom_ascending (n := 0) (by omega)).imp ?_
  intro a b hab he
  rw [he] at hab
  omega

theorem mem_occurring {freq : List Nat} (h : freq.length = 256) {b : Byte} {f : Nat} :
    (b, f) ∈ occurring freq ↔ freq[b.toNat]? = some f ∧ 0 < f := by
  rw [occurring_eq, mem_occFrom (by omega)]
  simp

theorem length_occurring (freq : List Nat) : (occurring freq).length = (freq.filter (fun f => 0 < f)).length :=
  length_occFrom 0 freq

theorem occurring_le {freq : List Nat} (h : freq.length = 256) : (occurring freq).length ≤ 256 := by
  rw [length_occurring, ← h]
  exact List.length_filter_le _ _

theorem occurring_pos {freq : List Nat} (h : 0 < freq.sum) : 1 ≤ (occurring freq).length := by
  by_contra hn
  have hz : occurring freq = [] := List.length_eq_zero_iff.1 (by omega)
  have := sum_occFrom 0 freq
  rw [← occurring_eq, hz] at this
  simp at this
  omega

/-- The leaf of a byte value stands at the number of byte values below it that occur (R155). -/
theorem occurring_index {freq : List Nat} (h : freq.length = 256) {i : Nat} {b : Byte} {f : Nat}
    (hi : (occurring freq)[i]? = some (b, f)) : i = ((freq.take b.toNat).filter (fun f => 0 < f)).length := by
  obtain ⟨h1, h2⟩ := (mem_occurring h).1 (List.mem_of_getElem? hi)
  have hlt : b.toNat < freq.length := by rw [h]; exact byte_lt b
  have hsplit : freq = freq.take b.toNat ++ f :: freq.drop (b.toNat + 1) := by
    conv => lhs; rw [← List.take_append_drop b.toNat freq, List.drop_eq_getElem_cons hlt]
    rw [List.getElem?_eq_getElem hlt] at h1
    rw [Option.some.inj h1]
  have hocc : occurring freq = occFrom 0 (freq.take b.toNat) ++ (b, f) :: occFrom (b.toNat + 1) (freq.drop (b.toNat + 1)) := by
    rw [occurring_eq]
    conv => lhs; rw [hsplit]
    rw [occFrom_append, occFrom_cons, if_pos h2]
    simp [Nat.min_eq_left (Nat.le_of_lt hlt)]
  have hat : (occurring freq)[(occFrom 0 (freq.take b.toNat)).length]? = some (b, f) := by
    rw [hocc, List.getElem?_append_right (Nat.le_refl _)]
    simp
  rw [← length_occFrom 0]
  have hn := occurring_nodup h
  have g1 := congrArg (Option.map Prod.fst) hi
  have g2 := congrArg (Option.map Prod.fst) hat
  rw [← List.getElem?_map] at g1 g2
  have hil : i < ((occurring freq).map Prod.fst).length := (List.getElem?_eq_some_iff.1 g1).1
  exact (List.getElem?_inj hil hn).1 (g1.trans g2.symm)

/-! ## The built tree -/

/-- The tree builder's result (R154 to R158). -/
theorem buildTree_spec (h : HuffRegs) (hs : 0 < h.freq.sum) :
    ∃ node, buildTree h = { h with
        k := (occurring h.freq).length, node := node, alive := [2 * (occurring h.freq).length - 2]
        ncount := node.length, root := 2 * (occurring h.freq).length - 2 } ∧
      Forest (leavesOf h.freq) node [2 * (occurring h.freq).length - 2] ∧ (leavesOf h.freq).length = (occurring h.freq).length := by
  have hlen : (leavesOf h.freq).length = (occurring h.freq).length := by simp [leavesOf]
  have hpos := occurring_pos hs
  have hinit := Forest.init (leaves := leavesOf h.freq) (by intro hz; rw [hz] at hlen; simp at hlen; omega) (by
    intro x hx
    obtain ⟨p, -, rfl⟩ := List.mem_map.1 hx
    exact ⟨_, _, rfl⟩)
  obtain ⟨node, h1, h2⟩ := mergeAll_spec (fuel := (leavesOf h.freq).length) hinit (by simp)
  rw [hlen] at h1 h2
  refine ⟨node, ?_, h2, hlen⟩
  simp only [buildTree, hlen, h1]
  rfl

/-! ## The code table -/

theorem codeOf_set (code : List (List Bool)) (hc : code.length = 256) (b x : Byte) (p : List Bool) :
    codeOf (code.set b.toNat p) x = if x = b then p else codeOf code x := by
  simp only [codeOf, List.getD_eq_getElem?_getD, List.getElem?_set]
  by_cases h : x = b
  · subst h
    have := byte_lt x
    simp [hc, this]
  · have : ¬ b.toNat = x.toNat := fun hx => h (BitVec.eq_of_toNat_eq hx.symm)
    simp [h, this]

theorem writeCodes_spec (es : List (Byte × List Bool)) (code : List (List Bool)) (hc : code.length = 256)
    (hn : (es.map Prod.fst).Nodup) :
    (writeCodes es code).length = 256 ∧ (∀ e ∈ es, codeOf (writeCodes es code) e.1 = e.2) ∧
      ∀ b, b ∉ es.map Prod.fst → codeOf (writeCodes es code) b = codeOf code b := by
  induction es generalizing code with
  | nil => simp [writeCodes, hc]
  | cons e es ih =>
    simp only [List.map_cons, List.nodup_cons] at hn
    obtain ⟨h1, h2, h3⟩ := ih (code.set e.1.toNat e.2) (by simp [hc]) hn.2
    have hw : writeCodes (e :: es) code = writeCodes es (code.set e.1.toNat e.2) := rfl
    rw [hw]
    refine ⟨h1, ?_, ?_⟩
    · intro x hx
      rcases List.mem_cons.1 hx with rfl | hx
      · rw [h3 _ hn.1, codeOf_set _ hc, if_pos rfl]
      · exact h2 x hx
    · intro b hb
      simp only [List.map_cons, List.mem_cons, not_or] at hb
      rw [h3 _ hb.2, codeOf_set _ hc, if_neg hb.1]

theorem codeOf_empty (b : Byte) : codeOf (List.replicate 256 []) b = [] := by
  rw [codeOf, List.getD_eq_getElem?_getD, List.getElem?_replicate]
  split <;> rfl

/-- Each entry of a traversal is a path that leads to its leaf. -/
theorem visit_follow {node : List Node} : ∀ {f i : Nat} {sym : Byte} {p : List Bool}, (sym, p) ∈ visit node f i [] →
    follow node i p = some sym := by
  intro f
  induction f with
  | zero => intro i sym p h; simp [visit] at h
  | succ f ih =>
    intro i sym p h
    simp only [visit] at h
    split at h
    · simp at h
    · rename_i s g hn
      simp at h
      obtain ⟨rfl, rfl⟩ := h
      simp [follow, hn]
    · rename_i g l r hn
      simp only [List.nil_append] at h
      rw [visit_path node f l [false], visit_path node f r [true]] at h
      rcases List.mem_append.1 h with h | h
      · obtain ⟨⟨s, q⟩, h1, h2⟩ := List.mem_map.1 h
        cases h2
        simp [follow, hn, ih h1]
      · obtain ⟨⟨s, q⟩, h1, h2⟩ := List.mem_map.1 h
        cases h2
        simp [follow, hn, ih h1]

/-- A path to a leaf passes no leaf before (R162). -/
theorem follow_append {node : List Node} : ∀ {p q : List Bool} {i : Nat} {a b : Byte}, follow node i p = some a →
    follow node i (p ++ q) = some b → q = [] ∧ a = b := by
  intro p
  induction p with
  | nil =>
    intro q i a b h1 h2
    simp only [follow] at h1
    split at h1
    · rename_i s g hn
      cases q with
      | nil =>
        simp [follow, hn] at h2 h1
        exact ⟨rfl, h1.symm.trans h2⟩
      | cons x q => simp [follow, hn] at h2
    · cases h1
  | cons x p ih =>
    intro q i a b h1 h2
    simp only [List.cons_append, follow] at h1 h2
    split at h1
    · rename_i hn
      simp only [hn] at h2
      exact ih h1 h2
    · cases h1

/-- Each level of a path uses up an internal node (R159 (f)). -/
theorem Forest.follow_length {leaves node : List Node} {alive : List Nat} (h : Forest leaves node alive) :
    ∀ {p : List Bool} {i : Nat} {a : Byte}, follow node i p = some a → p.length ≤ i + 1 - leaves.length := by
  intro p
  induction p with
  | nil => intros; simp
  | cons x p ih =>
    intro i a hf
    simp only [follow] at hf
    split at hf
    · rename_i g l r hn
      obtain ⟨h1, h2, h3, -⟩ := h.of_internal hn
      have := ih hf
      rw [List.length_cons]
      cases x <;> simp at this <;> omega
    · cases hf

/-- The code table of a built tree (R160, R161, R162). -/
structure PrefixCode (node : List Node) (root k : Nat) (syms : List Byte) (code : List (List Bool)) : Prop where
  size : code.length = 256
  some_of : ∀ b ∈ syms, codeOf code b ≠ [] ∧ (codeOf code b).length ≤ 255
  none_of : ∀ b, b ∉ syms → codeOf code b = []
  many : k ≠ 1 → ∀ b ∈ syms, follow node root (codeOf code b) = some b
  one : k = 1 → ∃ b f, syms = [b] ∧ node[root]? = some (.leaf b f) ∧ codeOf code b = [false]

theorem codeTable_spec (h : HuffRegs) {freq : List Nat} (hf : freq.length = 256) (hs : 0 < freq.sum)
    (hk : h.k = (occurring freq).length) (hr : h.root = 2 * h.k - 2)
    (hforest : Forest (leavesOf freq) h.node [h.root]) :
    PrefixCode h.node h.root h.k ((occurring freq).map Prod.fst) (codeTable h) := by
  have hlen : (leavesOf freq).length = (occurring freq).length := by simp [leavesOf]
  have hpos := occurring_pos hs
  have hle := occurring_le hf
  have hc := hforest.count
  simp only [List.length_cons, List.length_nil, hlen, ← hk] at hc
  have hsyms : (leavesOf freq).map nodeSym = (occurring freq).map Prod.fst := by
    simp [leavesOf, nodeSym, Function.comp_def]
  by_cases h1 : h.k = 1
  · obtain ⟨⟨b, f⟩, hocc⟩ := List.length_eq_one_iff.1 (hk.symm.trans h1)
    have hnode : h.node[h.root]? = some (.leaf b f) := by
      have : h.root = 0 := by omega
      rw [this, hforest.leaf_of_lt (by omega), leavesOf, hocc]
      rfl
    have htab : codeTable h = (List.replicate 256 []).set b.toNat [false] := by
      simp only [codeTable, h1, if_true, hnode]
    rw [htab, hocc]
    have hcode : ∀ x, codeOf ((List.replicate 256 []).set b.toNat [false]) x = if x = b then [false] else [] := by
      intro x
      rw [codeOf_set _ List.length_replicate, codeOf_empty]
    refine ⟨by rw [List.length_set, List.length_replicate], ?_, ?_, fun hx => absurd h1 hx, fun _ => ⟨b, f, rfl, hnode, by rw [hcode, if_pos rfl]⟩⟩
    · intro x hx
      simp at hx
      rw [hcode, if_pos hx]
      simp
    · intro x hx
      simp at hx
      rw [hcode, if_neg hx]
  · have htab : codeTable h = writeCodes (visit h.node h.node.length h.root []) (List.replicate 256 []) := by
      simp only [codeTable, h1, if_false]
    have hfuel : h.node.length = h.root + 1 := by omega
    have hperm : ((visit h.node h.node.length h.root []).map Prod.fst).Perm ((occurring freq).map Prod.fst) := by
      have := hforest.syms
      rw [hsyms] at this
      rw [hfuel]
      simpa [below] using this
    have hnd : ((visit h.node h.node.length h.root []).map Prod.fst).Nodup := hperm.nodup_iff.2 (occurring_nodup hf)
    obtain ⟨w1, w2, w3⟩ := writeCodes_spec _ (List.replicate 256 []) List.length_replicate hnd
    have hmem : ∀ b ∈ (occurring freq).map Prod.fst, follow h.node h.root (codeOf (codeTable h) b) = some b := by
      intro b hb
      obtain ⟨⟨s, p⟩, he, hx⟩ := List.mem_map.1 (hperm.mem_iff.2 hb)
      simp only at hx
      subst hx
      rw [htab, w2 _ he]
      exact visit_follow he
    refine ⟨by rw [htab]; exact w1, ?_, ?_, fun _ => hmem, fun hx => absurd hx h1⟩
    · intro b hb
      have hfol := hmem b hb
      constructor
      · intro hz
        rw [hz] at hfol
        simp only [follow] at hfol
        split at hfol
        · rename_i s g hn
          have := (hforest.of_leaf hn).1
          omega
        · cases hfol
      · have := hforest.follow_length hfol
        omega
    · intro b hb
      rw [htab, w3 b (fun hx => hb (hperm.mem_iff.1 hx)), codeOf_empty]

theorem PrefixCode.prefix_free {node : List Node} {root k : Nat} {syms : List Byte} {code : List (List Bool)}
    (h : PrefixCode node root k syms code) {b b' : Byte} (hb : b ∈ syms) (hb' : b' ∈ syms) (hne : b ≠ b') :
    ¬ codeOf code b <+: codeOf code b' := by
  rintro ⟨q, hq⟩
  by_cases hk : k = 1
  · obtain ⟨x, f, hs, -⟩ := h.one hk
    rw [hs] at hb hb'
    simp at hb hb'
    exact hne (hb.trans hb'.symm)
  · have h1 := h.many hk b hb
    have h2 := h.many hk b' hb'
    rw [← hq] at h2
    exact hne (follow_append h1 h2).2

end Sys2Proof.Machine
end

