-- ==== Sys2Proof/Laws/HuffPack.lean ====
section
/-! SUPPORT. The bit packer (41_huffman_encoder.md R165 to R167) and the engine steps of `HUFF_COMPRESS`. -/

namespace Sys2Proof.Machine

/-! ## The accumulator -/

theorem byteBits_eq (b : Byte) : byteBits b = (List.range 8).map (fun i => b.getLsbD (7 - i)) := rfl

@[simp] theorem length_byteBits (b : Byte) : (byteBits b).length = 8 := rfl

@[simp] theorem length_payloadBitList (bs : List Byte) : (payloadBitList bs).length = 8 * bs.length := by
  induction bs with
  | nil => rfl
  | cons b bs ih =>
    rw [payloadBitList, List.flatMap_cons, List.length_append, length_byteBits, List.length_cons]
    rw [payloadBitList] at ih
    omega

theorem payloadBitList_append (xs ys : List Byte) : payloadBitList (xs ++ ys) = payloadBitList xs ++ payloadBitList ys := by
  simp [payloadBitList]

/-- `ACC` holds the bits pushed since the last full byte at its high end and zeros below (R165, R166). -/
def Pending (acc : Byte) (pend : List Bool) : Prop := byteBits acc = pend ++ List.replicate (8 - pend.length) false

theorem pending_nil : Pending 0 [] := rfl

theorem pending_push {acc : Byte} {pend : List Bool} (h : Pending acc pend) (hl : pend.length < 8) (bit : Bool) :
    Pending (acc ||| ((if bit then 1#8 else 0#8) <<< (7 - pend.length))) (pend ++ [bit]) := by
  unfold Pending at *
  have hacc : ∀ i < 8, acc.getLsbD (7 - i) = (pend ++ List.replicate (8 - pend.length) false)[i]?.getD false := by
    intro i hi
    rw [← h, byteBits_eq]
    simp [hi]
  rw [byteBits_eq]
  apply List.ext_getElem
  · simp; omega
  · intro i h1 h2
    have hi : i < 8 := by simpa using h1
    rw [List.getElem_map, List.getElem_range, BitVec.getLsbD_or, hacc i hi]
    have hb : ((if bit then 1#8 else 0#8) <<< (7 - pend.length)).getLsbD (7 - i) = (decide (i = pend.length) && bit) := by
      rw [BitVec.getLsbD_shiftLeft]
      cases bit
      · simp
      · by_cases he : i = pend.length
        · simp [he]; omega
        · by_cases hlt : i < pend.length
          · have : 7 - i - (7 - pend.length) ≠ 0 := by omega
            simp [BitVec.getLsbD_one, this, he]
          · have : 7 - i < 7 - pend.length := by omega
            simp [this, he]
    rw [hb]
    by_cases hlt : i < pend.length
    · have : i ≠ pend.length := by omega
      simp [List.getElem?_append, hlt, this]
    · by_cases he : i = pend.length
      · subst he
        have : (pend ++ List.replicate (8 - pend.length) false)[pend.length]?.getD false = false := by
          rw [List.getElem?_append_right (Nat.le_refl _), List.getElem?_replicate]
          split <;> rfl
        rw [this]
        simp
      · have h1 : (pend ++ List.replicate (8 - pend.length) false)[i]?.getD false = false := by
          rw [List.getElem?_append_right (by omega), List.getElem?_replicate]
          split <;> rfl
        rw [h1]
        have : ¬ i < (pend ++ [bit]).length := by simp; omega
        simp only [List.getElem_append, this]
        simp [he]

/-! ## The packer -/

/-- The packer's registers (R38). -/
def packed (acc : Byte) (nacc total : Nat) (s : State) : State :=
  { s with huff := { s.huff with acc := acc, nacc := nacc, bitsTotal := total } }

/-- Pushing bits (R166): the full bytes are appended, the rest waits in `ACC`; without room for them all the command ends with
`OutputOverflow`. -/
theorem pushBits_spec : ∀ (bits : List Bool) {s : State} {pend : List Bool}, Pending s.huff.acc pend →
    s.huff.nacc = pend.length → pend.length < 8 → s.outPos ≤ s.params.outCap →
    ∃ bytes pend' acc', payloadBitList bytes ++ pend' = pend ++ bits ∧ pend'.length < 8 ∧ Pending acc' pend' ∧
      (s.outPos + bytes.length ≤ s.params.outCap →
        pushBits bits s = .going (packed acc' pend'.length (s.huff.bitsTotal + bits.length) (putAll bytes s))) ∧
      (s.params.outCap < s.outPos + bytes.length → ∃ t, pushBits bits s = .ended t ∧ t.status = .error) := by
  intro bits
  induction bits with
  | nil =>
    intro s pend hp hn hl hc
    refine ⟨[], pend, s.huff.acc, by simp [payloadBitList], hl, hp, ?_, ?_⟩
    · intro _
      rw [← hn]
      rfl
    · intro h
      simp at h
      omega
  | cons bit bits ih =>
    intro s pend hp hn hl hc
    have hpush := pending_push hp hl bit
    rw [← hn] at hpush
    by_cases h7 : s.huff.nacc = 7
    · generalize hacc : s.huff.acc ||| ((if bit then 1#8 else 0#8) <<< (7 - s.huff.nacc)) = acc at hpush
      have hbits : byteBits acc = pend ++ [bit] := by
        have hl8 : (pend ++ [bit]).length = 8 := by simp; omega
        unfold Pending at hpush
        rw [hpush, hl8]
        simp
      by_cases hfit : s.outPos < s.params.outCap
      · have hstep : pushBit bit s = .going (packed 0 0 (s.huff.bitsTotal + 1) (putByte acc s)) := by
          simp only [pushBit, hacc]
          rw [if_pos h7, emit_ok (by exact hfit)]
          rfl
        obtain ⟨bytes, pend', acc', h1, h2, h3, h4, h5⟩ := ih (s := packed 0 0 (s.huff.bitsTotal + 1) (putByte acc s)) (pend := [])
          pending_nil rfl (by simp) (by simp [packed]; omega)
        refine ⟨acc :: bytes, pend', acc', ?_, h2, h3, ?_, ?_⟩
        · rw [List.nil_append] at h1
          rw [payloadBitList, List.flatMap_cons, hbits, List.append_assoc, ← payloadBitList, h1]
          simp
        · intro hf
          rw [List.length_cons] at hf
          rw [pushBits, hstep, Run.going_andThen, h4 (by simp [packed]; omega), putAll_cons]
          simp only [packed, List.length_cons]
          congr 1
          simp only [putAll, putByte]
          congr 2
          omega
        · intro hf
          rw [List.length_cons] at hf
          obtain ⟨t, g1, g2⟩ := h5 (by simp [packed]; omega)
          exact ⟨t, by rw [pushBits, hstep, Run.going_andThen, g1], g2⟩
      · have hstep : ∃ t, pushBit bit s = .ended t ∧ t.status = .error := by
          simp only [pushBit]
          rw [if_pos h7, emit_full (by simp; omega), Run.ended_andThen]
          exact ⟨_, rfl, rfl⟩
        obtain ⟨t, g1, g2⟩ := hstep
        obtain ⟨bytes, pend', acc', h1, h2, h3, -, -⟩ := ih (s := packed 0 0 0 s) (pend := []) pending_nil rfl (by simp) hc
        refine ⟨acc :: bytes, pend', acc', ?_, h2, h3, ?_, ?_⟩
        · rw [List.nil_append] at h1
          rw [payloadBitList, List.flatMap_cons, hbits, List.append_assoc, ← payloadBitList, h1]
          simp
        · intro hf
          rw [List.length_cons] at hf
          omega
        · intro _
          exact ⟨t, by rw [pushBits, g1, Run.ended_andThen], g2⟩
    · have hstep : pushBit bit s = .going (packed (s.huff.acc ||| ((if bit then 1#8 else 0#8) <<< (7 - s.huff.nacc)))
          (s.huff.nacc + 1) (s.huff.bitsTotal + 1) s) := by
        simp only [pushBit, h7, if_false]
        rfl
      obtain ⟨bytes, pend', acc', h1, h2, h3, h4, h5⟩ := ih (s := packed (s.huff.acc ||| ((if bit then 1#8 else 0#8) <<< (7 - s.huff.nacc)))
          (s.huff.nacc + 1) (s.huff.bitsTotal + 1) s) (pend := pend ++ [bit]) hpush (by simp [packed, hn]) (by simp; omega) hc
      refine ⟨bytes, pend', acc', by rw [h1]; simp, h2, h3, ?_, ?_⟩
      · intro hf
        rw [pushBits, hstep, Run.going_andThen, h4 hf]
        simp only [packed, List.length_cons]
        congr 1
        simp only [putAll]
        congr 2
        omega
      · intro hf
        obtain ⟨t, g1, g2⟩ := h5 hf
        exact ⟨t, by rw [pushBits, hstep, Run.going_andThen, g1], g2⟩

/-- Pushing does not touch the code table, so packing bytes is pushing the concatenation of their codes. -/
theorem pushBits_code : ∀ (bits : List Bool) {s t : State}, pushBits bits s = .going t → t.huff.code = s.huff.code := by
  intro bits
  induction bits with
  | nil => intro s t h; cases h; rfl
  | cons bit bits ih =>
    intro s t h
    rw [pushBits] at h
    cases hb : pushBit bit s with
    | ended u => rw [hb] at h; cases h
    | going u =>
      rw [hb, Run.going_andThen] at h
      rw [ih h]
      simp only [pushBit] at hb
      by_cases h7 : s.huff.nacc = 7
      · rw [if_pos h7] at hb
        by_cases hc : s.outPos < s.params.outCap
        · rw [emit_ok (by exact hc), Run.going_andThen] at hb
          cases hb
          rfl
        · rw [emit_full (by simp; omega), Run.ended_andThen] at hb
          cases hb
      · rw [if_neg h7] at hb
        cases hb
        rfl

theorem pushBits_append (xs ys : List Bool) (s : State) : pushBits (xs ++ ys) s = (pushBits xs s).andThen (pushBits ys) := by
  induction xs generalizing s with
  | nil => rfl
  | cons x xs ih =>
    simp only [List.cons_append, pushBits, Run.andThen_assoc]
    congr 1
    funext t
    exact ih t

theorem packBytes_eq (data : List Byte) (s : State) : packBytes data s = pushBits (data.flatMap (codeOf s.huff.code)) s := by
  induction data generalizing s with
  | nil => rfl
  | cons b data ih =>
    rw [packBytes, List.flatMap_cons, pushBits_append]
    cases h : pushBits (codeOf s.huff.code b) s with
    | ended u => rfl
    | going u =>
      rw [Run.going_andThen, Run.going_andThen, ih, pushBits_code _ h]

/-! ## Engine steps -/

theorem engineStep_hFreq {s : State} (hp : s.phase = .hFreq) :
    engineStep s = { s with huff := { s.huff with freq := countBytes s.data }, phase := .hBuild } := by
  rw [engineStep_phase (by simp only [State.boundary, hp])]
  simp only [phaseRun, hp, hFreqPhase, Run.state_going]

theorem engineStep_hBuild {s : State} (hp : s.phase = .hBuild) :
    engineStep s = { s with huff := buildTree s.huff, phase := .hCodes } := by
  rw [engineStep_phase (by simp only [State.boundary, hp])]
  simp only [phaseRun, hp, hBuildPhase, Run.state_going]

theorem engineStep_dBuild {s : State} (hp : s.phase = .dBuild) :
    engineStep s = { s with huff := buildTree s.huff, phase := .dCodes } := by
  rw [engineStep_phase (by simp only [State.boundary, hp])]
  simp only [phaseRun, hp, dBuildPhase, Run.state_going]

theorem engineStep_hCodes {s : State} (hp : s.phase = .hCodes) :
    engineStep s = { s with huff := genCodes s.huff, phase := .hHeader } := by
  rw [engineStep_phase (by simp only [State.boundary, hp])]
  simp only [phaseRun, hp, hCodesPhase, Run.state_going]

theorem engineStep_dCodes {s : State} (hp : s.phase = .dCodes) :
    engineStep s = { s with huff := genCodes s.huff, phase := .dCheck } := by
  rw [engineStep_phase (by simp only [State.boundary, hp])]
  simp only [phaseRun, hp, dCodesPhase, Run.state_going]

theorem engineStep_hHeader {s : State} (hp : s.phase = .hHeader) :
    engineStep s = ((emitAll (huffHeader s) s).andThen (fun s => .going { s with phase := .hPack })).state := by
  rw [engineStep_phase (by simp only [State.boundary, hp])]
  simp only [phaseRun, hp, hHeaderPhase]

theorem engineStep_hPack {s : State} (hp : s.phase = .hPack) :
    engineStep s = ((pushBits (s.data.flatMap (codeOf s.huff.code)) (packerStart s)).andThen
      (fun s => .going { s with phase := .hFlush })).state := by
  rw [engineStep_phase (by simp only [State.boundary, hp])]
  simp only [phaseRun, hp, hPackPhase, packBytes_eq]
  rfl

theorem engineStep_hFlush {s : State} (hp : s.phase = .hFlush) : engineStep s = (hFlushPhase s).state := by
  rw [engineStep_phase (by simp only [State.boundary, hp])]
  simp only [phaseRun, hp]

/-- The header's bytes by byte value (R164). -/
theorem huffHeader_eq (s : State) (hf : s.huff.freq.length = 256) :
    huffHeader s = u32le (BitVec.ofNat 32 s.n) ++ u64le (BitVec.ofNat 64 s.huff.bitsSum) ++ u16le (BitVec.ofNat 16 s.huff.k) ++
      (List.range 256).flatMap (fun b =>
        if 0 < s.huff.freq.getD b 0 then BitVec.ofNat 8 b :: u32le (BitVec.ofNat 32 (s.huff.freq.getD b 0)) else []) := by
  have key : ∀ (xs : List Nat) (n : Nat), (occFrom n xs).flatMap (fun p => encode (.huffSym p.1 (BitVec.ofNat 32 p.2))) =
      (List.range xs.length).flatMap (fun b =>
        if 0 < xs.getD b 0 then BitVec.ofNat 8 (n + b) :: u32le (BitVec.ofNat 32 (xs.getD b 0)) else []) := by
    intro xs
    induction xs with
    | nil => intro n; rfl
    | cons x xs ih =>
      intro n
      have hx := ih (n + 1)
      rw [List.length_cons, List.range_succ_eq_map, List.flatMap_cons, List.flatMap_map]
      simp only [List.getD_cons_zero, List.getD_cons_succ, Nat.add_zero]
      rw [show (fun b => if 0 < xs.getD b 0 then BitVec.ofNat 8 (n + (b + 1)) :: u32le (BitVec.ofNat 32 (xs.getD b 0)) else []) =
        (fun b => if 0 < xs.getD b 0 then BitVec.ofNat 8 (n + 1 + b) :: u32le (BitVec.ofNat 32 (xs.getD b 0)) else []) by
          funext b; rw [show n + (b + 1) = n + 1 + b by omega], ← hx, occFrom_cons]
      by_cases h : 0 < x <;> simp [h, encode]
  rw [huffHeader, occurring_eq, key, hf, encode]
  simp only [Nat.zero_add]

theorem length_huffHeader (s : State) : (huffHeader s).length = 14 + 5 * (occurring s.huff.freq).length := by
  rw [huffHeader, List.length_append]
  congr 1
  induction occurring s.huff.freq with
  | nil => rfl
  | cons p ps ih => rw [List.flatMap_cons, List.length_append, ih, List.length_cons]; simp [encode, u32le]; omega

end Sys2Proof.Machine
end

