-- ==== Sys2Proof/Laws/HuffEnc.lean ====
section
/-! SUPPORT. Where the two Huffman commands end (41_huffman_encoder.md R164 to R169, 42_huffman_decoder.md). -/

namespace Sys2Proof.Machine

/-! ## The end of the encoder -/

theorem pending_zero {acc : Byte} (h : Pending acc []) : acc = 0 := by
  apply BitVec.eq_of_getLsbD_eq
  intro i hi
  have h8 : (byteBits acc)[7 - i]? = some false := by
    unfold Pending at h
    rw [h, List.nil_append, List.length_nil, List.getElem?_replicate, if_pos (by omega)]
  rw [byteBits_eq] at h8
  simp [show 7 - i < 8 by omega, show 7 - (7 - i) = i by omega] at h8
  simp [h8]

/-- `H_PACK` and `H_FLUSH` (R165 to R167): with room for the payload it is appended and the command is done. -/
theorem pack_ends {s : State} {bits : List Bool} (hp : s.phase = .hPack) (hb : bits = s.data.flatMap (codeOf s.huff.code))
    (hc : s.outPos ≤ s.params.outCap) :
    ∃ payload, payload.length = (bits.length + 7) / 8 ∧
      payloadBitList payload = bits ++ List.replicate (8 * payload.length - bits.length) false ∧
      (s.outPos + payload.length ≤ s.params.outCap →
        ((engineStep s).status = s.status ∧ (engineStep s).phase = .hFlush ∧ (engineStep s).host = s.host ∧
          (engineStep s).tainted = s.tainted ∧ (engineStep s).n = s.n ∧ (engineStep s).params = s.params) ∧
        engineStep (engineStep s) = finish { packed 0 0 bits.length (putAll payload s) with phase := .hFlush }) ∧
      (s.params.outCap < s.outPos + payload.length → s.status = .busy → ∃ t, Ends s t ∧ t.status = .error) := by
  obtain ⟨bytes, pend, acc, h1, h2, h3, h4, h5⟩ := pushBits_spec bits (s := packerStart s) (pend := []) pending_nil rfl
    (by simp) hc
  have hstep := engineStep_hPack hp
  rw [← hb] at hstep
  have hlen := congrArg List.length h1
  simp only [List.nil_append, List.length_append, length_payloadBitList] at hlen h1
  by_cases hz : pend = []
  · subst hz
    obtain rfl := pending_zero h3
    simp only [List.length_nil, Nat.add_zero, List.append_nil] at hlen h1
    refine ⟨bytes, by omega, by rw [h1]; simp [← hlen], ?_, ?_⟩
    · intro hf
      rw [h4 hf, Run.going_andThen, Run.state_going] at hstep
      rw [hstep]
      refine ⟨⟨rfl, rfl, rfl, rfl, rfl, rfl⟩, ?_⟩
      rw [engineStep_hFlush rfl, hFlushPhase, if_neg (by simp [packed])]
      simp only [Run.state_ended]
      congr 2
      simp [packed, packerStart, putAll]
    · intro hf hbusy
      obtain ⟨t, g1, g2⟩ := h5 hf
      rw [g1, Run.ended_andThen, Run.state_ended] at hstep
      exact ⟨t, Ends.step hbusy (by rw [hstep]; exact Ends.here (by rw [g2]; decide)), g2⟩
  · have hpos : 0 < pend.length := List.length_pos_iff.2 hz
    refine ⟨bytes ++ [acc], by simp; omega, ?_, ?_, ?_⟩
    · unfold Pending at h3
      rw [payloadBitList_append, show payloadBitList [acc] = byteBits acc by simp [payloadBitList], h3, ← List.append_assoc, h1]
      congr 2
      simp
      omega
    · intro hf
      simp only [List.length_append, List.length_cons, List.length_nil] at hf
      rw [h4 (by show s.outPos + bytes.length ≤ s.params.outCap; omega), Run.going_andThen, Run.state_going] at hstep
      rw [hstep]
      refine ⟨⟨rfl, rfl, rfl, rfl, rfl, rfl⟩, ?_⟩
      rw [engineStep_hFlush rfl, hFlushPhase, if_pos (by simpa [packed] using hpos),
        emit_ok (by show s.outPos + bytes.length < s.params.outCap; omega), Run.going_andThen, Run.state_ended, putAll_append]
      congr 2
      simp [packed, packerStart, putAll]
    · intro hf hbusy
      simp only [List.length_append, List.length_cons, List.length_nil] at hf
      by_cases hf' : s.params.outCap < s.outPos + bytes.length
      · obtain ⟨t, g1, g2⟩ := h5 hf'
        rw [g1, Run.ended_andThen, Run.state_ended] at hstep
        exact ⟨t, Ends.step hbusy (by rw [hstep]; exact Ends.here (by rw [g2]; decide)), g2⟩
      · rw [h4 (by show s.outPos + bytes.length ≤ s.params.outCap; omega), Run.going_andThen, Run.state_going] at hstep
        refine ⟨_, Ends.step hbusy (Ends.step (by rw [hstep]; exact hbusy) (Ends.here ?_)), ?_⟩
        all_goals
          rw [hstep, engineStep_hFlush rfl, hFlushPhase, if_pos (by simpa [packed] using hpos),
            emit_full (by show s.params.outCap ≤ s.outPos + bytes.length; omega), Run.ended_andThen, Run.state_ended]
          simp

/-! ## The tree and the codes of a frequency table -/

/-- The Huffman registers that hold only a frequency table. -/
def regsOf (freq : List Nat) : HuffRegs := { HuffRegs.init with freq := freq }

/-- The code table of a frequency table, the same for both commands (R195). -/
def codesOf (freq : List Nat) : List (List Bool) := codeTable (buildTree (regsOf freq))

theorem buildTree_regs (h : HuffRegs) : buildTree h = { h with
    k := (buildTree (regsOf h.freq)).k, node := (buildTree (regsOf h.freq)).node, alive := (buildTree (regsOf h.freq)).alive
    ncount := (buildTree (regsOf h.freq)).ncount, root := (buildTree (regsOf h.freq)).root } := rfl

theorem genCodes_buildTree (h : HuffRegs) : genCodes (buildTree h) = { buildTree h with
    code := codesOf h.freq, bitsSum := payloadLength h.freq (codesOf h.freq) } := rfl

theorem codesOf_spec {freq : List Nat} (hf : freq.length = 256) (hs : 0 < freq.sum) :
    (buildTree (regsOf freq)).k = (occurring freq).length ∧
    PrefixCode (buildTree (regsOf freq)).node (buildTree (regsOf freq)).root (occurring freq).length
      ((occurring freq).map Prod.fst) (codesOf freq) := by
  obtain ⟨node, h1, h2, h3⟩ := buildTree_spec (regsOf freq) hs
  have hfr : (regsOf freq).freq = freq := rfl
  rw [hfr] at h1 h2 h3
  have hk : (buildTree (regsOf freq)).k = (occurring freq).length := by rw [h1]
  refine ⟨hk, ?_⟩
  have := codeTable_spec (buildTree (regsOf freq)) hf hs hk (by rw [h1]) (by rw [h1]; exact h2)
  rw [hk] at this
  exact this

theorem mem_syms {freq : List Nat} (hf : freq.length = 256) (b : Byte) :
    b ∈ (occurring freq).map Prod.fst ↔ 0 < freq.getD b.toNat 0 := by
  have hlt : b.toNat < freq.length := by rw [hf]; exact byte_lt b
  constructor
  · intro h
    obtain ⟨⟨x, f⟩, h1, rfl⟩ := List.mem_map.1 h
    obtain ⟨h2, h3⟩ := (mem_occurring hf).1 h1
    rw [List.getD_eq_getElem?_getD, h2]
    exact h3
  · intro h
    refine List.mem_map.2 ⟨(b, freq.getD b.toNat 0), (mem_occurring hf).2 ⟨?_, h⟩, rfl⟩
    rw [List.getD_eq_getElem?_getD, List.getElem?_eq_getElem hlt]
    rfl

theorem mem_syms_count (data : List Byte) {b : Byte} (h : b ∈ data) : b ∈ (occurring (countBytes data)).map Prod.fst := by
  rw [mem_syms (length_countBytes data), getD_countBytes]
  exact List.count_pos_iff.2 h

/-- Every byte of the input takes from 1 to 255 bits (R159 (f), R169). -/
theorem coded_length (data : List Byte) (hd : data ≠ []) :
    data.length ≤ (data.flatMap (codeOf (codesOf (countBytes data)))).length ∧
    (data.flatMap (codeOf (codesOf (countBytes data)))).length ≤ 255 * data.length := by
  have hs : 0 < (countBytes data).sum := by rw [sum_countBytes]; exact List.length_pos_iff.2 hd
  obtain ⟨-, hcode⟩ := codesOf_spec (length_countBytes data) hs
  have hall : ∀ b ∈ data, 1 ≤ (codeOf (codesOf (countBytes data)) b).length ∧ (codeOf (codesOf (countBytes data)) b).length ≤ 255 := by
    intro b hb
    obtain ⟨h1, h2⟩ := hcode.some_of b (mem_syms_count data hb)
    exact ⟨List.length_pos_iff.2 h1, h2⟩
  generalize codeOf (codesOf (countBytes data)) = c at hall
  clear hd hs hcode
  induction data with
  | nil => simp
  | cons x xs ih =>
    have h1 := hall x (by simp)
    have h2 := ih (fun b hb => hall b (by simp [hb]))
    simp only [List.flatMap_cons, List.length_append, List.length_cons]
    omega

/-- The state of `HUFF_COMPRESS` when it enters `H_HEADER`. -/
def coded (s : State) : State :=
  { s with huff := genCodes (buildTree { s.huff with freq := countBytes s.data }), phase := .hHeader }

theorem coded_ends {s t : State} (hp : s.phase = .hFreq) (hb : s.status = .busy) (h : Ends (coded s) t) : Ends s t := by
  refine Ends.step hb ?_
  rw [engineStep_hFreq hp]
  refine Ends.step hb ?_
  rw [engineStep_hBuild rfl]
  refine Ends.step hb ?_
  rw [engineStep_hCodes rfl]
  exact h

/-- `HUFF_COMPRESS` from `H_HEADER` on: the header, then the payload, if there is room for both. -/
theorem header_ends {c : State} {bits : List Bool} (hp : c.phase = .hHeader) (hb : c.status = .busy) (he : c.err = none)
    (hw : Wrote c []) (hbits : bits = c.data.flatMap (codeOf c.huff.code)) :
    ∃ payload t, Ends c t ∧ payload.length = (bits.length + 7) / 8 ∧
      payloadBitList payload = bits ++ List.replicate (8 * payload.length - bits.length) false ∧
      ((huffHeader c).length + payload.length ≤ c.params.outCap → Delivers t (huffHeader c ++ payload) ∧
        t.huff.k = c.huff.k ∧ t.huff.bitsSum = c.huff.bitsSum ∧ t.huff.bitsTotal = bits.length) ∧
      (c.params.outCap < (huffHeader c).length + payload.length → t.status = .error) := by
  have hstep := engineStep_hHeader hp
  have co : c.outPos = 0 := hw.2
  generalize huffHeader c = hdr at *
  by_cases hfit : hdr.length ≤ c.params.outCap
  · rw [emitAll_ok (by rw [co]; omega), Run.going_andThen, Run.state_going] at hstep
    generalize hd : engineStep c = d at *
    have eo : d.outPos = hdr.length := by rw [hstep]; show c.outPos + hdr.length = _; omega
    have ep : d.params = c.params := by rw [hstep]; rfl
    have eb : d.status = .busy := by rw [hstep]; exact hb
    have ee : d.err = none := by rw [hstep]; exact he
    have ed : bits = d.data.flatMap (codeOf d.huff.code) := by rw [hstep]; exact hbits
    have ek : d.huff = c.huff := by rw [hstep]; rfl
    have ew : Wrote d hdr := by rw [hstep]; exact hw.putAll hdr
    have eph : d.phase = .hPack := by rw [hstep]
    clear hstep
    obtain ⟨payload, p1, p2, p3, p4⟩ := pack_ends eph ed (by rw [eo, ep]; exact hfit)
    by_cases hfp : hdr.length + payload.length ≤ c.params.outCap
    · obtain ⟨⟨q1, -⟩, q2⟩ := p3 (by rw [eo, ep]; exact hfp)
      have hends : Ends d (finish { packed 0 0 bits.length (putAll payload d) with phase := .hFlush }) :=
        Ends.step eb (Ends.step (q1.trans eb)
          (Eq.mpr (congrArg (fun x => Ends x _) q2) (Ends.here (by show Status.done ≠ .busy; decide))))
      refine ⟨payload, _, Ends.step hb (Eq.mpr (congrArg (fun x => Ends x _) hd) hends), p1, p2, fun _ => ⟨Wrote.finish (ew.putAll payload) ee, ?_, ?_, rfl⟩, fun h => by omega⟩
      · show d.huff.k = _
        rw [ek]
      · show d.huff.bitsSum = _
        rw [ek]
    · obtain ⟨t, t1, t2⟩ := p4 (by rw [eo, ep]; omega) eb
      exact ⟨payload, t, Ends.step hb (hd ▸ t1), p1, p2, fun h => absurd h hfp, fun _ => t2⟩
  · rw [emitAll_full (by rw [co]; omega) (by rw [co]; omega), Run.ended_andThen, Run.state_ended] at hstep
    obtain ⟨payload, p1, p2, -⟩ := pack_ends (s := { c with phase := .hPack }) rfl hbits (by show c.outPos ≤ _; rw [co]; omega)
    exact ⟨payload, _, Ends.step hb (by rw [hstep]; exact Ends.here (by simp)), p1, p2, fun h => by omega, fun _ => by simp⟩

/-- The bits of an input under the code of its own frequencies. -/
def codedBits (data : List Byte) : List Bool := data.flatMap (codeOf (codesOf (countBytes data)))

/-- The header of an input (R164). -/
def headerOf (data : List Byte) : List Byte :=
  encode (.huffHdr (BitVec.ofNat 32 data.length) (BitVec.ofNat 64 (codedBits data).length)
    (BitVec.ofNat 16 (occurring (countBytes data)).length)) ++
  (occurring (countBytes data)).flatMap (fun p => encode (.huffSym p.1 (BitVec.ofNat 32 p.2)))

theorem length_headerOf (data : List Byte) : (headerOf data).length = 14 + 5 * (occurring (countBytes data)).length := by
  rw [headerOf, List.length_append]
  congr 1
  induction occurring (countBytes data) with
  | nil => rfl
  | cons p ps ih => rw [List.flatMap_cons, List.length_append, ih, List.length_cons]; simp [encode, u32le]; omega

/-- `HUFF_COMPRESS` on an input that is not empty: where it ends, and what it delivers. -/
theorem huff_compress_ends {s : State} (hl : s.launchable) (hn : s.inLen.toNat ≠ 0) :
    ∃ payload t, exec .huffCompress s = .next t ∧ payload.length = ((codedBits s.input).length + 7) / 8 ∧
      payloadBitList payload = codedBits s.input ++ List.replicate (8 * payload.length - (codedBits s.input).length) false ∧
      ((headerOf s.input).length + payload.length ≤ s.params.outCap → Delivers t (headerOf s.input ++ payload) ∧
        t.huff.k = (occurring (countBytes s.input)).length ∧ t.huff.bitsSum = (codedBits s.input).length ∧
        t.huff.bitsTotal = (codedBits s.input).length) ∧
      (s.params.outCap < (headerOf s.input).length + payload.length → t.status = .error) := by
  have hlen : s.input.length = s.inLen.toNat := by simp [State.input]
  have hs : 0 < (countBytes s.input).sum := by rw [sum_countBytes]; omega
  obtain ⟨hk, hcode⟩ := codesOf_spec (length_countBytes s.input) hs
  have hsum : payloadLength (countBytes s.input) (codesOf (countBytes s.input)) = (codedBits s.input).length :=
    payloadLength_count s.input (codesOf (countBytes s.input)) hcode.size
  generalize hc : coded { launch 0x00 s with phase := .hFreq } = c
  have hce : ∀ t, Ends c t → exec .huffCompress s = .next t := by
    intro t ht
    refine exec_command_ends (c := 0x00) rfl rfl hl hn (coded_ends rfl rfl ?_)
    rw [show firstPhase .huffCompress = .hFreq from rfl, hc]
    exact ht
  have ck : c.huff.k = (occurring (countBytes s.input)).length := by rw [← hk, ← hc]; rfl
  have cs : c.huff.bitsSum = (codedBits s.input).length := by rw [← hsum, ← hc]; rfl
  have cf : c.huff.freq = countBytes s.input := by rw [← hc]; rfl
  have cn : c.n = s.input.length := by rw [hlen, ← hc]; rfl
  have cp : c.params = s.params := by rw [← hc]; rfl
  have hhdr : huffHeader c = headerOf s.input := by rw [huffHeader, headerOf, cn, cs, ck, cf]
  obtain ⟨payload, t, h1, h2, h3, h4, h5⟩ := header_ends (c := c) (bits := codedBits s.input) (by rw [← hc]; rfl)
    (by rw [← hc]; rfl) (by rw [← hc]; rfl) (by rw [← hc]; exact ⟨rfl, rfl⟩) (by rw [← hc]; rfl)
  rw [hhdr, cp] at h4 h5
  rw [ck, cs] at h4
  exact ⟨payload, t, hce t h1, h2, h3, h4, h5⟩

end Sys2Proof.Machine
end

