-- ==== Sys2Proof/Laws/HuffDec.lean ====
section
/-! SUPPORT. Where `HUFF_DECOMPRESS` ends (42_huffman_decoder.md): the header, the symbol entries, the checks, the walk. -/

namespace Sys2Proof.Machine

/-! ## The walk -/

/-- `s` with the walker's registers `CUR` and `BITPOS`. -/
def walking (cur bitPos : Nat) (s : State) : State := { s with huff := { s.huff with cur := cur, bitPos := bitPos } }

/-- A path from `CUR` to a leaf appends the leaf's byte and leads back to the root (R199). -/
theorem walk_path {node : List Node} {root : Nat} : ∀ (p : List Bool) {s : State} {a : Byte} (rest : List Bool), p ≠ [] →
    s.huff.node = node → s.huff.root = root → s.huff.k ≠ 1 → follow node s.huff.cur p = some a →
    s.outPos < s.huff.origLen → s.huff.origLen ≤ s.params.outCap →
    walk (p ++ rest) s = walk rest (walking root (s.huff.bitPos + p.length) (putByte a s)) := by
  intro p
  induction p with
  | nil => intro s a rest h; exact absurd rfl h
  | cons x p ih =>
    intro s a rest _ hn hr hk hf ho hc
    subst hn hr
    simp only [follow] at hf
    split at hf
    · rename_i g l r hcur
      rw [List.cons_append, walk, if_pos ho, if_neg hk]
      simp only [walkBit, hcur]
      cases p with
      | nil =>
        simp only [follow] at hf
        split at hf
        · rename_i sym f hleaf
          cases hf
          try simp only [hleaf]
          rw [emit_ok (by exact Nat.lt_of_lt_of_le ho hc), Run.going_andThen, Run.going_andThen]
          rfl
        · cases hf
      | cons y p =>
        have hint : ∃ g' l' r', s.huff.node[if x = true then r else l]? = some (Node.internal g' l' r') := by
          simp only [follow] at hf
          split at hf
          · rename_i g' l' r' h
            exact ⟨g', l', r', h⟩
          · cases hf
        obtain ⟨g', l', r', hint⟩ := hint
        simp only [hint, Run.going_andThen]
        rw [ih (s := { s with huff := { s.huff with cur := if x = true then r else l, bitPos := s.huff.bitPos + 1 } })
          rest (by simp) rfl rfl hk hf ho hc]
        simp only [walking, putByte, List.length_cons]
        congr 3
        omega
    · cases hf

/-- Symbols in order (R199). -/
theorem walk_symbols {node : List Node} {root : Nat} : ∀ (xs : List (Byte × List Bool)) {s : State} (rest : List Bool),
    s.huff.node = node → s.huff.root = root → s.huff.k ≠ 1 → s.huff.cur = root →
    (∀ x ∈ xs, x.2 ≠ [] ∧ follow node root x.2 = some x.1) → s.outPos + xs.length ≤ s.huff.origLen →
    s.huff.origLen ≤ s.params.outCap →
    walk (xs.flatMap Prod.snd ++ rest) s =
      walk rest (walking root (s.huff.bitPos + (xs.flatMap Prod.snd).length) (putAll (xs.map Prod.fst) s)) := by
  intro xs
  induction xs with
  | nil =>
    intro s rest hn hr hk hcur hx ho hc
    simp only [List.flatMap_nil, List.nil_append, List.length_nil, Nat.add_zero, List.map_nil, putAll_nil, walking, ← hcur]
  | cons x xs ih =>
    intro s rest hn hr hk hcur hx ho hc
    obtain ⟨h1, h2⟩ := hx x (by simp)
    simp only [List.length_cons] at ho
    rw [List.flatMap_cons, List.append_assoc, walk_path x.2 _ h1 hn hr hk (by rw [hcur]; exact h2) (by omega) hc,
      ih (s := walking root (s.huff.bitPos + x.2.length) (putByte x.1 s)) rest hn hr hk rfl (fun y hy => hx y (by simp [hy]))
        (by show s.outPos + 1 + xs.length ≤ s.huff.origLen; omega) hc, List.map_cons, putAll_cons]
    simp only [walking, List.length_append, putAll, putByte]
    congr 3
    omega

/-- One symbol: each bit appends it, and `CUR` stays (R200). -/
theorem walk_single {sym : Byte} {f : Nat} : ∀ (bits : List Bool) {s : State} (rest : List Bool),
    s.huff.node[s.huff.root]? = some (.leaf sym f) → s.huff.k = 1 →
    s.outPos + bits.length ≤ s.huff.origLen → s.huff.origLen ≤ s.params.outCap →
    walk (bits ++ rest) s =
      walk rest (walking s.huff.cur (s.huff.bitPos + bits.length) (putAll (List.replicate bits.length sym) s)) := by
  intro bits
  induction bits with
  | nil =>
    intro s rest hn hk ho hc
    simp only [List.nil_append, List.length_nil, Nat.add_zero, List.replicate_zero, putAll_nil, walking]
  | cons bit bits ih =>
    intro s rest hn hk ho hc
    simp only [List.length_cons] at ho
    rw [List.cons_append, walk, if_pos (by omega), if_pos hk]
    simp only [walkBitSingle, hn]
    rw [emit_ok (by show s.outPos < s.params.outCap; omega), Run.going_andThen,
      ih (s := putByte sym { s with huff := { s.huff with bitPos := s.huff.bitPos + 1 } }) rest hn hk
        (by show s.outPos + 1 + bits.length ≤ s.huff.origLen; omega) hc, List.length_cons, List.replicate_succ, putAll_cons]
    simp only [walking, putAll, putByte]
    congr 3
    omega

/-- The walk has what it wants (R201). -/
theorem walk_stop (bits : List Bool) {s : State} (h : s.huff.origLen ≤ s.outPos) : walk bits s = .going s := by
  cases bits with
  | nil => rw [walk, if_neg (by omega)]
  | cons b bits => rw [walk, if_neg (by omega)]

theorem walk_exhausted {s : State} (h : s.outPos < s.huff.origLen) : walk [] s = fail .truncatedStream s := by
  rw [walk, if_pos h]

/-- Bits that lead to no leaf run out, whether they end at the root or inside a code word (R201). -/
theorem walk_lost : ∀ (bits : List Bool) {s : State}, s.huff.k ≠ 1 → s.outPos < s.huff.origLen →
    (∀ q, q <+: bits → follow s.huff.node s.huff.cur q = none) → ∃ t, walk bits s = fail .truncatedStream t := by
  intro bits
  induction bits with
  | nil => exact fun _ ho _ => ⟨_, walk_exhausted ho⟩
  | cons x bits ih =>
    intro s hk ho hf
    rw [walk, if_pos ho, if_neg hk]
    simp only [walkBit]
    split
    · rename_i g l r hcur
      have hnext : ∀ q, q <+: bits → follow s.huff.node (if x = true then r else l) q = none := by
        intro q hq
        have := hf (x :: q) (List.cons_prefix_cons.2 ⟨rfl, hq⟩)
        simpa only [follow, hcur] using this
      split
      · rename_i sym f hleaf
        have := hnext [] List.nil_prefix
        simp only [follow] at this
        rw [show s.huff.node[if x = true then r else l]? = some (.leaf sym f) from hleaf] at this
        cases this
      · rw [Run.going_andThen]
        exact ih hk ho hnext
    · rename_i hcur
      rw [Run.going_andThen]
      refine ih hk ho (fun q hq => ?_)
      cases q with
      | nil => exact hf [] List.nil_prefix
      | cons y q => simp only [follow]

/-! ## The payload -/

/-- A payload of fewer bytes than declared (R201). -/
theorem huffBitsRun_short {payload : List Byte} {s : State} (h : payload.length < ceil8 s.huff.payloadBits) :
    huffBitsRun payload s = fail .truncatedStream s := by
  rw [huffBitsRun, if_pos h]

/-- A payload of enough bytes is walked for its declared bits. -/
theorem huffBitsRun_walk {payload : List Byte} {s : State} (h : ceil8 s.huff.payloadBits ≤ payload.length) :
    huffBitsRun payload s = (walk (codeBits payload s) (walkStart s)).andThen (fun s => .ended (finish s)) := by
  rw [huffBitsRun, if_neg (Nat.not_lt.2 h)]

/-- It then has as many bits as declared. -/
theorem length_codeBits {payload : List Byte} {s : State} (h : ceil8 s.huff.payloadBits ≤ payload.length) :
    (codeBits payload s).length = s.huff.payloadBits := by
  rw [codeBits, List.length_take, length_payloadBitList]
  unfold ceil8 at h
  omega

/-! ## The symbol entries -/

/-- `FREQ` with entries written (R193). -/
def putEntries (es : List (Byte × Nat)) (freq : List Nat) : List Nat := es.foldl (fun t e => t.set e.1.toNat e.2) freq

theorem putEntries_spec (es : List (Byte × Nat)) (freq : List Nat) (hl : freq.length = 256) (hn : (es.map Prod.fst).Nodup) :
    (putEntries es freq).length = 256 ∧ (∀ e ∈ es, (putEntries es freq).getD e.1.toNat 0 = e.2) ∧
      ∀ b : Byte, b ∉ es.map Prod.fst → (putEntries es freq).getD b.toNat 0 = freq.getD b.toNat 0 := by
  induction es generalizing freq with
  | nil => simp [putEntries, hl]
  | cons e es ih =>
    simp only [List.map_cons, List.nodup_cons] at hn
    obtain ⟨h1, h2, h3⟩ := ih (freq.set e.1.toNat e.2) (by simp [hl]) hn.2
    have hw : putEntries (e :: es) freq = putEntries es (freq.set e.1.toNat e.2) := rfl
    have hlt : e.1.toNat < freq.length := by rw [hl]; exact byte_lt e.1
    rw [hw]
    refine ⟨h1, ?_, ?_⟩
    · intro x hx
      rcases List.mem_cons.1 hx with rfl | hx
      · rw [h3 _ hn.1, getD_set_nat _ _ _ _ hlt, if_pos rfl]
      · exact h2 x hx
    · intro b hb
      simp only [List.map_cons, List.mem_cons, not_or] at hb
      rw [h3 _ hb.2, getD_set_nat _ _ _ _ hlt, if_neg (fun hx => hb.1 (BitVec.eq_of_toNat_eq hx))]

/-- The entries of a table put it back together. -/
theorem putEntries_occurring {freq : List Nat} (hf : freq.length = 256) :
    putEntries (occurring freq) (List.replicate 256 0) = freq := by
  obtain ⟨h1, h2, h3⟩ := putEntries_spec (occurring freq) (List.replicate 256 0) List.length_replicate (occurring_nodup hf)
  apply List.ext_getElem
  · rw [h1, hf]
  · intro i hi1 hi2
    have hi : i < 256 := by omega
    have hb : (BitVec.ofNat 8 i).toNat = i := by rw [BitVec.toNat_ofNat, Nat.mod_eq_of_lt hi]
    have g1 : (putEntries (occurring freq) (List.replicate 256 0)).getD i 0 = (putEntries (occurring freq) (List.replicate 256 0))[i] := by
      rw [List.getD_eq_getElem?_getD, List.getElem?_eq_getElem hi1]; rfl
    have g2 : freq.getD i 0 = freq[i] := by
      rw [List.getD_eq_getElem?_getD, List.getElem?_eq_getElem hi2]; rfl
    rw [← g1, ← g2]
    by_cases hm : BitVec.ofNat 8 i ∈ (occurring freq).map Prod.fst
    · obtain ⟨⟨x, f⟩, he, hx⟩ := List.mem_map.1 hm
      simp only at hx
      subst hx
      have := h2 _ he
      simp only [hb] at this
      rw [this]
      obtain ⟨q1, -⟩ := (mem_occurring hf).1 he
      rw [hb] at q1
      rw [List.getD_eq_getElem?_getD, q1]
      rfl
    · have := h3 _ hm
      rw [hb] at this
      rw [this, List.getD_eq_getElem?_getD, List.getElem?_replicate, if_pos hi]
      rw [mem_syms hf, hb] at hm
      simp at hm ⊢
      omega

theorem engineStep_huffSym {s : State} {b : Byte} {f : Nat} {rest : List Byte} (hp : s.phase = .dHeader) (h0 : s.inPos ≠ 0)
    (hlt : s.inPos < s.huff.hdrLen) (hu : s.unread = encode (.huffSym b (BitVec.ofNat 32 f)) ++ rest)
    (hprev : ∀ p, s.huff.prev = some p → p.toNat < b.toNat) (hf : 0 < f) (hf' : f < 4294967296) :
    engineStep s = { s with
      huff := { s.huff with freq := s.huff.freq.set b.toNat f, prev := some b }, inPos := s.inPos + 5 } := by
  have hn : (BitVec.ofNat 32 f).toNat = f := by rw [BitVec.toNat_ofNat, Nat.mod_eq_of_lt hf']
  rw [engineStep_unit (c := .huffSym) (i := .huffSym b (BitVec.ofNat 32 f)) (rest := rest)
    (by simp only [State.boundary, hp, if_neg h0, if_pos hlt]) ?_]
  · have ho : inOrder s.huff.prev b = true := by
      unfold inOrder
      split
      · rfl
      · rename_i p hpv
        exact decide_eq_true (hprev p hpv)
    simp only [unitRun, huffSymRun]
    rw [ho, if_neg (by simp), hn, if_neg (by omega), Run.state_going]
  · rw [fetchBytes_stream (by decide), hu]
    simp [decode, decodeHuffSym, encode, u32le, le32_parts]

/-- The reading loop of `D_HEADER` (R193). -/
theorem huffSyms_end : ∀ (es : List (Byte × Nat)) {s : State} {rest : List Byte}, s.status = .busy → s.phase = .dHeader →
    s.inPos ≠ 0 → s.inPos + 5 * es.length = s.huff.hdrLen →
    s.unread = es.flatMap (fun p => encode (.huffSym p.1 (BitVec.ofNat 32 p.2))) ++ rest →
    es.Pairwise (fun x y => x.1.toNat < y.1.toNat) → (∀ e ∈ es, ∀ p, s.huff.prev = some p → p.toNat < e.1.toNat) →
    (∀ e ∈ es, 0 < e.2 ∧ e.2 < 4294967296) →
    ∃ pv, ∀ t, Ends { s with huff := { s.huff with freq := putEntries es s.huff.freq, prev := pv }, inPos := s.huff.hdrLen } t →
      Ends s t := by
  intro es
  induction es with
  | nil =>
    intro s rest hb hp h0 hl hu hasc hprev hpos
    refine ⟨s.huff.prev, fun t ht => ?_⟩
    simp only [List.length_nil, Nat.mul_zero, Nat.add_zero] at hl
    rw [← hl] at ht
    exact ht
  | cons e es ih =>
    intro s rest hb hp h0 hl hu hasc hprev hpos
    rw [List.length_cons] at hl
    rw [List.flatMap_cons, List.append_assoc] at hu
    obtain ⟨hp1, hp2⟩ := hpos e (by simp)
    have hstep := engineStep_huffSym hp h0 (by omega) hu (hprev e (by simp)) hp1 hp2
    generalize hd : engineStep s = d at *
    have hud : d.unread = es.flatMap (fun p => encode (.huffSym p.1 (BitVec.ofNat 32 p.2))) ++ rest := by
      have hx : d.unread = s.unread.drop 5 := by
        rw [hstep]
        simp only [State.unread, List.drop_drop]
        rfl
      rw [hx, hu]
      exact List.drop_left (l₁ := encode (.huffSym e.1 (BitVec.ofNat 32 e.2)))
    rw [List.pairwise_cons] at hasc
    obtain ⟨pv, h⟩ := ih (s := d) (by rw [hstep]; exact hb) (by rw [hstep]; exact hp) (by rw [hstep]; simp)
      (by rw [hstep]; simp only; omega) hud hasc.2
      (fun x hx p hpp => by rw [hstep] at hpp; cases hpp; exact hasc.1 x hx) (fun x hx => hpos x (by simp [hx]))
    refine ⟨pv, fun t ht => Ends.step hb (hd ▸ h t ?_)⟩
    rw [hstep]
    exact ht

/-! ## The header, the checks and the walk -/

/-- The header's registers, written by `HUFF.HDR`. -/
theorem engineStep_huffHdr {s : State} {o k : Nat} {p : Nat} {rest : List Byte} (hp : s.phase = .dHeader) (h0 : s.inPos = 0)
    (hu : s.unread = encode (.huffHdr (BitVec.ofNat 32 o) (BitVec.ofNat 64 p) (BitVec.ofNat 16 k)) ++ rest)
    (ho : o < 4294967296) (hpl : p < 18446744073709551616) (hk1 : 1 ≤ k) (hk2 : k ≤ 256) (hn : 14 + 5 * k ≤ s.n) :
    engineStep s = { s with
      inPos := 14
      huff := { s.huff with
        origLen := o, payloadBits := p, k := k, hdrLen := 14 + 5 * k, freq := List.replicate 256 0, prev := none } } := by
  have e1 : (BitVec.ofNat 32 o).toNat = o := by rw [BitVec.toNat_ofNat, Nat.mod_eq_of_lt ho]
  have e2 : (BitVec.ofNat 64 p).toNat = p := by rw [BitVec.toNat_ofNat, Nat.mod_eq_of_lt hpl]
  have e3 : (BitVec.ofNat 16 k).toNat = k := by rw [BitVec.toNat_ofNat, Nat.mod_eq_of_lt (by omega)]
  rw [engineStep_unit (c := .huffHdr) (i := .huffHdr (BitVec.ofNat 32 o) (BitVec.ofNat 64 p) (BitVec.ofNat 16 k)) (rest := rest)
    (by simp only [State.boundary, hp, if_pos h0]) ?_]
  · simp only [unitRun, huffHdrRun]
    rw [e1, e2, e3, if_neg (by omega), if_neg (by omega), Run.state_going]
  · rw [fetchBytes_stream (by decide), hu]
    simp [decode, decodeHuffHdr, encode, u32le, u64le, u16le, le32_parts, le64_parts, le16_parts]

theorem engineStep_dHeaderEnd {s : State} (hp : s.phase = .dHeader) (h0 : s.inPos ≠ 0) (hl : s.huff.hdrLen ≤ s.inPos) :
    engineStep s = (dHeaderEnd s).state := by
  rw [engineStep_phase (by simp only [State.boundary, hp, if_neg h0, if_neg (Nat.not_lt.2 hl)])]
  simp only [phaseRun, hp]

theorem engineStep_dCheck {s : State} (hp : s.phase = .dCheck) : engineStep s = (dCheckPhase s).state := by
  rw [engineStep_phase (by simp only [State.boundary, hp])]
  simp only [phaseRun, hp]

theorem engineStep_dWalk {s : State} (hp : s.phase = .dWalk) : engineStep s = (huffBitsRun s.unread s).state := by
  rw [engineStep_unit (c := .huffBits) (i := .huffBits s.unread) (rest := [])
    (by simp only [State.boundary, hp]) (by rw [fetchBytes_stream (by decide)]; rfl)]
  rfl

/-- `HUFF_DECOMPRESS` on a stream whose header is that of a frequency table: it gets to the walk, with the encoder's tree. -/
theorem huff_header_ends {s : State} {freq : List Nat} {payload : List Byte} (hl : s.launchable) (hf : freq.length = 256)
    (hs : 0 < freq.sum) (hs2 : freq.sum < 4294967296) (hb : payloadLength freq (codesOf freq) < 18446744073709551616)
    (hpl : payload.length ≤ ceil8 (payloadLength freq (codesOf freq))) (hc : freq.sum ≤ s.params.outCap)
    (hin : s.input = encode (.huffHdr (BitVec.ofNat 32 freq.sum) (BitVec.ofNat 64 (payloadLength freq (codesOf freq)))
        (BitVec.ofNat 16 (occurring freq).length)) ++
      (occurring freq).flatMap (fun p => encode (.huffSym p.1 (BitVec.ofNat 32 p.2))) ++ payload) :
    ∃ w : State, (w.phase = .dWalk ∧ w.status = .busy ∧ w.err = none ∧ Wrote w [] ∧ w.params = s.params ∧ w.unread = payload ∧
        w.huff.origLen = freq.sum ∧ w.huff.k = (occurring freq).length ∧ w.huff.node = (buildTree (regsOf freq)).node ∧
        w.huff.root = (buildTree (regsOf freq)).root ∧ w.huff.payloadBits = payloadLength freq (codesOf freq)) ∧
      ∀ t, Ends w t → exec .huffDecompress s = .next t := by
  have hocc1 := occurring_pos hs
  have hocc2 := occurring_le hf
  obtain ⟨hk, hcode⟩ := codesOf_spec hf hs
  have hsyml : ((occurring freq).flatMap (fun p => encode (.huffSym p.1 (BitVec.ofNat 32 p.2)))).length = 5 * (occurring freq).length := by
    induction occurring freq with
    | nil => rfl
    | cons p ps ih => rw [List.flatMap_cons, List.length_append, ih, List.length_cons]; simp [encode, u32le]; omega
  have hlen : s.inLen.toNat = 14 + 5 * (occurring freq).length + payload.length := by
    have := congrArg List.length hin
    rw [List.length_append, List.length_append, hsyml] at this
    simpa [State.input, encode, u32le, u64le, u16le] using this
  have hle : ∀ e ∈ occurring freq, 0 < e.2 ∧ e.2 < 4294967296 := by
    rintro ⟨b, f⟩ he
    obtain ⟨h1, h2⟩ := (mem_occurring hf).1 he
    exact ⟨h2, Nat.lt_of_le_of_lt (List.le_sum_of_mem (List.mem_of_getElem? h1)) hs2⟩
  rw [List.append_assoc] at hin
  have hstep := engineStep_huffHdr (s := { launch 0x04 s with phase := .dHeader }) (o := freq.sum)
    (p := payloadLength freq (codesOf freq)) (k := (occurring freq).length) rfl rfl hin hs2 hb hocc1 hocc2
    (by show 14 + 5 * (occurring freq).length ≤ s.inLen.toNat; omega)
  generalize hd : engineStep { launch 0x04 s with phase := .dHeader } = d at *
  have hud : d.unread = (occurring freq).flatMap (fun p => encode (.huffSym p.1 (BitVec.ofNat 32 p.2))) ++ payload := by
    have hx : d.unread = s.input.drop 14 := by rw [hstep]; rfl
    rw [hx, hin]
    exact List.drop_left (l₁ := encode (.huffHdr (BitVec.ofNat 32 freq.sum) _ _))
  obtain ⟨pv, h⟩ := huffSyms_end (occurring freq) (s := d) (rest := payload) (by rw [hstep]; rfl) (by rw [hstep])
    (by rw [hstep]; simp) (by rw [hstep]) hud (occFrom_ascending (n := 0) (by omega)) (by rw [hstep]; simp) hle
  have hfr : putEntries (occurring freq) d.huff.freq = freq := by
    rw [hstep]
    exact putEntries_occurring hf
  rw [hfr] at h
  generalize hE : ({ d with huff := { d.huff with freq := freq, prev := pv }, inPos := d.huff.hdrLen } : State) = e at h
  have e1 : e.phase = .dHeader := by rw [← hE, hstep]
  have e2 : e.inPos = 14 + 5 * (occurring freq).length := by rw [← hE, hstep]
  have e3 : e.huff.hdrLen = 14 + 5 * (occurring freq).length := by rw [← hE, hstep]
  have e4 : e.huff.freq = freq := by rw [← hE]
  have e5 : e.huff.origLen = freq.sum := by rw [← hE, hstep]
  have e6 : e.huff.payloadBits = payloadLength freq (codesOf freq) := by rw [← hE, hstep]
  have e7 : e.status = .busy := by rw [← hE, hstep]; rfl
  have e8 : e.err = none := by rw [← hE, hstep]; rfl
  have e9 : Wrote e [] := by rw [← hE, hstep]; exact ⟨rfl, rfl⟩
  have e10 : e.params = s.params := by rw [← hE, hstep]; rfl
  have e11 : e.unread = payload := by
    have hx : e.unread = s.input.drop (14 + 5 * (occurring freq).length) := by rw [← hE, hstep]; rfl
    rw [hx, hin, ← List.append_assoc]
    refine List.drop_left' ?_
    rw [List.length_append, hsyml]
    simp [encode, u32le, u64le, u16le]
  have e12 : e.n = s.inLen.toNat := by rw [← hE, hstep]; rfl
  clear hE hstep
  have s1 : engineStep e = { e with phase := .dBuild } := by
    rw [engineStep_dHeaderEnd e1 (by omega) (by omega), dHeaderEnd, e4, e5, if_neg (by simp), Run.state_going]
  have s2 : engineStep { e with phase := .dBuild } = { e with huff := buildTree e.huff, phase := .dCodes } := engineStep_dBuild rfl
  have s3 : engineStep { e with huff := buildTree e.huff, phase := .dCodes } =
      { e with huff := genCodes (buildTree e.huff), phase := .dCheck } := engineStep_dCodes rfl
  have s4 : engineStep { e with huff := genCodes (buildTree e.huff), phase := .dCheck } =
      { e with huff := genCodes (buildTree e.huff), phase := .dWalk } := by
    rw [engineStep_dCheck rfl, genCodes_buildTree, e4, buildTree_regs, dCheckPhase]
    have g1 : ¬ payloadLength freq (codesOf freq) ≠ e.huff.payloadBits := by rw [e6]; simp
    have g2 : ¬ ceil8 e.huff.payloadBits < e.n - e.huff.hdrLen := by rw [e6, e12, e3, hlen]; omega
    have g3 : ¬ e.params.outCap < e.huff.origLen := by rw [e10, e5]; omega
    simp only [if_neg g1, if_neg g2, if_neg g3, Run.state_going]
  refine ⟨{ e with huff := genCodes (buildTree e.huff), phase := .dWalk }, ⟨rfl, e7, e8, e9, e10, e11, e5, ?_, ?_, ?_, e6⟩, ?_⟩
  · rw [← hk, ← e4]; rfl
  · rw [← e4]; rfl
  · rw [← e4]; rfl
  · intro t ht
    refine exec_command_ends (c := 0x04) rfl rfl hl (by omega) (Ends.step rfl ?_)
    rw [show firstPhase .huffDecompress = .dHeader from rfl, hd]
    refine h t (Ends.step e7 ?_)
    rw [s1]
    refine Ends.step e7 ?_
    rw [s2]
    refine Ends.step e7 ?_
    rw [s3]
    refine Ends.step e7 ?_
    rw [s4]
    exact ht

/-- `HUFF_DECOMPRESS` on the header of a frequency table and a shorter payload than declared ends with `TruncatedStream` (R201, D16). -/
theorem huff_decompress_short {s : State} {freq : List Nat} {payload : List Byte} (hl : s.launchable) (hf : freq.length = 256)
    (hs : 0 < freq.sum) (hs2 : freq.sum < 4294967296) (hb : payloadLength freq (codesOf freq) < 18446744073709551616)
    (hpl : payload.length < ceil8 (payloadLength freq (codesOf freq))) (hc : freq.sum ≤ s.params.outCap)
    (hin : s.input = encode (.huffHdr (BitVec.ofNat 32 freq.sum) (BitVec.ofNat 64 (payloadLength freq (codesOf freq)))
        (BitVec.ofNat 16 (occurring freq).length)) ++
      (occurring freq).flatMap (fun p => encode (.huffSym p.1 (BitVec.ofNat 32 p.2))) ++ payload) :
    ∃ t, exec .huffDecompress s = .next t ∧ t.status = .error ∧ t.err = some .truncatedStream ∧ t.outLen = 0 := by
  obtain ⟨w, ⟨w1, w2, -, -, -, w6, -, -, -, -, w11⟩, hw⟩ := huff_header_ends hl hf hs hs2 hb (by omega) hc hin
  have hstep := engineStep_dWalk w1
  rw [huffBitsRun_short (by rw [w6, w11]; exact hpl)] at hstep
  exact ⟨_, hw _ (Ends.step w2 (by rw [hstep]; exact Ends.here (by show Status.error ≠ .busy; decide))), rfl, rfl, rfl⟩

/-- `HUFF_DECOMPRESS` on the header of a frequency table and a payload of the declared length whose bits begin with the codes of `out`
(with one symbol: whatever its bits) delivers `out`, `BITPOS` counting the bits consumed. -/
theorem huff_decompress_ends {s : State} {freq : List Nat} {out payload : List Byte} (hl : s.launchable) (hf : freq.length = 256)
    (hos : out.length = freq.sum) (hne : out ≠ []) (hlt : out.length < 4294967296) (hc : out.length ≤ s.params.outCap)
    (hout : ∀ b ∈ out, b ∈ (occurring freq).map Prod.fst)
    (hb : payloadLength freq (codesOf freq) < 18446744073709551616)
    (hpl : payload.length = ceil8 (payloadLength freq (codesOf freq)))
    (hin : s.input = encode (.huffHdr (BitVec.ofNat 32 out.length) (BitVec.ofNat 64 (payloadLength freq (codesOf freq)))
        (BitVec.ofNat 16 (occurring freq).length)) ++
      (occurring freq).flatMap (fun p => encode (.huffSym p.1 (BitVec.ofNat 32 p.2))) ++ payload)
    (hbits : ((occurring freq).length = 1 ∧ out.length ≤ payloadLength freq (codesOf freq)) ∨
      ∃ rest, (payloadBitList payload).take (payloadLength freq (codesOf freq)) = out.flatMap (codeOf (codesOf freq)) ++ rest) :
    ∃ t, exec .huffDecompress s = .next t ∧ Delivers t out ∧ t.huff.bitPos = (out.flatMap (codeOf (codesOf freq))).length ∧
      t.huff.payloadBits = payloadLength freq (codesOf freq) := by
  have hs : 0 < freq.sum := by rw [← hos]; exact List.length_pos_iff.2 hne
  obtain ⟨hk, hcode⟩ := codesOf_spec hf hs
  obtain ⟨w, ⟨w1, w2, w3, w4, w5, w6, w7, w8, w9, w10, w11⟩, hw⟩ := huff_header_ends (payload := payload) hl hf hs
    (by omega) hb hpl.le (by omega) (by rw [← hos]; exact hin)
  rw [← hos] at w7
  have hfull : ceil8 w.huff.payloadBits ≤ payload.length := by rw [w11]; exact hpl.ge
  have hcb : codeBits payload w = (payloadBitList payload).take (payloadLength freq (codesOf freq)) := by rw [codeBits, w11]
  have hlb := length_codeBits hfull
  rw [w11] at hlb
  have hstep := engineStep_dWalk w1
  rw [w6, huffBitsRun_walk hfull] at hstep
  have hwo : w.outPos = 0 := w4.2
  have hfin : ∀ cur, walk (codeBits payload w) (walkStart w) =
        .going (walking cur (out.flatMap (codeOf (codesOf freq))).length (putAll out w)) →
      ∃ t, exec .huffDecompress s = .next t ∧ Delivers t out ∧ t.huff.bitPos = (out.flatMap (codeOf (codesOf freq))).length ∧
        t.huff.payloadBits = payloadLength freq (codesOf freq) := by
    intro cur h
    rw [h, Run.going_andThen, Run.state_ended] at hstep
    refine ⟨finish (walking cur (out.flatMap (codeOf (codesOf freq))).length (putAll out w)),
      hw _ (Ends.step w2 (by rw [hstep]; exact Ends.here (by show Status.done ≠ .busy; decide))), ?_, rfl, w11⟩
    exact Wrote.finish (s := walking cur _ (putAll out w)) (w4.putAll out) w3
  have hcap : (walkStart w).huff.origLen ≤ (walkStart w).params.outCap := by
    show w.huff.origLen ≤ w.params.outCap
    rw [w7, w5]
    exact hc
  by_cases h1 : (occurring freq).length = 1
  · obtain ⟨b, f, g1, g2, g3⟩ := hcode.one h1
    have hrep : out = List.replicate out.length b := by
      refine List.eq_replicate_of_mem ?_
      intro x hx
      have := hout x hx
      rw [g1] at this
      simpa using this
    have hbl : (out.flatMap (codeOf (codesOf freq))).length = out.length := by
      rw [hrep, List.flatMap_replicate, g3]
      simp
    have hlong : out.length ≤ payloadLength freq (codesOf freq) := by
      rcases hbits with h | ⟨rest, h⟩
      · exact h.2
      · have := congrArg List.length h
        rw [← hcb, hlb, List.length_append, hbl] at this
        omega
    have hsplit := (List.take_append_drop out.length (codeBits payload w)).symm
    have htl : ((codeBits payload w).take out.length).length = out.length := by rw [List.length_take]; omega
    have := walk_single (s := walkStart w) (sym := b) (f := f) ((codeBits payload w).take out.length)
      ((codeBits payload w).drop out.length) (by show w.huff.node[w.huff.root]? = _; rw [w9, w10]; exact g2)
      (w8.trans h1) (by rw [htl]; show w.outPos + _ ≤ w.huff.origLen; omega) hcap
    rw [htl, ← hrep, ← hsplit] at this
    refine hfin (walkStart w).huff.cur ((this.trans (walk_stop _ (by show w.huff.origLen ≤ w.outPos + out.length; omega))).trans ?_)
    rw [hbl]
    simp only [walking, walkStart, putAll, Nat.zero_add]
  · obtain ⟨rest, hrest⟩ := hbits.resolve_left (fun h => h1 h.1)
    have hxs : (out.map (fun b => (b, codeOf (codesOf freq) b))).flatMap Prod.snd = out.flatMap (codeOf (codesOf freq)) := by
      simp [List.flatMap_map]
    have hfst : (out.map (fun b => (b, codeOf (codesOf freq) b))).map Prod.fst = out := by
      simp [Function.comp_def]
    have := walk_symbols (s := walkStart w) (node := w.huff.node) (root := w.huff.root)
      (out.map (fun b => (b, codeOf (codesOf freq) b))) rest rfl rfl (by show w.huff.k ≠ 1; rw [w8]; exact h1)
      (by rw [walkStart]; exact if_neg (by rw [w8]; exact h1)) (by
        intro x hx
        obtain ⟨b, hb, rfl⟩ := List.mem_map.1 hx
        rw [w9, w10]
        exact ⟨(hcode.some_of b (hout b hb)).1, hcode.many h1 b (hout b hb)⟩)
      (by rw [List.length_map]; show w.outPos + out.length ≤ w.huff.origLen; omega) hcap
    rw [hxs, hfst, ← hrest, ← hcb] at this
    refine hfin w.huff.root ((this.trans (walk_stop _ (by show w.huff.origLen ≤ w.outPos + out.length; omega))).trans ?_)
    simp only [walking, walkStart, putAll, Nat.zero_add]

end Sys2Proof.Machine
end

