-- ==== Sys2Proof/Laws/Operands.lean ====
section
/-! SUPPORT. The two ways a field is read agree: `leNat` of R9 and R61, and the fields the decoder takes (30_encoding.md R110). -/

namespace Sys2Proof.Machine

theorem toNat_append_byte {n : Nat} (x : BitVec n) (b : Byte) : (x ++ b).toNat = x.toNat * 256 + b.toNat := by
  rw [BitVec.toNat_append, ← Nat.shiftLeft_add_eq_or_of_lt b.isLt, Nat.shiftLeft_eq]

/-- The little-endian number of R61 is the field of R110. -/
theorem leNat_le16 (b0 b1 : Byte) : leNat [b0, b1] = (le16 b0 b1).toNat := by
  simp only [leNat, le16, toNat_append_byte]
  omega

theorem leNat_le32 (b0 b1 b2 b3 : Byte) : leNat [b0, b1, b2, b3] = (le32 b0 b1 b2 b3).toNat := by
  simp only [leNat, le32, toNat_append_byte]
  omega

theorem leNat_le64 (b0 b1 b2 b3 b4 b5 b6 b7 : Byte) :
    leNat [b0, b1, b2, b3, b4, b5, b6, b7] = (le64 b0 b1 b2 b3 b4 b5 b6 b7).toNat := by
  simp only [leNat, le64, toNat_append_byte]
  omega

end Sys2Proof.Machine
end

