-- ==== Sys2Proof/Laws/PerInstr.lean ====
section
/-! SUPPORT. Statements about each instruction as syntax, one lemma per constructor. -/

namespace Sys2Proof.Laws.EncodedLength

/-- The number of bytes of each instruction's encoding, as the rows of spec/opcode_table.json give it (30_encoding.md R91, R96 to
R98, R101 to R103, R106 to R108). The Huffman payload is as long as its bytes. -/
def Statement (i : Instr) : Prop :=
  (encode i).length =
    match i with
    | .huffCompress | .lz77Compress | .rleCompress | .huffDecompress | .lz77Decompress | .rleDecompress => 1
    | .lz77Hdr _ => 4
    | .lz77Lit _ => 2
    | .lz77Match _ _ _ => 6
    | .huffHdr _ _ _ => 14
    | .huffSym _ _ => 5
    | .huffBits payload => payload.length
    | .rleRaw _ => 1
    | .rleEsclit => 3
    | .rleRun _ _ => 3

theorem huffCompress : Statement .huffCompress := rfl
theorem lz77Compress : Statement .lz77Compress := rfl
theorem rleCompress : Statement .rleCompress := rfl
theorem huffDecompress : Statement .huffDecompress := rfl
theorem lz77Decompress : Statement .lz77Decompress := rfl
theorem rleDecompress : Statement .rleDecompress := rfl
theorem lz77Hdr (origLen : BitVec 32) : Statement (.lz77Hdr origLen) := rfl
theorem lz77Lit (byte : Byte) : Statement (.lz77Lit byte) := rfl
theorem lz77Match (distance length : BitVec 16) (next : Byte) : Statement (.lz77Match distance length next) := rfl
theorem huffHdr (origLen : BitVec 32) (payloadBits : BitVec 64) (symCount : BitVec 16) :
    Statement (.huffHdr origLen payloadBits symCount) := rfl
theorem huffSym (sym : Byte) (freq : BitVec 32) : Statement (.huffSym sym freq) := rfl
theorem huffBits (payload : List Byte) : Statement (.huffBits payload) := rfl
theorem rleRaw (byte : Byte) : Statement (.rleRaw byte) := rfl
theorem rleEsclit : Statement .rleEsclit := rfl
theorem rleRun (count byte : Byte) : Statement (.rleRun count byte) := rfl

end Sys2Proof.Laws.EncodedLength
end

