-- ==== Sys2Proof/Tests/Slice0.lean ====
section
/-! SUPPORT. Tests: the checks of WellFormed, the decoding of words written out from the spec's layouts, one or two vectors of
95_test_vectors.md per instruction, and for each statement with hypotheses a state and operands that meet them. -/

namespace Sys2Proof.Tests

open Sys2Proof.Machine

/-! ## Small machines -/

/-- The machine after reset with `inp` in `IN` and its length in `IN_LEN`. -/
def machineOf (inp : List Byte) : State :=
  { State.reset with inp := Memory.writeAll [] 0 inp, inLen := BitVec.ofNat 32 inp.length }

/-- As `machineOf`, with another capacity of `OUT`. -/
def machineCap (outCap : Nat) (inp : List Byte) : State :=
  { machineOf inp with params := { Params.reference with outCap := outCap } }

/-- A running command in phase `ph` with `inp` as its input, its read position at `pos`. -/
def runningAt (ph : Phase) (inp : List Byte) (pos : Nat) : State :=
  { machineOf inp with status := .busy, phase := ph, n := inp.length, inPos := pos }

/-- A machine whose host asks for `op` next. -/
def asked (op : HostOp) (s : State) : State := { s with host := [⟨true, op⟩] }

/-- What a completion shows: `STATUS`, `ERR`, `OUT_LEN` and the bytes of the result. -/
def shown : Host.Outcome State Fault Refusal → Option (Status × Option ErrKind × Word × List Byte)
  | .next t => some (t.status, t.err, t.outLen, t.result)
  | _ => none

/-- The outcome is a next state with property `p`. -/
def nextHas (o : Host.Outcome State Fault Refusal) (p : State → Bool) : Bool :=
  match o with
  | .next t => p t
  | _ => false

theorem nextHas_exists {o : Host.Outcome State Fault Refusal} {p : State → Bool} (h : nextHas o p = true) :
    ∃ t, o = .next t ∧ p t = true := by
  cases o with
  | next t => exact ⟨t, rfl, h⟩
  | fault _ => simp [nextHas] at h
  | refused _ => simp [nextHas] at h

/-! ## WellFormed -/

theorem test_wf_refuses_raw_of_the_escape_byte : (Instr.rleRaw 0xFF).wf = false := by decide
theorem test_wf_refuses_run_of_count_zero : (Instr.rleRun 0x00 0x41).wf = false := by decide

/-! ## Decoding: words written out from the layouts of 30_encoding.md -/

theorem test_decode_huffCompress : decode .cmd [0b00000000] = .ok (.huffCompress, []) := by decide
theorem test_decode_lz77Compress : decode .cmd [0b00000001] = .ok (.lz77Compress, []) := by decide
theorem test_decode_rleCompress : decode .cmd [0b00000010] = .ok (.rleCompress, []) := by decide
theorem test_decode_huffDecompress : decode .cmd [0b00000100] = .ok (.huffDecompress, []) := by decide
theorem test_decode_lz77Decompress : decode .cmd [0b00000101] = .ok (.lz77Decompress, []) := by decide
theorem test_decode_rleDecompress : decode .cmd [0b00000110] = .ok (.rleDecompress, []) := by decide
theorem test_decode_unassigned_algorithm : decode .cmd [0b00000011] = .error .unknownAlgorithm := by decide
theorem test_decode_reserved_bit : decode .cmd [0b00001000] = .error .unknownAlgorithm := by decide
theorem test_decode_lz77Hdr : decode .lz77Hdr [0x07, 0x01, 0x00, 0x80, 0x00] = .ok (.lz77Hdr 0x80000107, [0x00]) := by decide
theorem test_decode_lz77Lit : decode .lz77Tok [0x00, 0x61, 0x01] = .ok (.lz77Lit 0x61, [0x01]) := by decide
theorem test_decode_lz77Match :
    decode .lz77Tok [0x01, 0x02, 0x01, 0x03, 0x04, 0x64] = .ok (.lz77Match 0x0102 0x0403 0x64, []) := by decide
theorem test_decode_huffHdr :
    decode .huffHdr [0x0B, 0, 0, 0, 0x17, 0, 0, 0, 0, 0, 0, 0x80, 0x05, 0x01] =
      .ok (.huffHdr 11 0x8000000000000017 0x0105, []) := by decide
theorem test_decode_huffSym : decode .huffSym [0x61, 0x05, 0x00, 0x02, 0x00] = .ok (.huffSym 0x61 0x00020005, []) := by decide
theorem test_decode_huffBits : decode .huffBits [0x6E, 0x8A, 0xDC] = .ok (.huffBits [0x6E, 0x8A, 0xDC], []) := by decide
theorem test_decode_rleRaw : decode .rleRec [0x41, 0xFF] = .ok (.rleRaw 0x41, [0xFF]) := by decide
theorem test_decode_rleEsclit : decode .rleRec [0xFF, 0x00, 0xFF, 0x41] = .ok (.rleEsclit, [0x41]) := by decide
theorem test_decode_rleRun : decode .rleRec [0xFF, 0x01, 0xFF] = .ok (.rleRun 0x01 0xFF, []) := by decide

/-- The opcode table writes a row's bytes first byte leftmost (log 13). -/
theorem test_tableWord_of_match : decodeTableWord 48 0x010200030064 = some (.lz77Match 2 3 0x64) := by decide
theorem test_tableWord_of_esclit : decodeTableWord 24 0xFF00FF = some .rleEsclit := by decide

/-! ## Vectors of 95_test_vectors.md -/

/-- Row HC1. -/
theorem test_huffCompress_abracadabra :
    shown (exec .huffCompress (machineOf [0x61, 0x62, 0x72, 0x61, 0x63, 0x61, 0x64, 0x61, 0x62, 0x72, 0x61])) =
      some (.done, none, 42, [0x0B, 0, 0, 0, 0x17, 0, 0, 0, 0, 0, 0, 0, 5, 0, 0x61, 5, 0, 0, 0, 0x62, 2, 0, 0, 0,
        0x63, 1, 0, 0, 0, 0x64, 1, 0, 0, 0, 0x72, 2, 0, 0, 0, 0x6E, 0x8A, 0xDC]) := by decide +kernel

/-- Row IF7. -/
theorem test_huffCompress_overflows_at_19 : shown (exec .huffCompress (machineCap 19 [0x41])) =
    some (.error, some .outputOverflow, 0, []) := by decide +kernel

/-- Row HD2: the padding bit is set. -/
theorem test_huffDecompress_ignores_padding :
    shown (exec .huffDecompress (machineOf [0x0B, 0, 0, 0, 0x17, 0, 0, 0, 0, 0, 0, 0, 5, 0, 0x61, 5, 0, 0, 0, 0x62, 2, 0, 0, 0,
        0x63, 1, 0, 0, 0, 0x64, 1, 0, 0, 0, 0x72, 2, 0, 0, 0, 0x6E, 0x8A, 0xDD])) =
      some (.done, none, 11, [0x61, 0x62, 0x72, 0x61, 0x63, 0x61, 0x64, 0x61, 0x62, 0x72, 0x61]) := by decide +kernel

/-- R197, D16: frequencies `A` 1, `B` 1, `C` 14 declare 18 bits, so three bytes; with two of them `C` sixteen times is not reached. -/
theorem test_huffDecompress_truncates_a_short_payload :
    shown (exec .huffDecompress (machineOf [16, 0, 0, 0, 18, 0, 0, 0, 0, 0, 0, 0, 3, 0, 0x41, 1, 0, 0, 0, 0x42, 1, 0, 0, 0,
        0x43, 14, 0, 0, 0, 0xFF, 0xFF])) =
      some (.error, some .truncatedStream, 0, []) := by decide +kernel

/-- R202, D17: frequencies `A` 1, `B` 1, `C` 2 declare 6 bits (`C` is `0`, `A` is `10`, `B` is `11`); padding bits set add nothing. -/
theorem test_huffDecompress_never_reads_padding :
    shown (exec .huffDecompress (machineOf [4, 0, 0, 0, 6, 0, 0, 0, 0, 0, 0, 0, 3, 0, 0x41, 1, 0, 0, 0, 0x42, 1, 0, 0, 0,
        0x43, 2, 0, 0, 0, 0b10110011])) =
      some (.done, none, 4, [0x41, 0x42, 0x43, 0x43]) := by decide +kernel

/-- R201, log 16: `A A A` uses up the 6 declared bits. -/
theorem test_huffDecompress_stops_at_the_declared_bits :
    shown (exec .huffDecompress (machineOf [4, 0, 0, 0, 6, 0, 0, 0, 0, 0, 0, 0, 3, 0, 0x41, 1, 0, 0, 0, 0x42, 1, 0, 0, 0,
        0x43, 2, 0, 0, 0, 0b10101000])) =
      some (.error, some .truncatedStream, 0, []) := by decide +kernel

/-- Row HD20. -/
theorem test_huffDecompress_refuses_zero_frequency :
    shown (exec .huffDecompress (machineOf [0, 0, 0, 0, 0, 0, 0, 0, 0, 0, 0, 0, 1, 0, 0x41, 0, 0, 0, 0])) =
      some (.error, some .corruptHeader, 0, []) := by decide +kernel

/-- Row LC2. -/
theorem test_lz77Compress_prefers_the_longer_match :
    shown (exec .lz77Compress (machineOf [0x61, 0x62, 0x63, 0x61, 0x62, 0x63, 0x61, 0x62, 0x63, 0x61, 0x62, 0x63, 0x58])) =
      some (.done, none, 22, [0x0D, 0, 0, 0, 0, 0x61, 0, 0x62, 0, 0x63, 1, 3, 0, 3, 0, 0x61, 1, 6, 0, 5, 0, 0x58]) := by
  decide +kernel

/-- Row LC4: the filler after a match that ends the input. -/
theorem test_lz77Compress_fills_at_the_end :
    shown (exec .lz77Compress (machineOf [0x61, 0x62, 0x63, 0x61, 0x62, 0x63])) =
      some (.done, none, 16, [6, 0, 0, 0, 0, 0x61, 0, 0x62, 0, 0x63, 1, 3, 0, 3, 0, 0]) := by decide +kernel

/-- Row LD2: an overlapping copy. -/
theorem test_lz77Decompress_copies_overlapping :
    shown (exec .lz77Decompress (machineOf [8, 0, 0, 0, 0, 0x41, 0, 0x42, 1, 2, 0, 5, 0, 0x43])) =
      some (.done, none, 8, [0x41, 0x42, 0x41, 0x42, 0x41, 0x42, 0x41, 0x43]) := by decide +kernel

/-- Row LD22: the distance is tested before the length. -/
theorem test_lz77Decompress_tests_distance_first :
    shown (exec .lz77Decompress (machineOf [2, 0, 0, 0, 0, 0x41, 1, 5, 0, 9, 0, 0x42])) =
      some (.error, some .invalidDistance, 0, []) := by decide +kernel

/-- Row EC16. -/
theorem test_rleCompress_mixed :
    shown (exec .rleCompress (machineOf [0x41, 0x41, 0x41, 0x41, 0x42, 0xFF, 0xFF, 0x43, 0x43])) =
      some (.done, none, 9, [0xFF, 4, 0x41, 0x42, 0xFF, 2, 0xFF, 0x43, 0x43]) := by decide +kernel

/-- R281: a run one longer than the cap. -/
theorem test_run_is_capped : leadingRun 0x41 (List.replicate 256 0x41) (runCap - 1) + 1 = 255 := by decide +kernel

/-- Row ED12. -/
theorem test_rleDecompress_mixed :
    shown (exec .rleDecompress (machineOf [0xFF, 4, 0x41, 0x42, 0xFF, 0, 0xFF])) =
      some (.done, none, 6, [0x41, 0x41, 0x41, 0x41, 0x42, 0xFF]) := by decide +kernel

/-- Row ED8: too short wins over the escape rule. -/
theorem test_rleDecompress_truncated : shown (exec .rleDecompress (machineOf [0xFF, 0])) =
    some (.error, some .truncatedStream, 0, []) := by decide +kernel

/-- R251, R252. -/
theorem test_lz77Hdr_sets_target :
    nextHas (step (runningAt .mHeader [0x0A, 0, 0, 0, 0, 0x41] 0))
      (fun t => t.lz.target == 10 && t.inPos == 4 && t.phase == .mToken) = true := by decide

/-- R255. -/
theorem test_lz77Lit_appends :
    nextHas (step { runningAt .mToken [0x0A, 0, 0, 0, 0, 0x41] 4 with lz := { LzRegs.init with target := 10 } })
      (fun t => t.out == [(0, 0x41)] && t.inPos == 6 && t.outPos == 1) = true := by decide

/-- R260: at the target the trailing literal is dropped, below it, it is appended. -/
theorem test_lz77Match_drops_the_literal_at_the_target :
    nextHas (exec (.lz77Match 1 2 0x42) { runningAt .mToken [] 0 with
        out := [(0, 0x41)], outPos := 1, lz := { LzRegs.init with target := 3 } })
      (fun t => t.out == [(0, 0x41), (1, 0x41), (2, 0x41)] && t.inPos == 6) = true := by decide
theorem test_lz77Match_of_length_zero :
    nextHas (exec (.lz77Match 1 0 0x42) { runningAt .mToken [] 0 with
        out := [(0, 0x41)], outPos := 1, lz := { LzRegs.init with target := 3 } })
      (fun t => t.out == [(0, 0x41), (1, 0x42)]) = true := by decide

/-- Row HD9: `SYM_COUNT = 257`. -/
theorem test_huffHdr_refuses_257_symbols :
    nextHas (exec (.huffHdr 11 23 257) { runningAt .dHeader [] 0 with n := 5000 })
      (fun t => t.err == some .corruptHeader && t.huff.k == 0) = true := by decide

/-- R193. -/
theorem test_huffSym_stores_the_frequency :
    nextHas (exec (.huffSym 0x02 0x0105) (runningAt .dHeader [] 14))
      (fun t => t.huff.freq.take 4 == [0, 0, 261, 0] && t.huff.prev == some 2 && t.inPos == 19) = true := by decide

/-- R62, R199: `1`, `0`, then padding, with left `42` and right `41`. -/
theorem test_huffBits_walks_from_the_most_significant_bit :
    nextHas (exec (.huffBits [0b10000000]) { runningAt .dWalk [] 0 with
        huff := { HuffRegs.init with
          node := [.leaf 0x41 1, .leaf 0x42 1, .internal 2 1 0], k := 2, root := 2, origLen := 2, payloadBits := 2 } })
      (fun t => t.out == [(0, 0x41), (1, 0x42)] && t.status == .done && t.huff.bitPos == 2) = true := by decide

/-- R289. -/
theorem test_rleRaw_appends :
    nextHas (step (runningAt .sToken [0x41, 0xFF] 0)) (fun t => t.out == [(0, 0x41)] && t.inPos == 1) = true := by decide

/-- R291. -/
theorem test_rleEsclit_appends :
    nextHas (step (runningAt .sToken [0xFF, 0x00, 0xFF] 0)) (fun t => t.out == [(0, 0xFF)] && t.inPos == 3) = true := by decide

/-- R292, with count 1 (row ED2). -/
theorem test_rleRun_of_one :
    nextHas (step (runningAt .sToken [0xFF, 0x01, 0x41] 0)) (fun t => t.out == [(0, 0x41)] && t.inPos == 3) = true := by decide

/-- Row IF2. -/
theorem test_command_03_is_unknown :
    shown (step (asked (.writeCmd 0x03) (machineOf [1, 2, 3, 4, 5]))) = some (.error, some .unknownAlgorithm, 0, []) := by
  decide +kernel

/-- A word placed for the fetch runs at the next step (log 13). -/
theorem test_withFetchWord_runs_a_literal :
    nextHas (step (State.reset.withFetchWord 16 0x0041)) (fun t => t.out == [(0, 0x41)]) = true := by decide
theorem test_withFetchWord_runs_a_command :
    shown (step (State.reset.withFetchWord 8 0x02)) = some (.done, none, 0, []) := by decide +kernel

/-! ## A state and operands for every statement that has hypotheses -/

theorem witness_DecodeOfEncodeIsTheUnit :
    ((Instr.rleRaw 0xFE).wf = true ∧ ∀ p, Instr.rleRaw 0xFE ≠ .huffBits p) ∧
    ((Instr.rleRun 0x01 0x00).wf = true ∧ ∀ p, Instr.rleRun 0x01 0x00 ≠ .huffBits p) := by simp; decide

theorem witness_EncodeOfDecodeIsTheBytes : decode .rleRec [0xFF, 0xFF, 0xFF, 0x07] = .ok (.rleRun 0xFF 0xFF, [0x07]) := by decide

theorem witness_StepRunsTheDecodedUnit :
    let s := runningAt .sToken [0x41, 0xFF, 0x00, 0xFF] 1
    s.engineReady ∧ s.boundary = some .rleRec ∧ Ctx.rleRec ≠ .cmd ∧
      decode .rleRec (s.fetchBytes .rleRec) = .ok (.rleEsclit, []) := by decide

theorem witness_StepRunsTheWrittenCommand :
    let s := asked (.writeCmd 0x05) (machineOf [0x41])
    s.host = ⟨true, .writeCmd 0x05⟩ :: [] ∧ s.status ≠ .busy ∧ s.stepwise = false ∧
      decode .cmd [0x05] = .ok (.lz77Decompress, []) := by decide

theorem witness_UnassignedCommandRaisesUnknownAlgorithm :
    let s := asked (.writeCmd 0xFF) (machineOf [0x41])
    (0xFF : Byte) ∉ ([0x00, 0x01, 0x02, 0x04, 0x05, 0x06] : List Byte) ∧ (0x03 : Byte) ∉ ([0x00, 0x01, 0x02, 0x04, 0x05, 0x06] : List Byte) ∧
      s.host = ⟨true, .writeCmd 0xFF⟩ :: [] ∧ s.launchable ∧ s.stepwise = false := by decide

theorem witness_RejectedUnitTakesTheError :
    let s := runningAt .sToken [0xFF, 0x00, 0x41] 0
    s.engineReady ∧ s.boundary = some .rleRec ∧ decode .rleRec (s.fetchBytes .rleRec) = .error .invalidEscape := by decide

theorem witness_IdleBlockKeepsItsState : State.reset.status ≠ .busy ∧ State.reset.host = [] := by decide

theorem witness_EmptyInputGivesEmptyOutput :
    Instr.huffDecompress.ctx = .cmd ∧ State.reset.status ≠ .busy ∧ State.reset.inLen = 0 := by decide

theorem witness_CommandWriteWhileBusyIsIgnored :
    let s := asked (.writeCmd 0x00) (runningAt .rRun [0x41] 0)
    s.status = .busy ∧ s.host = ⟨true, .writeCmd 0x00⟩ :: [] ∧ Instr.huffCompress.ctx = .cmd := by decide

theorem witness_LaunchBeyondInCapIsRefused :
    let s : State := { State.reset with inLen := 65537 }
    Instr.rleCompress.ctx = .cmd ∧ s.status ≠ .busy ∧ s.params.inCap < s.inLen.toNat := by decide

theorem witness_LaunchStepWritesTheseRegisters :
    let s : State := { asked (.writeCmd 0x02) (machineOf [0x41]) with stepwise := true }
    s.host = ⟨true, .writeCmd 0x02⟩ :: [] ∧ s.launchable ∧ s.stepwise = true := by decide

theorem witness_EveryCommandCompletes :
    let s : State := { State.reset with inLen := 65536 }
    Instr.lz77Compress.ctx = .cmd ∧ s.launchable := by decide

theorem witness_CommandsEndOnlyWithTheirErrors_compress :
    (machineCap 2 [0xFF]).launchable ∧
    ∃ t, exec .rleCompress (machineCap 2 [0xFF]) = .next t ∧ (t.err == some .outputOverflow) = true :=
  ⟨by decide, nextHas_exists (by decide +kernel)⟩
theorem witness_CommandsEndOnlyWithTheirErrors_huffDecompress :
    (machineOf [0x00]).launchable ∧
    ∃ t, exec .huffDecompress (machineOf [0x00]) = .next t ∧ (t.err == some .corruptHeader) = true :=
  ⟨by decide, nextHas_exists (by decide +kernel)⟩
theorem witness_CommandsEndOnlyWithTheirErrors_lz77Decompress :
    (machineOf [1, 0, 0, 0, 2]).launchable ∧
    ∃ t, exec .lz77Decompress (machineOf [1, 0, 0, 0, 2]) = .next t ∧ (t.err == some .invalidFlag) = true :=
  ⟨by decide, nextHas_exists (by decide +kernel)⟩
theorem witness_CommandsEndOnlyWithTheirErrors_rleDecompress :
    (machineOf [0xFF, 0x00, 0x41]).launchable ∧
    ∃ t, exec .rleDecompress (machineOf [0xFF, 0x00, 0x41]) = .next t ∧ (t.err == some .invalidEscape) = true :=
  ⟨by decide, nextHas_exists (by decide +kernel)⟩

theorem witness_CommandsNeverWriteTheirInputs :
    Instr.rleDecompress.ctx = .cmd ∧ (machineOf [0x41]).launchable ∧
    ∃ t, exec .rleDecompress (machineOf [0x41]) = .next t ∧ (t.status == .done) = true :=
  ⟨by decide, by decide, nextHas_exists (by decide +kernel)⟩

theorem witness_CompletionIsAPureFunction :
    let s₁ := machineOf [0x41]
    let s₂ : State := { machineOf [0x41] with inp := [(0, 0x41), (1, 0x42)], cmd := 0x06, status := .done, phase := .endOk }
    Instr.rleCompress.ctx = .cmd ∧ s₁.status ≠ .busy ∧ s₂.status ≠ .busy ∧ s₁.params = s₂.params ∧ s₁.inLen = s₂.inLen ∧
      s₁.input = s₂.input ∧
      (∃ t, exec .rleCompress s₁ = .next t ∧ (t.status == .done) = true) ∧
      (∃ t, exec .rleCompress s₂ = .next t ∧ (t.status == .done) = true) :=
  ⟨by decide, by decide, by decide, by decide, by decide, by decide, nextHas_exists (by decide +kernel),
    nextHas_exists (by decide +kernel)⟩

theorem witness_StepwiseRunEndsAsTheAtomicCommand :
    encode .rleCompress = [0x02] ∧ Instr.rleCompress.ctx = .cmd ∧ (machineOf [0x41]).launchable ∧ (machineOf [0x41]).host = [] ∧
      (machineOf [0x41]).stepwise = false ∧
      ∃ t, exec .rleCompress (machineOf [0x41]) = .next t ∧ (t.status == .done) = true :=
  ⟨by decide, by decide, by decide, by decide, by decide, nextHas_exists (by decide +kernel)⟩

theorem witness_RegisterReadsChangeNothing :
    (asked (.readReg 4) State.reset).host = ⟨true, .readReg 4⟩ :: [] ∧ 4 < 5 ∧ State.reset.status ≠ .busy ∧
    (asked (.readReg 3) (runningAt .rRun [] 0)).host = ⟨true, .readReg 3⟩ :: [] ∧ (3 : Nat) ≠ 4 ∧
    (asked (.readReg 3) (runningAt .rRun [] 0)).status = .busy := by decide

theorem witness_BufferReadsChangeNothing :
    let s : State := { State.reset with status := .done, phase := .endOk, outLen := 1, out := [(0, 0x41)], outPos := 1 }
    (true = true ∨ s.status ≠ .busy) ∧ 65535 < s.params.inCap ∧ 0 < s.params.outCap ∧ s.status = .done ∧
      0 < s.outLen.toNat ∧ (asked (.readOut 0) s).host = ⟨true, .readOut 0⟩ :: [] ∧
      (asked (.readIn 65535) s).host = ⟨true, .readIn 65535⟩ :: [] := by decide
theorem witness_BufferReadsChangeNothing_busy :
    let s := runningAt .rRun [0x41] 0
    s.status = .busy ∧ (true = true ∨ s.status ≠ .busy) ∧ (asked .readDone s).host = ⟨true, .readDone⟩ :: [] ∧
      (asked (.readIn 0) s).host = ⟨true, .readIn 0⟩ :: [] ∧ 0 < s.params.inCap := by decide

theorem witness_WritesToReadOnlyStateAreIgnored :
    (asked (.writeReg 4 5) State.reset).host = ⟨true, .writeReg 4 5⟩ :: [] ∧ (4 = 1 ∨ 4 = 2 ∨ 4 = 4) ∧
    (asked (.writeOut 4194303 0x41) State.reset).host = ⟨true, .writeOut 4194303 0x41⟩ :: [] ∧
    4194303 < State.reset.params.outCap := by decide

theorem witness_HostWritesOfInputTakeEffect :
    (asked (.writeIn 65535 0x41) State.reset).host = ⟨true, .writeIn 65535 0x41⟩ :: [] ∧ 65535 < State.reset.params.inCap ∧
    (asked (.writeReg 3 7) State.reset).host = ⟨true, .writeReg 3 7⟩ :: [] ∧ State.reset.status ≠ .busy := by decide

theorem witness_ResetRestoresTheHostRegisters :
    (asked .reset (runningAt .lSearch [0x41] 0)).host = ⟨true, .reset⟩ :: [] := by decide

theorem witness_DisturbedCommandEndsLegally :
    let s : State := { runningAt .lSearch [0x41] 0 with cmd := 0x01, tainted := true }
    s.status = .busy ∧ s.host = [] ∧ s.tainted = true ∧ s.err = none := by decide
theorem witness_DisturbedCommandEndsLegally_writes :
    let s := runningAt .lSearch [0x41] 0
    s.status = .busy ∧ (asked (.writeIn 65535 0x42) s).host = ⟨true, .writeIn 65535 0x42⟩ :: [] ∧ 65535 < s.params.inCap ∧
      (asked (.writeReg 3 7) s).host = ⟨true, .writeReg 3 7⟩ :: [] := by decide

theorem witness_RleRawAppendsItsByte_step :
    let s := runningAt .sToken [0xFE, 0x41] 0
    s.engineReady ∧ s.phase = .sToken ∧ s.inPos < s.n ∧ s.unread = 0xFE :: [0x41] ∧ (0xFE : Byte) ≠ 0xFF := by decide
theorem witness_RleRawAppendsItsByte_room :
    (machineCap 1 []).outPos < (machineCap 1 []).params.outCap := by decide
theorem witness_RleRawAppendsItsByte_full :
    (machineCap 0 []).params.outCap ≤ (machineCap 0 []).outPos := by decide

theorem witness_RleEsclitAppendsTheEscapeByte :
    let s := runningAt .sToken [0xFF, 0x00, 0xFF] 0
    let u := runningAt .sToken [0xFF, 0x00, 0xFE] 0
    (s.engineReady ∧ s.phase = .sToken ∧ s.inPos < s.n ∧ s.unread = 0xFF :: 0x00 :: 0xFF :: []) ∧
    (u.engineReady ∧ u.phase = .sToken ∧ u.inPos < u.n ∧ u.unread = 0xFF :: 0x00 :: 0xFE :: [] ∧ (0xFE : Byte) ≠ 0xFF) ∧
    s.outPos < s.params.outCap ∧ (machineCap 0 []).params.outCap ≤ (machineCap 0 []).outPos := by decide

theorem witness_RleRunAppendsItsRun :
    let s := runningAt .sToken [0xFF, 0x01, 0x41] 0
    (s.engineReady ∧ s.phase = .sToken ∧ s.inPos < s.n ∧ s.unread = 0xFF :: 0x01 :: 0x41 :: [] ∧ (0x01 : Byte) ≠ 0x00) ∧
    (machineCap 255 []).outPos + (255 : Byte).toNat ≤ (machineCap 255 []).params.outCap ∧
    ((machineCap 254 []).outPos ≤ (machineCap 254 []).params.outCap ∧
      (machineCap 254 []).params.outCap < (machineCap 254 []).outPos + (255 : Byte).toNat) := by decide

theorem witness_RleReaderEndsAndTruncates :
    let s := runningAt .sToken [0xFF, 0x00] 0
    let u := runningAt .sToken [0x41, 0xFF] 1
    let v := runningAt .sToken [0x41] 1
    (s.engineReady ∧ s.phase = .sToken ∧ s.unread = [0xFF, 0x00]) ∧ (u.engineReady ∧ u.phase = .sToken ∧ u.unread = [0xFF]) ∧
    (v.engineReady ∧ v.phase = .sToken ∧ v.n ≤ v.inPos) := by decide

theorem witness_RunDetectorMeasuresTheRun :
    let s := runningAt .rRun [0x41, 0x41] 0
    s.engineReady ∧ s.phase = .rRun ∧ s.inPos < s.n := by decide

theorem witness_RunEmitterWritesTheRecord :
    let s (cap : Nat) (b : Byte) (c : Nat) : State :=
      { runningAt .rEmit [] 0 with params := { Params.reference with outCap := cap }, rle := ⟨b, c⟩ }
    let ready (s : State) : Prop := s.engineReady ∧ s.phase = .rEmit
    (ready (s 1 0xFE 1) ∧ (1 : Nat) ≤ 255 ∧ (0xFE : Byte) ≠ 0xFF ∧ 0 + [0xFE].length ≤ 1) ∧
    (ready (s 3 0xFF 1) ∧ 0 + [0xFF, 0x00, 0xFF].length ≤ 3) ∧
    (ready (s 2 0x41 3) ∧ (2 : Nat) ≤ 3 ∧ (2 : Nat) < 0 + (List.replicate 3 (0x41 : Byte)).length) ∧
    (ready (s 3 0x41 255) ∧ (4 : Nat) ≤ 255 ∧ 0 + [0xFF, BitVec.ofNat 8 255, 0x41].length ≤ 3) := by decide

theorem witness_RleCompressCompletes :
    (machineCap 6 [0x41, 0xFF]).launchable ∧
    3 * (machineCap 6 [0x41, 0xFF]).inLen.toNat ≤ (machineCap 6 [0x41, 0xFF]).params.outCap := by decide

theorem witness_RleDecompressExpandsItsRecords :
    let units : List Instr := [.rleRaw 0x41, .rleEsclit, .rleRun 0x01 0xFF]
    let s := machineCap 3 [0x41, 0xFF, 0x00, 0xFF, 0xFF, 0x01, 0xFF]
    s.launchable ∧ s.params.outCap ≤ 4294967295 ∧ (∀ i ∈ units, i.ctx = .rleRec ∧ i.wf = true) ∧
      s.input = units.flatMap encode ∧ (units.flatMap rleExpand).length ≤ s.params.outCap := by decide +kernel

theorem witness_RleRoundTrip :
    let s := machineOf [0x41, 0xFF]
    let u := machineCap 2 [0x41, 0xFF, 0x00, 0xFF]
    s.launchable ∧ s.params.outCap ≤ 4294967295 ∧ u.launchable ∧ s.inLen.toNat ≤ u.params.outCap ∧
      ∃ t, exec .rleCompress s = .next t ∧ (t.status == .done && u.input == t.result) = true :=
  ⟨by decide, by decide, by decide, by decide, nextHas_exists (by decide +kernel)⟩

theorem witness_Lz77HeaderSetsTheTarget :
    (255#32).toNat ≤ (machineCap 255 []).params.outCap ∧ (machineCap 255 []).params.outCap < (256#32).toNat ∧
    (runningAt .mHeader [1, 0, 0] 0).engineReady ∧ (runningAt .mHeader [1, 0, 0] 0).phase = .mHeader ∧
    (runningAt .mHeader [1, 0, 0] 0).unread.length < 4 := by decide

theorem witness_Lz77LitAppendsItsByte :
    (machineCap 1 []).outPos < (machineCap 1 []).params.outCap ∧ (machineCap 0 []).params.outCap ≤ (machineCap 0 []).outPos := by
  decide

theorem witness_Lz77MatchCopiesThenAppends :
    let s (target : Nat) : State :=
      { machineOf [] with out := [(0, 0x41)], outPos := 1, lz := { LzRegs.init with target := target } }
    (1 ≤ (1#16).toNat ∧ (1#16).toNat ≤ (s 10).outPos ∧ (s 10).outPos + (9#16).toNat ≤ (s 10).lz.target ∧
      (s 10).lz.target ≤ (s 10).params.outCap ∧ 0 = (if (s 10).outPos + (9#16).toNat < (s 10).lz.target then 1 else 0)) ∧
    ((s 2).outPos + (0#16).toNat ≤ (s 2).lz.target ∧ 1 = (if (s 2).outPos + (0#16).toNat < (s 2).lz.target then 1 else 0)) := by
  decide

theorem witness_Lz77MatchChecksItsFields :
    let s : State := { machineOf [] with out := [(0, 0x41)], outPos := 1, lz := { LzRegs.init with target := 3 } }
    (0#16).toNat = 0 ∧ s.outPos < (2#16).toNat ∧
      (1 ≤ (1#16).toNat ∧ (1#16).toNat ≤ s.outPos ∧ s.lz.target < s.outPos + (3#16).toNat) := by decide

theorem witness_Lz77ReaderEndsAndRejects :
    let s (target : Nat) (bytes : List Byte) : State :=
      { runningAt .mToken bytes 0 with lz := { LzRegs.init with target := target } }
    ((s 0 []).engineReady ∧ (s 0 []).phase = .mToken ∧ (s 0 []).lz.target ≤ (s 0 []).outPos) ∧
    ((s 1 []).outPos < (s 1 []).lz.target ∧ (s 1 []).unread = [] ∧ (s 1 [0]).unread = [0x00] ∧
      (s 1 [1, 1, 0, 3, 0]).unread = 0x01 :: [1, 0, 3, 0] ∧ [1, 0, 3, 0].length < 5) ∧
    ((s 1 [2]).unread = 2 :: [] ∧ 2 ≤ (2 : Byte).toNat) := by decide

theorem witness_SearchFindsTheLongestNearestMatch :
    let s := runningAt .lSearch [0x41, 0x41] 1
    s.engineReady ∧ s.phase = .lSearch ∧ s.inPos < s.n := by decide

theorem witness_TokenEmitterWritesTheToken :
    let s : State := { runningAt .lEmit [0x61, 0x62, 0x63, 0x61, 0x62, 0x63] 3 with
      lz := { LzRegs.init with bestLen := 3, bestDist := 3 } }
    let u : State := { runningAt .lEmit [0x61] 0 with params := { Params.reference with outCap := 1 } }
    (s.engineReady ∧ s.phase = .lEmit ∧ s.inPos < s.n ∧ s.inPos + s.lz.bestLen ≤ s.n ∧ s.params.minMatch ≤ s.lz.bestLen ∧
      s.outPos + 6 ≤ s.params.outCap) ∧
    (u.engineReady ∧ u.phase = .lEmit ∧ u.inPos < u.n ∧ u.inPos + u.lz.bestLen ≤ u.n ∧ u.lz.bestLen < u.params.minMatch ∧
      u.outPos ≤ u.params.outCap ∧ u.params.outCap < u.outPos + 2) := by decide

theorem witness_Lz77CompressCompletes :
    (machineCap 8 [0x41, 0x42]).launchable ∧ (machineCap 8 [0x41, 0x42]).params.ok ∧
    3 ≤ (machineCap 8 [0x41, 0x42]).params.minMatch ∧
    4 + 2 * (machineCap 8 [0x41, 0x42]).inLen.toNat ≤ (machineCap 8 [0x41, 0x42]).params.outCap := by decide

theorem witness_Lz77DecompressExpandsItsTokens :
    let tokens : List Instr := [.lz77Lit 0x41, .lz77Match 1 2 0x42]
    let s := machineCap 3 [3, 0, 0, 0, 0, 0x41, 1, 1, 0, 2, 0, 0x42, 0x99]
    s.launchable ∧ (3#32).toNat ≤ s.params.outCap ∧
      s.input = encode (.lz77Hdr 3) ++ tokens.flatMap encode ++ [0x99] ∧
      lzTokens (3#32).toNat tokens [] = some [0x41, 0x41, 0x41] ∧ [0x41, 0x41, 0x41].length = (3#32).toNat := by decide +kernel

theorem witness_Lz77RoundTrip :
    let s := machineOf [0x41, 0x42]
    let u := machineCap 2 [2, 0, 0, 0, 0, 0x41, 0, 0x42]
    s.launchable ∧ s.params.ok ∧ u.launchable ∧ s.inLen.toNat ≤ u.params.outCap ∧
      ∃ t, exec .lz77Compress s = .next t ∧ (t.status == .done && u.input == t.result) = true :=
  ⟨by decide, by decide, by decide, by decide, nextHas_exists (by decide +kernel)⟩

theorem witness_HuffHeaderIsReadAndChecked :
    let s : State := { runningAt .dHeader [] 0 with n := 1294 }
    (1 ≤ (256#16).toNat ∧ (256#16).toNat ≤ 256 ∧ 14 + 5 * (256#16).toNat ≤ s.n) ∧
    ((0#16).toNat = 0 ∧ 256 < (257#16).toNat ∧ (runningAt .dHeader [] 0).n < 14 + 5 * (1#16).toNat) ∧
    ((runningAt .dHeader [0x41] 0).engineReady ∧ (runningAt .dHeader [0x41] 0).phase = .dHeader ∧
      (runningAt .dHeader [0x41] 0).inPos = 0 ∧ (runningAt .dHeader [0x41] 0).n < 14) := by decide

theorem witness_HuffSymbolEntryIsReadAndChecked :
    let s : State := { runningAt .dHeader [] 14 with huff := { HuffRegs.init with prev := some 0xFE } }
    ((∀ p, s.huff.prev = some p → p.toNat < (0xFF : Byte).toNat) ∧ (1#32).toNat ≠ 0) ∧
    (∃ p, s.huff.prev = some p ∧ (0xFE : Byte).toNat ≤ p.toNat) ∧ (0#32).toNat = 0 := by
  refine ⟨⟨?_, by decide⟩, ⟨0xFE, by decide, by decide⟩, by decide⟩
  intro p hp
  cases hp
  decide

theorem witness_HuffDecoderChecksBeforeTheWalk :
    let s : State := { runningAt .dHeader [] 19 with huff := { HuffRegs.init with hdrLen := 19 } }
    let u : State := { runningAt .dCheck [] 0 with huff := { HuffRegs.init with origLen := 4194305 } }
    (s.engineReady ∧ s.phase = .dHeader ∧ s.inPos ≠ 0 ∧ s.huff.hdrLen ≤ s.inPos ∧ s.huff.freq.sum = s.huff.origLen) ∧
    (u.engineReady ∧ u.phase = .dCheck ∧ u.huff.bitsSum = u.huff.payloadBits ∧
      u.n - u.huff.hdrLen ≤ (u.huff.payloadBits + 7) / 8 ∧ u.params.outCap < u.huff.origLen) := by decide +kernel

theorem witness_FrequencyPassCountsTheInput :
    (runningAt .hFreq [0x41] 0).engineReady ∧ (runningAt .hFreq [0x41] 0).phase = .hFreq := by decide

theorem witness_MergeTakesTheTwoLowestNodes : [0, 1].Nodup ∧ 2 ≤ [0, 1].length := by decide

/-- A running Huffman command that has counted `41 41 42`. -/
def counted (ph : Phase) : State :=
  { runningAt ph [0x41, 0x41, 0x42] 0 with huff := { HuffRegs.init with freq := countBytes [0x41, 0x41, 0x42] } }

theorem witness_TreeBuilderInvariants :
    (counted .dBuild).engineReady ∧ (counted .dBuild).phase = .dBuild ∧ (counted .dBuild).huff.freq.length = 256 ∧
    0 < (counted .dBuild).huff.freq.sum := by decide +kernel

theorem witness_CodeTableIsAPrefixCode :
    (counted .hBuild).engineReady ∧ (counted .hBuild).phase = .hBuild ∧ (counted .hBuild).huff.freq.length = 256 ∧
    0 < (counted .hBuild).huff.freq.sum ∧ (buildTree (counted .hBuild).huff).k ≠ 1 ∧
    0 < (counted .hBuild).huff.freq.getD (0x42 : Byte).toNat 0 := by decide +kernel

theorem witness_HeaderWriterEmitsTheHeader :
    (counted .hHeader).engineReady ∧ (counted .hHeader).phase = .hHeader ∧ (counted .hHeader).huff.freq.length = 256 ∧
    (counted .hHeader).outPos + (huffHeader (counted .hHeader)).length ≤ (counted .hHeader).params.outCap := by decide +kernel

theorem witness_PackerEmitsTheCodeBits :
    let s : State := { counted .hPack with huff := genCodes (buildTree (counted .hPack).huff) }
    s.engineReady ∧ s.phase = .hPack ∧ s.data.flatMap (codeOf s.huff.code) = [true, true, false] ∧
      s.outPos + (3 + 7) / 8 ≤ s.params.outCap := by decide +kernel

theorem witness_HuffCompressCompletes :
    let s := machineCap 1326 [0x41]
    s.launchable ∧ s.params.outCap ≤ 4294967295 ∧ s.inLen ≠ 0 ∧
      1294 + (255 * s.inLen.toNat + 7) / 8 ≤ s.params.outCap := by decide

theorem witness_PayloadWalkDeliversTheSymbols_short :
    let s : State := { runningAt .dWalk [] 0 with huff := { HuffRegs.init with payloadBits := 9 } }
    [(0xFF : Byte)].length < (s.huff.payloadBits + 7) / 8 := by decide

/-- A walker at the root of `42`, `41`, with `len` bytes and `bits` bits declared. -/
def walker (len bits : Nat) : State :=
  { runningAt .dWalk [] 0 with
    huff := { HuffRegs.init with
      node := [.leaf 0x41 1, .leaf 0x42 1, .internal 2 1 0], k := 2, root := 2, origLen := len, payloadBits := bits } }

theorem witness_PayloadWalkDeliversTheSymbols_many :
    let xs : List (Byte × List Bool) := [(0x41, [true]), (0x42, [false])]
    let ys : List (Byte × List Bool) := List.replicate 8 (0x41, [true])
    (walker 2 3).huff.k ≠ 1 ∧ ((walker 2 3).huff.payloadBits + 7) / 8 ≤ [(0b10000001 : Byte)].length ∧
      (∀ x ∈ xs ++ ys, x.2 ≠ [] ∧ follow (walker 2 3).huff.node (walker 2 3).huff.root x.2 = some x.1) ∧
      (payloadBitList [0b10000001]).take 3 = xs.flatMap Prod.snd ++ [false] ∧
      (walker 2 3).huff.origLen ≤ (walker 2 3).params.outCap ∧ (walker 2 3).outPos + xs.length = (walker 2 3).huff.origLen ∧
      (payloadBitList [0xFF]).take 8 = ys.flatMap Prod.snd ++ [] ∧ (walker 9 8).outPos + ys.length < (walker 9 8).huff.origLen := by
  decide

/-- The bits run out inside a code word: of `C` as `0`, `A` as `10`, `B` as `11`, one bit `1` is left after two `A`. -/
theorem witness_PayloadWalkDeliversTheSymbols_cut :
    let s : State := { runningAt .dWalk [] 0 with
      huff := { HuffRegs.init with
        node := [.leaf 0x41 1, .leaf 0x42 1, .leaf 0x43 2, .internal 2 0 1, .internal 4 2 3], k := 3, root := 4, origLen := 3,
        payloadBits := 5 } }
    let xs : List (Byte × List Bool) := [(0x41, [true, false]), (0x41, [true, false])]
    (payloadBitList [0b10101000]).take 5 = xs.flatMap Prod.snd ++ [true] ∧ s.outPos + xs.length < s.huff.origLen ∧
      (∀ x ∈ xs, x.2 ≠ [] ∧ follow s.huff.node s.huff.root x.2 = some x.1) ∧
      (∀ q, q <+: [true] → follow s.huff.node s.huff.root q = none) := by
  refine ⟨by decide, by decide, by decide, fun q hq => ?_⟩
  rcases List.prefix_cons_iff.1 hq with rfl | ⟨t, rfl, ht⟩
  · decide
  · rw [List.prefix_nil.1 ht]
    decide

theorem witness_PayloadWalkDeliversTheSymbols_one :
    let s (len : Nat) : State := { runningAt .dWalk [] 0 with
      huff := { HuffRegs.init with node := [.leaf 0x41 8], k := 1, root := 0, origLen := len, payloadBits := 8 } }
    (s 8).huff.k = 1 ∧ ((s 8).huff.payloadBits + 7) / 8 ≤ [(0x5A : Byte)].length ∧
      (s 8).huff.node[(s 8).huff.root]? = some (.leaf 0x41 8) ∧ (s 8).outPos ≤ (s 8).huff.origLen ∧
      (s 8).huff.origLen ≤ (s 8).params.outCap ∧ (s 8).huff.origLen ≤ (s 8).outPos + (s 8).huff.payloadBits ∧
      (s 9).outPos + (s 9).huff.payloadBits < (s 9).huff.origLen := by decide

theorem witness_HuffDecompressDeliversTheSymbols_coded :
    let freq := countBytes [0x41, 0x41, 0x42]
    let out : List Byte := [0x42, 0x41, 0x42]
    let s (payload : List Byte) :=
      machineCap 3 ([3, 0, 0, 0, 3, 0, 0, 0, 0, 0, 0, 0, 2, 0, 0x41, 2, 0, 0, 0, 0x42, 1, 0, 0, 0] ++ payload)
    let h := genCodes (buildTree { HuffRegs.init with freq := freq })
    let ready (payload : List Byte) : Prop := (s payload).launchable ∧ freq.sum ≤ (s payload).params.outCap ∧
      (s payload).input = encode (.huffHdr (BitVec.ofNat 32 freq.sum) (BitVec.ofNat 64 h.bitsSum) (BitVec.ofNat 16 h.k)) ++
        (occurring freq).flatMap (fun e => encode (.huffSym e.1 (BitVec.ofNat 32 e.2))) ++ payload
    freq.length = 256 ∧ 1 ≤ freq.sum ∧ freq.sum < 4294967296 ∧ h.bitsSum = 3 ∧ ready [0x5F] ∧ ready [] ∧
      [(0x5F : Byte)].length = (h.bitsSum + 7) / 8 ∧ out.length = freq.sum ∧ (∀ b ∈ out, 0 < freq.getD b.toNat 0) ∧
      (payloadBitList [0x5F]).take h.bitsSum = out.flatMap (codeOf h.code) ++ [] ∧
      ([] : List Byte).length < (h.bitsSum + 7) / 8 := by decide +kernel

theorem witness_HuffDecompressDeliversTheSymbols_single :
    let s := machineCap 9 [9, 0, 0, 0, 9, 0, 0, 0, 0, 0, 0, 0, 1, 0, 0x41, 9, 0, 0, 0, 0xFF, 0xFF]
    s.launchable ∧ 1 ≤ 9 ∧ 9 < 4294967296 ∧ 9 ≤ s.params.outCap ∧ ([0xFF, 0xFF] : List Byte).length = (9 + 7) / 8 ∧
      s.input = encode (.huffHdr (BitVec.ofNat 32 9) (BitVec.ofNat 64 9) 1) ++ encode (.huffSym 0x41 (BitVec.ofNat 32 9)) ++
        [0xFF, 0xFF] := by decide +kernel

theorem witness_HuffRoundTrip :
    let s := machineOf [0x41, 0x41, 0x42]
    let u := machineCap 3 [3, 0, 0, 0, 3, 0, 0, 0, 0, 0, 0, 0, 2, 0, 0x41, 2, 0, 0, 0, 0x42, 1, 0, 0, 0, 0xC0]
    s.launchable ∧ s.params.outCap ≤ 4294967295 ∧ u.launchable ∧ (s.inLen ≠ 0 ∧ s.inLen.toNat ≤ u.params.outCap) ∧
      ∃ t, exec .huffCompress s = .next t ∧ (t.status == .done && u.input == t.result) = true :=
  ⟨by decide, by decide, by decide, by decide, nextHas_exists (by decide +kernel)⟩

theorem witness_AcceptedWalksConsumeTheDeclaredBits :
    let s := machineOf [3, 0, 0, 0, 3, 0, 0, 0, 0, 0, 0, 0, 2, 0, 0x41, 2, 0, 0, 0, 0x42, 1, 0, 0, 0, 0xC0]
    s.launchable ∧ s.inLen ≠ 0 ∧ ∃ t, exec .huffDecompress s = .next t ∧ (t.status == .done) = true :=
  ⟨by decide, by decide, nextHas_exists (by decide +kernel)⟩

theorem witness_StepKeepsMemoriesCanonical :
    (runningAt .sToken [0x41] 0).memWf ∧
    ∃ t, step (runningAt .sToken [0x41] 0) = .next t ∧ (t.outPos == 1) = true :=
  ⟨by decide, nextHas_exists (by decide)⟩

theorem witness_StepKeepsStatusConsistent :
    (runningAt .sToken [0xFF] 0).statusWf ∧
    ∃ t, step (runningAt .sToken [0xFF] 0) = .next t ∧ (t.status == .error) = true :=
  ⟨by decide, nextHas_exists (by decide)⟩

theorem witness_StepKeepsPositionsInRange :
    (runningAt .rRun [0x41, 0x41] 0).statusWf ∧ (runningAt .rRun [0x41, 0x41] 0).posWf ∧
    ∃ t, step (runningAt .rRun [0x41, 0x41] 0) = .next t ∧ (t.rle.runCnt == 2) = true :=
  ⟨by decide, by decide, nextHas_exists (by decide)⟩

end Sys2Proof.Tests
end

section
/-! The two levels of R5: a stepwise machine runs the command that an atomic write of `CMD` runs, one engine step at a time. -/

namespace Sys2Proof.Machine

/-- In a stepwise machine an accepted write of `CMD` is the launch alone (R132, log 9). -/
theorem hostWriteCmd_stepwise (ex : Instr → State → Host.Outcome State Fault Refusal) (c : Byte) {s : State}
    (h : s.launchable) (hs : s.stepwise = true) : hostWriteCmd ex c s = .next (launch c s) := by
  rw [hostWriteCmd, if_neg h.1, if_pos hs, if_neg (Nat.not_lt.2 h.2)]

/-- The step in which a stepwise machine accepts a command word. -/
theorem step_stepwise_command {c : Byte} {early : Bool} {rest : List HostReq} {s : State} (h : s.launchable)
    (hs : s.stepwise = true) (hh : s.host = ⟨early, .writeCmd c⟩ :: rest) :
    step s = .next (launch c { s with host := rest }) := by
  rw [step_host hh (.inr h.1), hostAct_writeCmd]
  exact hostWriteCmd_stepwise exec c h hs

/-- A stepwise machine whose only request is a command word launches, and then runs the engine. -/
theorem core_run_stepwise_command (k : Nat) {c : Byte} {early : Bool} {s : State} (h : s.launchable)
    (hs : s.stepwise = true) (hh : s.host = [⟨early, .writeCmd c⟩]) :
    core.run (k + 1) s = .next (runEngine k (launch c { s with host := [] })) := by
  rw [core_run_step k (step_stepwise_command h hs hh)]
  exact core_run_engine k rfl rfl h.2

/-- A run of the engine that ends does not depend on the level the machine works at: it leaves `stepwise` as it is, and the rest
of the end state is the same at both levels. -/
theorem runEngine_launch_stepwise {k : Nat} {c : Byte} {s : State} (b : Bool)
    (h : (runEngine k (launch c s)).status ≠ .busy) :
    runEngine k (launch c { s with stepwise := b }) = { runEngine k (launch c s) with stepwise := b } := by
  have hlaunch : Same (launch c s) (launch c { s with stepwise := b }) := launch_same c rfl rfl rfl
  obtain ⟨-, hinp, hinLen, -, -, hhost, hdata, -, htainted, hfresh⟩ := runEngine_kept k (launch c s)
  obtain ⟨-, hinp', hinLen', -, -, hhost', hdata', hstep', htainted', hfresh'⟩ :=
    runEngine_kept k (launch c { s with stepwise := b })
  rw [(runEngine_same k hlaunch).eq_update h, hinp', hinLen', hhost', hdata', hstep', htainted', hfresh']
  simp only [hinp, hinLen, hhost, hdata, htainted, hfresh, launch_inp, launch_inLen, launch_host, launch_hostData,
    launch_stepwise, launch_tainted, launch_fresh]

/-- Settles O17: after the launch the stepwise machine makes the engine steps of the atomic command, and its end state differs in
`stepwise` only. -/
theorem stepwiseRunEndsAsTheAtomicCommand : Obligations.StepwiseRunEndsAsTheAtomicCommand := by
  unfold Obligations.StepwiseRunEndsAsTheAtomicCommand
  intro i c s t hc hi hl hhost _ hexec
  obtain ⟨c', hc', -, hcommand⟩ := exec_command hi
  obtain rfl : c = c' := by simpa [hc] using hc'
  obtain ⟨u, hu, -, hended, rfl⟩ := runCommand_ends c hl
  rw [hcommand, hu] at hexec
  cases hexec
  refine ⟨commandFuel s.inLen.toNat + 1, ?_⟩
  rw [← runEngine_launch_stepwise true hended, hhost]
  exact core_run_stepwise_command _ hl rfl rfl

end Sys2Proof.Machine
end

section
/-! What every step keeps: an induction principle over the step's cases, then `STATUS`, `ERR` and `PHASE` in agreement (10_state.md
R22, R23, R29) and the positions in range (R30, R31, R67, R68). -/

namespace Sys2Proof.Machine

/-! ## Invariants of the step -/

/-- What to show of a property so that every step of the machine keeps it: one clause for each kind of change that `step_next` and
`hostAct_next` name. -/
structure StepInvariant (P : State → Prop) : Prop where
  hostSide : ∀ (s : State) (host : List HostReq) (inLen data : Word) (fresh : Nat) (tainted : Bool), P s →
    P { s with host := host, inLen := inLen, hostData := data, fresh := fresh, tainted := tainted }
  writeIn : ∀ (s : State) (a : Nat) (v : Byte), P s → P { s with inp := s.inp.write a v }
  rst : ∀ s : State, P s → P (rst s)
  powerUp : ∀ s : State, P s → P (powerUp s)
  launch : ∀ (c : Byte) (s : State), s.launchable → P s → P (launch c s)
  engineStep : ∀ s : State, s.status = .busy → P s → P (engineStep s)
  freeCompletion : ∀ s : State, s.status = .busy → P s → P (freeCompletion s)

theorem StepInvariant.hostAct {P : State → Prop} (inv : StepInvariant P) {op : HostOp} {s t : State}
    (h : hostAct exec op s = .next t) (hs : P s) : P t := by
  rcases hostAct_next h with rfl | ⟨c, hl, rfl | rfl⟩ | ⟨v, f, b, rfl⟩ | ⟨a, v, f, b, rfl⟩ | ⟨v, f, rfl⟩ | rfl | rfl
  · exact hs
  · exact inv.launch c s hl hs
  · exact runEngine_induction inv.engineStep _ (inv.launch c s hl hs)
  · exact inv.hostSide s s.host v s.hostData f b hs
  · exact inv.hostSide _ s.host s.inLen s.hostData f b (inv.writeIn s a v hs)
  · exact inv.hostSide s s.host s.inLen v f s.tainted hs
  · exact inv.rst s hs
  · exact inv.powerUp s hs

theorem StepInvariant.step {P : State → Prop} (inv : StepInvariant P) {s t : State} (h : step s = .next t) (hs : P s) : P t := by
  rcases step_next h with ⟨r, rest, -, -, hact⟩ | ⟨hb, -, rfl⟩ | ⟨hb, -, -, rfl⟩ | ⟨-, -, rfl⟩
  · exact inv.hostAct hact (inv.hostSide s rest s.inLen s.hostData s.fresh s.tainted hs)
  · exact inv.freeCompletion s hb hs
  · exact inv.engineStep s hb hs
  · exact hs

/-! ## STATUS, ERR and PHASE -/

/-- `statusWf` while a command runs. -/
theorem statusWf_iff_of_busy {s : State} (hb : s.status = .busy) :
    s.statusWf ↔ s.err = none ∧ s.phase ≠ .endOk ∧ s.phase ≠ .endErr ∧ s.phase ≠ .mCopy := by
  simp [State.statusWf, hb]

theorem statusWf_of_idle {s : State} (hs : s.status = .idle) (he : s.err = none) (hp : s.phase = .idle) : s.statusWf := by
  simp [State.statusWf, hs, he, hp]

theorem statusWf_of_done {s : State} (hs : s.status = .done) (he : s.err = none) (hp : s.phase = .endOk) : s.statusWf := by
  simp [State.statusWf, hs, he, hp]

theorem statusWf_of_error {s : State} (hs : s.status = .error) (he : s.err ≠ none) (hp : s.phase = .endErr) : s.statusWf := by
  simp [State.statusWf, hs, he, hp]

/-- No phase leads to a rest at `M_COPY` (log 17). -/
theorem Goes.phase_ne_mCopy {s t : State} (h : Goes s t) (hs : s.phase ≠ .mCopy) : t.phase ≠ .mCopy := by
  unfold Goes at h
  split at h
  case h_1 =>
    obtain ⟨-, -, -, i, -, hi⟩ := h
    rw [hi]
    cases i <;> simp [firstPhase]
  case h_7 => rcases h with h | h | h <;> rw [h.1] <;> decide
  case h_20 | h_21 => exact h.elim
  case h_22 | h_23 => rwa [h]
  all_goals rw [h.1]; decide

theorem engineStep_statusWf {s : State} (hb : s.status = .busy) (h : s.statusWf) : (engineStep s).statusWf := by
  obtain ⟨herr, hok, hend, hcopy⟩ := (statusWf_iff_of_busy hb).1 h
  obtain ⟨-, -, ⟨hstatus, herr', -, hgoes⟩ | ⟨hstatus, herr', -, hphase, -⟩ | ⟨e, -, hstatus, herr', -, hphase⟩⟩ :=
    engineStep_outcome s
  · obtain ⟨hok', hend'⟩ := hgoes.not_ended hok hend
    exact (statusWf_iff_of_busy (hstatus.trans hb)).2 ⟨herr'.trans herr, hok', hend', hgoes.phase_ne_mCopy hcopy⟩
  · exact statusWf_of_done hstatus (herr'.trans herr) hphase
  · exact statusWf_of_error hstatus (by simp [herr']) hphase

theorem freeCompletion_statusWf {s : State} (hb : s.status = .busy) (h : s.statusWf) : (freeCompletion s).statusWf := by
  obtain ⟨e, -, heq⟩ | ⟨-, k, -, heq⟩ := freeCompletion_cases s <;> rw [heq]
  · exact statusWf_of_error rfl (by simp) rfl
  · exact statusWf_of_done rfl ((statusWf_iff_of_busy hb).1 h).1 rfl

theorem statusWf_stepInvariant : StepInvariant State.statusWf where
  hostSide _ _ _ _ _ _ h := h
  writeIn _ _ _ h := h
  rst _ _ := statusWf_of_idle rfl rfl rfl
  powerUp _ _ := statusWf_of_idle rfl rfl rfl
  launch _ _ _ _ := (statusWf_iff_of_busy rfl).2 ⟨rfl, by simp, by simp, by simp⟩
  engineStep _ := engineStep_statusWf
  freeCompletion _ := freeCompletion_statusWf

/-- Settles O59: an end writes `STATUS`, `ERR` and `PHASE` together, and a step that goes on leads to no end and not to `M_COPY`. -/
theorem stepKeepsStatusConsistent : Obligations.StepKeepsStatusConsistent := by
  unfold Obligations.StepKeepsStatusConsistent
  exact fun _ _ => statusWf_stepInvariant.step

/-! ## The positions -/

/-- What the read position of a running command satisfies, by the phase it is in: the part of `posWf` that `Goes` decides. -/
def State.readPosWf (s : State) : Prop :=
  s.inPos ≤ s.n + 1 ∧
  match s.phase with
  | .idle => s.inPos = 0
  | .lEmit => s.inPos + s.lz.bestLen ≤ s.n ∧ s.inPos < s.n
  | .rEmit => s.inPos + s.rle.runCnt ≤ s.n
  | .dHeader => s.inPos ≠ 0 → s.inPos ≤ s.huff.hdrLen ∧ s.huff.hdrLen ≤ s.n ∧ (s.huff.hdrLen - s.inPos) % 5 = 0
  | .mToken => s.lz.target ≤ s.params.outCap
  | _ => True

theorem posWf_iff_of_busy {s : State} (hb : s.status = .busy) :
    s.posWf ↔ s.outLen.toNat ≤ s.params.outCap ∧ s.outPos ≤ s.params.outCap ∧ s.n ≤ s.params.inCap ∧ s.n < 4294967296 ∧
      s.readPosWf := by
  cases hp : s.phase <;> simp [State.posWf, State.readPosWf, hb, hp]

theorem posWf_iff_of_ended {s : State} (hb : s.status ≠ .busy) : s.posWf ↔ s.outLen.toNat ≤ s.params.outCap := by
  simp [State.posWf, hb]

/-- `OUT_LEN` holds `OUT_POS` in 32 bits (log 12), so it is no greater. -/
theorem toNat_ofNat_le (n : Nat) : (BitVec.ofNat 32 n : Word).toNat ≤ n := by
  rw [BitVec.toNat_ofNat]
  exact Nat.mod_le _ _

/-- Every command starts to read at offset 0. -/
theorem readPosWf_of_firstPhase {s : State} {i : Instr} (h0 : s.inPos = 0) (hp : s.phase = firstPhase i) : s.readPosWf := by
  cases i <;> simp [State.readPosWf, hp, h0, firstPhase]

/-- A step that goes on leaves the read position where the next phase needs it. -/
theorem Goes.readPosWf {s t : State} (h : Goes s t) (hn : t.n = s.n) (hp : t.params = s.params) (hcopy : s.phase ≠ .mCopy)
    (hs : s.readPosWf) : t.readPosWf := by
  obtain ⟨hpos, hphase⟩ := hs
  unfold Goes at h
  split at h <;> rename_i hsp <;> simp only [hsp] at hphase
  case h_1 =>
    obtain ⟨-, hin, -, i, -, ht⟩ := h
    exact readPosWf_of_firstPhase (hin.trans hphase) ht
  case h_7 =>
    rcases h with ⟨ht, -, hin, hlen, k, hk, -, hhdr⟩ | ⟨ht, h0, hlt, hin, hle, hhdr⟩ | ⟨ht, -, -, hin⟩
    · simp only [State.readPosWf, ht, hn]
      omega
    · have := hphase h0
      simp only [State.readPosWf, ht, hn]
      omega
    · simp only [State.readPosWf, ht, hn, and_true]
      omega
  case h_14 =>
    obtain ⟨ht, hin, hlen, htarget⟩ := h
    simp only [State.readPosWf, ht, hn, hp]
    omega
  case h_15 =>
    obtain ⟨ht, htarget, hin, hle⟩ := h
    simp only [State.readPosWf, ht, hn, hp]
    omega
  case h_16 => exact absurd hsp hcopy
  case h_20 | h_21 => exact h.elim
  case h_22 | h_23 =>
    subst h
    simp [State.readPosWf, hsp, hpos]
  all_goals
    obtain ⟨ht, hin⟩ := h
    simp only [State.readPosWf, ht, hn, and_true]
    omega

theorem engineStep_posWf {s : State} (hb : s.status = .busy) (hst : s.statusWf) (h : s.posWf) : (engineStep s).posWf := by
  obtain ⟨-, -, -, hcopy⟩ := (statusWf_iff_of_busy hb).1 hst
  obtain ⟨hlen, hout, hcap, hword, hread⟩ := (posWf_iff_of_busy hb).1 h
  obtain ⟨⟨hparams, -, -, -, hn, -⟩, ⟨-, -, -, hroom⟩, hcase⟩ := engineStep_outcome s
  have hout' := hroom hout
  obtain ⟨hstatus, -, hlen', hgoes⟩ | ⟨hstatus, -, hlen', -, -⟩ | ⟨e, -, hstatus, -, hlen', -⟩ := hcase
  · rw [posWf_iff_of_busy (hstatus.trans hb), hlen', hn, hparams]
    exact ⟨hlen, hout', hcap, hword, hgoes.readPosWf hn hparams hcopy hread⟩
  · rw [posWf_iff_of_ended (by simp [hstatus]), hlen', hparams]
    exact (toNat_ofNat_le _).trans hout'
  · rw [posWf_iff_of_ended (by simp [hstatus]), hlen']
    exact Nat.zero_le _

theorem launch_posWf (c : Byte) {s : State} (hl : s.launchable) (h : s.posWf) : (launch c s).posWf :=
  (posWf_iff_of_busy rfl).2 ⟨h.1, Nat.zero_le _, hl.2, s.inLen.isLt, Nat.zero_le _, rfl⟩

theorem freeCompletion_posWf (s : State) : (freeCompletion s).posWf := by
  obtain ⟨e, -, heq⟩ | ⟨-, k, hk, heq⟩ := freeCompletion_cases s <;> rw [heq]
  · exact (posWf_iff_of_ended (by simp)).2 (Nat.zero_le _)
  · exact (posWf_iff_of_ended (by simp)).2 ((toNat_ofNat_le k).trans hk)

theorem rst_posWf (s : State) : (rst s).posWf :=
  (posWf_iff_of_ended (by simp [rst, State.reset])).2 (Nat.zero_le _)

/-- The positions need `statusWf` beside them: at `M_COPY`, where no step rests, nothing bounds the read position. -/
theorem posWf_stepInvariant : StepInvariant fun s => s.statusWf ∧ s.posWf where
  hostSide _ _ _ _ _ _ h := h
  writeIn _ _ _ h := h
  rst s h := ⟨statusWf_stepInvariant.rst s h.1, rst_posWf s⟩
  powerUp s h := ⟨statusWf_stepInvariant.powerUp s h.1, rst_posWf s⟩
  launch c s hl h := ⟨statusWf_stepInvariant.launch c s hl h.1, launch_posWf c hl h.2⟩
  engineStep _ hb h := ⟨engineStep_statusWf hb h.1, engineStep_posWf hb h.1 h.2⟩
  freeCompletion s hb h := ⟨freeCompletion_statusWf hb h.1, freeCompletion_posWf s⟩

/-- Settles O60: an engine step appends only below `OUT_CAP`, and each phase leaves the read position as the next one needs it. -/
theorem stepKeepsPositionsInRange : Obligations.StepKeepsPositionsInRange := by
  unfold Obligations.StepKeepsPositionsInRange
  intro s t hstep hstatus hpos
  exact (posWf_stepInvariant.step hstep ⟨hstatus, hpos⟩).2

/-! ## Reset -/

/-- Settles O57: the fields of `State.reset` are written out, and no command runs there. -/
theorem resetMeetsTheInvariants : Obligations.ResetMeetsTheInvariants := by
  unfold Obligations.ResetMeetsTheInvariants
  refine ⟨⟨rfl, rfl, rfl, rfl, rfl, rfl, rfl⟩, ⟨.nil, .nil⟩, statusWf_of_idle rfl rfl rfl, ?_, by decide⟩
  exact (posWf_iff_of_ended (by decide)).2 (Nat.zero_le _)

end Sys2Proof.Machine
end

section
/-! The host's accesses one by one: what a read returns and what a write of the input stores (10_state.md R21 to R27, 20_memory.md
R65, 70_reset_and_hazards.md R354 to R357). -/

namespace Sys2Proof.Machine

/-! ## Reads -/

/-- A read of a register whose value is not free (R357) puts the register in `hostData`. -/
theorem step_readReg {s : State} {rest : List HostReq} {n : Nat} {r : Reg} (hh : s.host = ⟨true, .readReg n⟩ :: rest)
    (hr : regOfNumber n = some r) (hb : s.status = .busy → r ≠ .outLen) :
    step s = .next { s with host := rest, hostData := regValue s r } := by
  rw [step_host hh (.inl rfl)]
  simp only [hostAct, hr, hostReadReg]
  rw [if_neg (fun h => hb h.1 h.2)]
  rfl

/-- Settles O18, register by register: each number names a register, and its value is the one the read returns. -/
theorem registerReadsChangeNothing : Obligations.RegisterReadsChangeNothing := by
  unfold Obligations.RegisterReadsChangeNothing
  intro s rest n hh hn hb
  match n, hn with
  | 0, _ => exact ⟨_, step_readReg hh (r := .cmd) rfl (by simp), by simp [regValue]⟩
  | 1, _ =>
    refine ⟨_, step_readReg hh (r := .status) rfl (by simp), by simp, fun _ => ?_, by simp⟩
    rw [regValue]
    cases s.status <;> rfl
  | 2, _ =>
    refine ⟨_, step_readReg hh (r := .err) rfl (by simp), by simp, by simp, fun _ => ?_, by simp⟩
    rw [regValue]
    rcases s.err with _ | e
    · rfl
    · cases e <;> rfl
  | 3, _ => exact ⟨_, step_readReg hh (r := .inLen) rfl (by simp), by simp [regValue]⟩
  | 4, _ => exact ⟨_, step_readReg hh (r := .outLen) rfl (fun h => absurd rfl (hb h)), by simp [regValue]⟩

/-- `done_o` is 1 exactly while `STATUS` is `DONE` or `ERROR` (R326). -/
theorem doneO_iff (s : State) : s.doneO = true ↔ s.status = .done ∨ s.status = .error := by
  simp [State.doneO]

/-- Settles O19: below the capacities the three reads put their value in `hostData`. -/
theorem bufferReadsChangeNothing : Obligations.BufferReadsChangeNothing := by
  unfold Obligations.BufferReadsChangeNothing
  intro s early rest a hturn
  refine ⟨fun hh ha => ?_, fun hh ha hdone hlt => ?_, fun hh => ?_⟩ <;> rw [step_host hh hturn, hostAct]
  · rw [if_neg (Nat.not_le.2 ha)]
    rfl
  · rw [if_neg (Nat.not_le.2 ha), if_neg (by simp [hdone]), hostOutByte, if_pos ⟨hdone, hlt⟩]
    rfl
  · simp only [doneO_iff]

/-! ## Writes of the input -/

/-- Settles O21: the register or the byte is stored, and a memory read after the write finds every other byte as it was. -/
theorem hostWritesOfInputTakeEffect : Obligations.HostWritesOfInputTakeEffect := by
  unfold Obligations.HostWritesOfInputTakeEffect
  intro s early rest hb
  refine ⟨fun v hh => ?_, fun a b hh ha => ?_⟩
  · rw [step_host hh (.inr hb), hostAct_writeInLen, hostWriteInLen, if_neg hb]
  · refine ⟨{ s with host := rest, inp := s.inp.write a b }, ?_, rfl, fun x => ?_⟩
    · rw [step_host hh (.inr hb), hostAct, if_neg (Nat.not_le.2 ha), if_neg hb]
    · simp only [State.inByte, Memory.read_write]
      split <;> rfl

end Sys2Proof.Machine
end

section
/-! The memories (20_memory.md R60, 00_scope.md R6): what every step keeps of them, and the payload the bit packer leaves in `OUT`
(41_huffman_encoder.md R165 to R168, R365). -/

namespace Sys2Proof.Machine

/-! ## The canonical form and the instance -/

/-- An engine step appends to `OUT` and never writes `IN`. -/
theorem engineStep_memWf {s : State} (h : s.memWf) : (engineStep s).memWf := by
  obtain ⟨⟨-, hinp, -⟩, hemits, -⟩ := engineStep_outcome s
  exact ⟨hinp ▸ h.1, hemits.wf h.2⟩

/-- An unspecified completion keeps `OUT` or forgets it (R357). -/
theorem freeCompletion_memWf {s : State} (h : s.memWf) : (freeCompletion s).memWf := by
  obtain ⟨e, -, heq⟩ | ⟨-, k, -, heq⟩ := freeCompletion_cases s <;> rw [heq]
  · exact h
  · exact ⟨h.1, .nil⟩

theorem freeCompletion_params (s : State) : (freeCompletion s).params = s.params := by
  obtain ⟨e, -, heq⟩ | ⟨-, k, -, heq⟩ := freeCompletion_cases s <;> rw [heq] <;> rfl

theorem memWf_stepInvariant : StepInvariant State.memWf where
  hostSide _ _ _ _ _ _ h := h
  writeIn _ _ _ h := ⟨Memory.write_wf _ _ _ h.1, h.2⟩
  rst _ h := ⟨h.1, .nil⟩
  powerUp _ _ := ⟨.nil, .nil⟩
  launch _ _ _ h := ⟨h.1, .nil⟩
  engineStep _ _ := engineStep_memWf
  freeCompletion _ _ := freeCompletion_memWf

theorem params_stepInvariant (p : Params) : StepInvariant fun s => s.params = p where
  hostSide _ _ _ _ _ _ h := h
  writeIn _ _ _ h := h
  rst _ h := h
  powerUp _ h := h
  launch _ _ _ h := h
  engineStep s _ h := (engineStep_kept s).1.trans h
  freeCompletion s _ h := (freeCompletion_params s).trans h

/-- Settles O58: an engine step appends to `OUT`, a host write of `IN` keeps the order of the offsets, and what else touches a memory
empties it; nothing writes the parameters. -/
theorem stepKeepsMemoriesCanonical : Obligations.StepKeepsMemoriesCanonical := by
  unfold Obligations.StepKeepsMemoriesCanonical
  intro s t hstep hwf
  exact ⟨memWf_stepInvariant.step hstep hwf, (params_stepInvariant s.params).step hstep rfl⟩

/-! ## The packed payload -/

/-- What was appended reads back as the list it was. -/
theorem map_outByte_putAll (bytes : List Byte) (s : State) :
    (List.range bytes.length).map (fun j => (putAll bytes s).outByte (s.outPos + j)) = bytes := by
  apply List.ext_getElem (by simp)
  intro j hj hj'
  have hread := (putAll_frame bytes s).1 j hj'
  simpa [hj'] using hread

/-- Settles O51: the two engine steps append the payload of `pack_ends`, whose bits are the codes and the padding. -/
theorem packerEmitsTheCodeBits : Obligations.PackerEmitsTheCodeBits := by
  unfold Obligations.PackerEmitsTheCodeBits
  intro s bits len hready hphase hbits hlen hroom
  obtain ⟨payload, hpayload, hpadded, hfits, -⟩ := pack_ends hphase hbits (by omega)
  obtain rfl : payload.length = len := hpayload.trans hlen.symm
  obtain ⟨⟨hstatus, -, hhost, htainted, hn, hparams⟩, hend⟩ := hfits hroom
  have hstep := step_engine hready
  obtain ⟨hbusy, hidle, hclean, hcap⟩ := hready
  have hready' : (engineStep s).engineReady :=
    ⟨hstatus.trans hbusy, hhost.trans hidle, htainted.trans hclean, by rwa [hn, hparams]⟩
  refine ⟨_, _, hstep, step_engine hready', ?_⟩
  rw [hend]
  refine ⟨rfl, rfl, rfl, rfl, ?_, (putAll_frame payload s).2⟩
  rw [← hpadded]
  exact congrArg payloadBitList (map_outByte_putAll payload s)

end Sys2Proof.Machine
end

section
/-! Decoding and encoding undo each other (30_encoding.md R90 to R112), and the step that runs a decoded unit. -/

namespace Sys2Proof.Machine

/-! ## Decoding what was encoded -/

theorem decode_encode_command {i : Instr} (hi : i.ctx = .cmd) (rest : List Byte) :
    decode .cmd (encode i ++ rest) = .ok (i, rest) := by
  obtain ⟨c, hc, hdecode, -⟩ := exec_command hi
  simp only [hc, List.singleton_append, decode, hdecode]

theorem decode_encode_rle {i : Instr} (hi : i.ctx = .rleRec) (hw : i.wf = true) (rest : List Byte) :
    decode .rleRec (encode i ++ rest) = .ok (i, rest) := by
  cases i <;> simp only [Instr.ctx, reduceCtorEq] at hi
  case rleRaw b =>
    have hb : b ≠ escapeByte := by simpa [Instr.wf] using hw
    simp [decode, decodeRleRec, encode, hb]
  case rleEsclit => rfl
  case rleRun c b =>
    have hc : c ≠ 0#8 := by simpa [Instr.wf] using hw
    simp [decode, decodeRleRec, encode, hc]

/-- Every unit but the payload has an end of its own, so whatever follows it is left as it is (R109). -/
theorem decode_encode {i : Instr} (hw : i.wf = true) (hi : i.ctx ≠ .huffBits) (rest : List Byte) :
    decode i.ctx (encode i ++ rest) = .ok (i, rest) := by
  cases i with
  | huffCompress | lz77Compress | rleCompress | huffDecompress | lz77Decompress | rleDecompress =>
    exact decode_encode_command rfl rest
  | lz77Hdr v => simp [decode, Instr.ctx, decodeLz77Hdr, encode, u32le, le32_parts]
  | lz77Lit b => rfl
  | lz77Match d l nx => simp [decode, Instr.ctx, decodeLz77Tok, encode, u16le, le16_parts]
  | huffHdr o p k =>
    simp [decode, Instr.ctx, decodeHuffHdr, encode, u32le, u64le, u16le, le32_parts, le64_parts, le16_parts]
  | huffSym b f => simp [decode, Instr.ctx, decodeHuffSym, encode, u32le, le32_parts]
  | huffBits p => exact absurd rfl hi
  | rleRaw b | rleEsclit | rleRun c b => exact decode_encode_rle rfl hw rest

/-- Settles O1: `decode_encode` for the units with an end of their own; the payload is all that is left. -/
theorem decodeOfEncodeIsTheUnit : Obligations.DecodeOfEncodeIsTheUnit := by
  unfold Obligations.DecodeOfEncodeIsTheUnit
  refine ⟨fun i rest hw hi => decode_encode hw ?_ rest, fun p => rfl⟩
  cases i with
  | huffBits p => exact absurd rfl (hi p)
  | _ => simp [Instr.ctx]

/-! ## Encoding what was decoded -/

/-- A command is encoded as the one word that names it (R92). -/
theorem encode_of_decodeCmd {c : Byte} {i : Instr} (h : decodeCmd c = some i) : encode i = [c] := by
  rcases decodeCmd_cases c with ⟨rfl, e⟩ | ⟨rfl, e⟩ | ⟨rfl, e⟩ | ⟨rfl, e⟩ | ⟨rfl, e⟩ | ⟨rfl, e⟩ | ⟨-, e⟩ <;> rw [e] at h <;>
    cases h <;> rfl

theorem decode_cmd_ok {bs rest : List Byte} {i : Instr} (h : decode .cmd bs = .ok (i, rest)) :
    ∃ c, decodeCmd c = some i ∧ bs = c :: rest := by
  simp only [decode] at h
  split at h
  · split at h
    · rename_i hc
      obtain ⟨rfl, rfl⟩ : _ = i ∧ _ = rest := by simpa using h
      exact ⟨_, hc, rfl⟩
    · simp at h
  · simp at h

/-- Only an RLE record narrows its fields (R106, R108). -/
theorem wf_of_ctx_ne_rleRec {i : Instr} (h : i.ctx ≠ .rleRec) : i.wf = true := by
  cases i with
  | rleRaw b | rleEsclit | rleRun c b => exact absurd rfl h
  | _ => rfl

/-- What is decoded as a record is well formed: the decoder never reads the escape byte as a literal nor a run of none. -/
theorem wf_of_decodeRleRec {bs rest : List Byte} {i : Instr} (h : decode .rleRec bs = .ok (i, rest)) : i.wf = true := by
  obtain ⟨b, rfl, hb, -⟩ | ⟨rfl, -⟩ | ⟨c, b, rfl, hc, -⟩ := decodeRleRec_ok h
  · simpa [Instr.wf] using hb
  · rfl
  · simpa [Instr.wf] using hc

theorem wf_of_decode {c : Ctx} {bs rest : List Byte} {i : Instr} (h : decode c bs = .ok (i, rest)) : i.wf = true := by
  by_cases hc : c = .rleRec
  · exact wf_of_decodeRleRec (hc ▸ h)
  · exact wf_of_ctx_ne_rleRec (decode_place h ▸ hc)

/-- No byte that was decoded is lost (R109). -/
theorem encode_of_decode {c : Ctx} {bs rest : List Byte} {i : Instr} (h : decode c bs = .ok (i, rest)) :
    encode i ++ rest = bs := by
  cases c with
  | cmd =>
    obtain ⟨b, hb, rfl⟩ := decode_cmd_ok h
    rw [encode_of_decodeCmd hb]
    rfl
  | lz77Hdr =>
    obtain ⟨v, rfl, rfl⟩ := decodeLz77Hdr_ok h
    rfl
  | lz77Tok => obtain ⟨b, rfl, rfl⟩ | ⟨d, l, nx, rfl, rfl⟩ := decodeLz77Tok_ok h <;> rfl
  | huffHdr =>
    obtain ⟨o, p, k, rfl, rfl⟩ := decodeHuffHdr_ok h
    rfl
  | huffSym =>
    obtain ⟨b, f, rfl, rfl⟩ := decodeHuffSym_ok h
    rfl
  | huffBits =>
    obtain ⟨rfl, rfl⟩ : Instr.huffBits bs = i ∧ [] = rest := by simpa [decode] using h
    exact List.append_nil bs
  | rleRec => obtain ⟨b, rfl, -, rfl⟩ | ⟨rfl, rfl⟩ | ⟨c, b, rfl, -, rfl⟩ := decodeRleRec_ok h <;> rfl

/-- Settles O2: the bytes, the check of the fields and the place, each from what the decoder has read. -/
theorem encodeOfDecodeIsTheBytes : Obligations.EncodeOfDecodeIsTheBytes := by
  unfold Obligations.EncodeOfDecodeIsTheBytes
  exact fun _ _ _ _ h => ⟨encode_of_decode h, wf_of_decode h, decode_place h⟩

/-! ## Words written out -/

/-- Settles O3: the decoder is run on each of the fifteen words. -/
theorem writtenOutWordsDecode : Obligations.WrittenOutWordsDecode := by
  unfold Obligations.WrittenOutWordsDecode
  exact ⟨rfl, rfl, rfl, rfl, rfl, rfl, rfl, rfl, rfl, rfl, rfl, rfl, rfl, rfl, rfl⟩

/-! ## The step -/

/-- Settles O4: a decoder's boundary is in the stream, so the step is an engine step that runs the unit. -/
theorem stepRunsTheDecodedUnit : Obligations.StepRunsTheDecodedUnit := by
  unfold Obligations.StepRunsTheDecodedUnit
  intro s c i rest hready hboundary hc hdecode
  rw [fetchBytes_stream hc] at hdecode
  exact step_unit hready hboundary hc hdecode

end Sys2Proof.Machine
end

section
/-! What `RLE_DECOMPRESS` and `LZ77_DECOMPRESS` deliver from the launch on (45_rle_codec.md R288 to R294, 44_lz77_decoder.md R250 to
R260). -/

namespace Sys2Proof.Machine

@[simp] theorem length_input (s : State) : s.input.length = s.inLen.toNat := by simp [State.input]

/-- A launch leaves nothing of an earlier command in `OUT` (R132). -/
theorem wrote_launch (c : Byte) (s : State) : Wrote (launch c s) [] := ⟨rfl, rfl⟩

/-- A command on an empty input delivers nothing (R134). -/
theorem exec_command_empty_delivers {i : Instr} {s : State} (hi : i.ctx = .cmd) (hl : s.launchable) (hn : s.inLen.toNat = 0) :
    ∃ t, exec i s = .next t ∧ Delivers t [] := by
  obtain ⟨c, -, hexec⟩ := exec_command_empty hi hl hn
  exact ⟨_, hexec, (wrote_launch c s).finish rfl⟩

/-! ## RLE -/

/-- `RLE_DECOMPRESS` on a stream of records. -/
theorem rle_decompress_delivers {s : State} {units : List Instr} (hl : s.launchable)
    (hu : ∀ i ∈ units, i.ctx = .rleRec ∧ i.wf = true) (hin : s.input = units.flatMap encode)
    (hfit : (units.flatMap rleExpand).length ≤ s.params.outCap) :
    ∃ t, exec .rleDecompress s = .next t ∧ Delivers t (units.flatMap rleExpand) := by
  by_cases hn : s.inLen.toNat = 0
  · have hnil : units.flatMap encode = [] := by rw [← hin, ← List.length_eq_zero_iff, length_input, hn]
    rw [units_eq_nil (fun i hi => (hu i hi).1) hnil]
    exact exec_command_empty_delivers rfl hl hn
  · obtain ⟨t, hends, hdelivers⟩ := rle_decompress_ends units (s := { launch 0x06 s with phase := .sToken }) (done := [])
      rfl rfl rfl (wrote_launch 0x06 s) hu hin (by simpa using hfit)
    exact ⟨t, exec_command_ends rfl rfl hl hn hends, hdelivers⟩

/-- Settles O31, from the launch by the run over the records. -/
theorem rleDecompressExpandsItsRecords : Obligations.RleDecompressExpandsItsRecords := by
  unfold Obligations.RleDecompressExpandsItsRecords
  intro s units hl hcap hu hin hfit
  obtain ⟨t, hexec, hdelivers⟩ := rle_decompress_delivers hl hu hin hfit
  have hresult := hdelivers.result (by omega)
  obtain ⟨hdone, herr, -⟩ := hdelivers
  exact ⟨t, hexec, hdone, herr, hresult⟩

/-! ## LZ77 -/

/-- The header of a stream whose target fits (R251, R252). -/
theorem engineStep_lz77Hdr {s : State} {target : BitVec 32} {rest : List Byte} (hp : s.phase = .mHeader)
    (hu : s.unread = encode (.lz77Hdr target) ++ rest) (hfit : target.toNat ≤ s.params.outCap) :
    engineStep s = { s with lz := { s.lz with target := target.toNat }, inPos := 4, phase := .mToken } := by
  have hdecode : decode .lz77Hdr s.unread = .ok (.lz77Hdr target, rest) := by
    rw [hu]
    exact decode_encode (i := .lz77Hdr target) rfl (by simp [Instr.ctx]) rest
  rw [← fetchBytes_stream (c := .lz77Hdr) (by decide)] at hdecode
  rw [engineStep_unit (by simp only [State.boundary, hp]) hdecode, unitRun, lz77HdrRun, if_neg (Nat.not_lt.2 hfit),
    Run.state_going]

/-- `LZ77_DECOMPRESS` on a header, the tokens that reach its target, and any bytes after them (R253). -/
theorem lz77_decompress_delivers {s : State} {target : BitVec 32} {tokens : List Instr} {out trailing : List Byte}
    (hl : s.launchable) (hfit : target.toNat ≤ s.params.outCap)
    (hin : s.input = encode (.lz77Hdr target) ++ (tokens.flatMap encode ++ trailing))
    (htokens : lzTokens target.toNat tokens [] = some out) (hlen : out.length = target.toNat) :
    ∃ t, exec .lz77Decompress s = .next t ∧ Delivers t out := by
  have hn : s.inLen.toNat ≠ 0 := by
    rw [← length_input, hin]
    simp [encode]
  have hstep := engineStep_lz77Hdr (s := { launch 0x05 s with phase := .mHeader }) rfl hin hfit
  have hunread : s.input.drop 4 = tokens.flatMap encode ++ trailing := by
    rw [hin]
    exact List.drop_left (l₁ := encode (.lz77Hdr target))
  obtain ⟨t, hends, hdelivers⟩ := lz77_decompress_ends tokens (s := engineStep { launch 0x05 s with phase := .mHeader })
    (by rw [hstep]; rfl) (by rw [hstep]; rfl) (by rw [hstep]) (by rw [hstep]; exact wrote_launch 0x05 s)
    (by rw [hstep]; exact hfit) (by rw [hstep]; exact htokens) (by rw [hstep]; exact hlen) (by rw [hstep]; exact hunread)
  exact ⟨t, exec_command_ends rfl rfl hl hn (Ends.step rfl hends), hdelivers⟩

/-- Settles O41: the header's step, then the run over the tokens; what it delivers is as long as the 32-bit target. -/
theorem lz77DecompressExpandsItsTokens : Obligations.Lz77DecompressExpandsItsTokens := by
  unfold Obligations.Lz77DecompressExpandsItsTokens
  intro s target tokens out trailing hl hfit hin htokens hlen
  rw [List.append_assoc] at hin
  obtain ⟨t, hexec, hdelivers⟩ := lz77_decompress_delivers hl hfit hin htokens hlen
  have hresult := hdelivers.result (hlen ▸ target.isLt)
  obtain ⟨hdone, herr, -⟩ := hdelivers
  exact ⟨t, hexec, hdone, herr, hresult⟩

end Sys2Proof.Machine
end

section
/-! The Huffman payload as one unit (42_huffman_decoder.md R199 to R202): how far its walk gets, and how it ends. -/

namespace Sys2Proof.Machine

theorem exec_huffBits (payload : List Byte) (s : State) : exec (.huffBits payload) s = .next (huffBitsRun payload s).state := rfl

/-! ## How far the walk gets -/

/-- The walk past the symbols that its first bits spell (R199). -/
theorem huffBitsRun_symbols {s : State} {payload : List Byte} {xs : List (Byte × List Bool)} {rest : List Bool}
    (hk : s.huff.k ≠ 1) (hlen : ceil8 s.huff.payloadBits ≤ payload.length)
    (hxs : ∀ x ∈ xs, x.2 ≠ [] ∧ follow s.huff.node s.huff.root x.2 = some x.1)
    (hbits : codeBits payload s = xs.flatMap Prod.snd ++ rest) (hcap : s.huff.origLen ≤ s.params.outCap)
    (hcount : s.outPos + xs.length ≤ s.huff.origLen) :
    huffBitsRun payload s =
      (walk rest (walking s.huff.root (xs.flatMap Prod.snd).length (putAll (xs.map Prod.fst) s))).andThen
        (fun s => .ended (finish s)) := by
  have hwalk := walk_symbols (s := walkStart s) xs rest rfl rfl hk (if_neg hk) hxs hcount hcap
  rw [huffBitsRun_walk hlen, hbits, hwalk]
  simp only [walking, walkStart, putAll, Nat.zero_add]

/-- With one symbol, the walk past its first `count` bits (R200). -/
theorem huffBitsRun_single {s : State} {payload : List Byte} {sym : Byte} {f : Nat} (count : Nat) (hk : s.huff.k = 1)
    (hlen : ceil8 s.huff.payloadBits ≤ payload.length) (hleaf : s.huff.node[s.huff.root]? = some (.leaf sym f))
    (hcap : s.huff.origLen ≤ s.params.outCap) (hbits : count ≤ s.huff.payloadBits)
    (hcount : s.outPos + count ≤ s.huff.origLen) :
    huffBitsRun payload s =
      (walk ((codeBits payload s).drop count) (walking s.huff.cur count (putAll (List.replicate count sym) s))).andThen
        (fun s => .ended (finish s)) := by
  have htake : ((codeBits payload s).take count).length = count := by
    rw [List.length_take, length_codeBits hlen, Nat.min_eq_left hbits]
  have hwalk := walk_single (s := walkStart s) ((codeBits payload s).take count) ((codeBits payload s).drop count) hleaf hk
    (htake.symm ▸ hcount) hcap
  rw [List.take_append_drop, htake] at hwalk
  rw [huffBitsRun_walk hlen, hwalk]
  simp only [walking, walkStart, putAll, Nat.zero_add, if_pos hk]

/-! ## How it ends -/

/-- The state in which the walk has all the bytes it wants. -/
theorem finish_walking_putAll {s : State} {bytes : List Byte} (cur bitPos : Nat)
    (h : s.outPos + bytes.length = s.huff.origLen) :
    finish (walking cur bitPos (putAll bytes s)) = { s with
      out := s.out.writeAll s.outPos bytes, outPos := s.huff.origLen, outLen := BitVec.ofNat 32 s.huff.origLen
      status := .done, phase := .endOk, huff := { s.huff with cur := cur, bitPos := bitPos } } := by
  simp only [finish, walking, putAll, h]

/-- A walk that has them stops by count and the command is done, whatever bits are left (R199). -/
theorem exec_huffBits_finishes {payload bytes : List Byte} {bits : List Bool} {cur bitPos : Nat} {s : State}
    (hrun : huffBitsRun payload s =
      (walk bits (walking cur bitPos (putAll bytes s))).andThen (fun s => .ended (finish s)))
    (hcount : s.outPos + bytes.length = s.huff.origLen) :
    exec (.huffBits payload) s = .next (finish (walking cur bitPos (putAll bytes s))) := by
  rw [walk_stop bits (s := walking cur bitPos (putAll bytes s)) hcount.ge] at hrun
  rw [exec_huffBits, hrun]
  rfl

/-- The bytes that `count` walked bits of a single symbol leave. -/
theorem outByte_putAll_replicate (count : Nat) (b : Byte) (s : State) (a : Nat) :
    (putAll (List.replicate count b) s).outByte a = if s.outPos ≤ a ∧ a < s.outPos + count then b else s.outByte a := by
  rw [outByte_putAll, List.length_replicate]
  split
  · rename_i ha
    have hlt : a - s.outPos < count := by omega
    simp [hlt]
  · rfl

/-- A walk that has run out of bits ends with `TruncatedStream` (R201). -/
theorem exec_huffBits_truncated {payload : List Byte} {s w : State} {f : State → Run}
    (h : huffBitsRun payload s = (fail .truncatedStream w).andThen f) :
    ∃ t, exec (.huffBits payload) s = .next t ∧ t.status = .error ∧ t.err = some .truncatedStream ∧ t.outLen = 0 := by
  refine ⟨raise .truncatedStream w, ?_, rfl, rfl, rfl⟩
  rw [exec_huffBits, h]
  rfl

/-- Settles O53: a short payload is rejected before the walk; else the walk gets past the symbols its bits spell, or past as many bits
as there are bytes to deliver, and there it stops by count or has no bits left that lead to a leaf. -/
theorem payloadWalkDeliversTheSymbols : Obligations.PayloadWalkDeliversTheSymbols := by
  unfold Obligations.PayloadWalkDeliversTheSymbols
  refine ⟨fun s payload hshort => ?_, fun s payload xs rest hk hlen hxs hbits hcap => ⟨fun hcount => ?_, fun hcount hlost => ?_⟩,
    fun s payload sym f hk hlen hleaf hpos hcap => ⟨fun hbits => ?_, fun hbits => ?_⟩⟩
  · rw [exec_huffBits, huffBitsRun_short hshort]
    rfl
  · have hcount' : s.outPos + (xs.map Prod.fst).length = s.huff.origLen := by rw [List.length_map, hcount]
    obtain ⟨hnew, hold⟩ := putAll_frame (xs.map Prod.fst) s
    rw [List.length_map] at hnew
    rw [hcount'] at hold
    exact ⟨_, exec_huffBits_finishes (huffBitsRun_symbols hk hlen hxs hbits hcap hcount.le) hcount',
      finish_walking_putAll _ _ hcount', hnew, hold⟩
  · have hrun := huffBitsRun_symbols hk hlen hxs hbits hcap hcount.le
    obtain ⟨w, hw⟩ := walk_lost rest
      (s := walking s.huff.root (xs.flatMap Prod.snd).length (putAll (xs.map Prod.fst) s)) hk
      (by simpa [walking] using hcount) hlost
    exact exec_huffBits_truncated (hw ▸ hrun)
  · have hcount : s.outPos + (List.replicate (s.huff.origLen - s.outPos) sym).length = s.huff.origLen := by
      rw [List.length_replicate]
      omega
    have hrun := huffBitsRun_single (s.huff.origLen - s.outPos) hk hlen hleaf hcap (by omega) (by omega)
    refine ⟨_, exec_huffBits_finishes hrun hcount, finish_walking_putAll _ _ hcount, fun a => ?_⟩
    have hread := outByte_putAll_replicate (s.huff.origLen - s.outPos) sym s a
    rwa [Nat.add_sub_cancel' hpos] at hread
  · have hrun := huffBitsRun_single s.huff.payloadBits hk hlen hleaf hcap le_rfl hbits.le
    rw [List.drop_eq_nil_of_le (length_codeBits hlen).le, walk_exhausted (by simpa [walking] using hbits)] at hrun
    exact exec_huffBits_truncated hrun

end Sys2Proof.Machine
end

section
/-! The six commands as one operation (40_codec_interface.md R130 to R137): the `CMD` write that launches one, and what every run from
a launch has in common. -/

namespace Sys2Proof.Machine

/-! ## Runs from the launch -/

/-- A command that may be launched is the engine's run from the launch of its word, and that run ends (R146). -/
theorem exec_command_runs {i : Instr} {s : State} (hi : i.ctx = .cmd) (hl : s.launchable) :
    ∃ c t, encode i = [c] ∧ exec i s = .next t ∧ t = runEngine (commandFuel s.inLen.toNat) (launch c s) ∧ Running t ∧
      t.status ≠ .busy := by
  obtain ⟨c, hc, -, hcommand⟩ := exec_command hi
  obtain ⟨t, hrun, hrunning, hended, ht⟩ := runCommand_ends c hl
  exact ⟨c, t, hc, (hcommand s).trans hrun, ht, hrunning, hended⟩

/-- Whatever next state a launched command gives, that run has led to it. -/
theorem exec_command_next {i : Instr} {s t : State} (hi : i.ctx = .cmd) (hl : s.launchable) (h : exec i s = .next t) :
    ∃ c, encode i = [c] ∧ t = runEngine (commandFuel s.inLen.toNat) (launch c s) ∧ Running t ∧ t.status ≠ .busy := by
  obtain ⟨c, u, hc, hu, hrun⟩ := exec_command_runs hi hl
  obtain rfl := Host.Outcome.next.inj (hu.symm.trans h)
  exact ⟨c, hc, hrun⟩

/-- With `IN_LEN` above `IN_CAP` no command has a meaning (R361). -/
theorem exec_command_refused {i : Instr} {s : State} (hi : i.ctx = .cmd) (hb : s.status ≠ .busy)
    (hlen : s.params.inCap < s.inLen.toNat) : exec i s = .refused .inLenExceedsInCap := by
  obtain ⟨c, -, -, hcommand⟩ := exec_command hi
  rw [hcommand, runCommand, if_neg hb, if_pos hlen]

theorem launchable_of_exec_next {i : Instr} {s t : State} (hi : i.ctx = .cmd) (hb : s.status ≠ .busy) (h : exec i s = .next t) :
    s.launchable := by
  refine ⟨hb, Nat.not_lt.1 fun hlen => ?_⟩
  rw [exec_command_refused hi hb hlen] at h
  cases h

/-! ## The two results -/

/-- A run that is no longer `BUSY` has one of the two results of R130. -/
theorem Running.ended {t : State} (h : Running t) (hb : t.status ≠ .busy) :
    t.status = .done ∧ t.err = none ∧ t.outLen = BitVec.ofNat 32 t.outPos ∨
    t.status = .error ∧ t.err ≠ none ∧ t.outLen = 0 := by
  cases ht : t.status <;> simp only [Running, ht] at h
  case busy => exact absurd ht hb
  case done => exact .inl ⟨rfl, h⟩
  case error => exact .inr ⟨rfl, h⟩

/-- Settles O13: the run from the launch ends within the command's fuel. -/
theorem everyCommandCompletes : Obligations.EveryCommandCompletes := by
  unfold Obligations.EveryCommandCompletes
  intro i s hi hl
  obtain ⟨-, t, -, hexec, -, hrunning, hended⟩ := exec_command_runs hi hl
  exact ⟨t, hexec, (hrunning.ended hended).imp_left fun ⟨hdone, herr, _⟩ => ⟨hdone, herr⟩⟩

/-! ## Purity -/

/-- With `OUT_LEN` 0 there is no result byte. -/
theorem result_eq_nil {t : State} (h : t.outLen = 0) : t.result = [] := by
  simp [State.result, h]

/-- Two ends that agree on what the engine reads show the host the same bytes: below `OUT_LEN` all of them were written. -/
theorem Same.result {s t : State} (h : Same s t) (hr : Running s) (hb : s.status ≠ .busy) : t.result = s.result := by
  have hlen := h.outLen hb
  rcases hr.ended hb with ⟨hdone, -, hpos⟩ | ⟨-, -, h0⟩
  · have hwritten : s.outLen.toNat ≤ s.outPos := hpos ▸ toNat_ofNat_le s.outPos
    rw [State.result, State.result, hlen]
    refine List.map_congr_left fun a ha => ?_
    have ha : a < s.outLen.toNat := List.mem_range.1 ha
    rw [hostOutByte, if_pos ⟨h.status.trans hdone, hlen ▸ ha⟩, hostOutByte, if_pos ⟨hdone, ha⟩,
      h.outByte (ha.trans_le hwritten)]
  · rw [result_eq_nil h0, result_eq_nil (hlen.trans h0)]

/-- Settles O16: launches on the same bytes agree on all that the engine reads, so the runs end in the same completion. -/
theorem completionIsAPureFunction : Obligations.CompletionIsAPureFunction := by
  unfold Obligations.CompletionIsAPureFunction
  intro i s₁ s₂ t₁ t₂ hi hb₁ hb₂ hparams hlen hinput hexec₁ hexec₂
  obtain ⟨c, hc, rfl, hrunning, hended⟩ := exec_command_next hi (launchable_of_exec_next hi hb₁ hexec₁) hexec₁
  obtain ⟨c', hc', rfl, -⟩ := exec_command_next hi (launchable_of_exec_next hi hb₂ hexec₂) hexec₂
  obtain rfl : c = c' := by simpa [hc] using hc'
  have hsame := runEngine_same (commandFuel s₁.inLen.toNat) (launch_same c hparams.symm hlen.symm hinput.symm)
  rw [← hlen]
  exact ⟨hsame.status.symm, hsame.err.symm, (hsame.outLen hended).symm, (hsame.result hrunning hended).symm⟩

/-! ## The frame, and empty input -/

/-- Settles O15: neither the launch nor an engine step writes the input side. -/
theorem commandsNeverWriteTheirInputs : Obligations.CommandsNeverWriteTheirInputs := by
  unfold Obligations.CommandsNeverWriteTheirInputs
  intro i s t hi hl hexec
  obtain ⟨c, hc, rfl, -⟩ := exec_command_next hi hl hexec
  obtain ⟨hparams, hinp, hinLen, hcmd, -, hhost, hdata, hstep, -⟩ := runEngine_kept (commandFuel s.inLen.toNat) (launch c s)
  refine ⟨⟨hparams, hinp, hinLen, hhost, hdata, hstep⟩, hc.trans (by rw [hcmd, launch_cmd]), fun a => ?_⟩
  rw [State.inByte, hinp, launch_inp, State.inByte]

/-- Settles O9: the command delivers nothing, and no capacity is too small for an input of no bytes. -/
theorem emptyInputGivesEmptyOutput : Obligations.EmptyInputGivesEmptyOutput := by
  unfold Obligations.EmptyInputGivesEmptyOutput
  intro i s hi hb hlen
  have hn : s.inLen.toNat = 0 := by simp [hlen]
  obtain ⟨t, hexec, hdelivers⟩ := exec_command_empty_delivers hi ⟨hb, by omega⟩ hn
  have hresult := hdelivers.result (by simp)
  obtain ⟨hdone, herr, -, -, houtLen⟩ := hdelivers
  exact ⟨t, hexec, hdone, herr, houtLen, hresult⟩

/-! ## The write of CMD -/

/-- In an atomic machine an accepted word that names a command is that command (R132). -/
theorem hostWriteCmd_command {ex : Instr → State → Host.Outcome State Fault Refusal} {c : Byte} {i : Instr} {r : List Byte}
    {s : State} (hb : s.status ≠ .busy) (hs : s.stepwise = false) (hd : decode .cmd [c] = .ok (i, r)) :
    hostWriteCmd ex c s = ex i s := by
  simp [hostWriteCmd, hb, hs, hd]

/-- An accepted word that names none is launched all the same (R133). -/
theorem hostWriteCmd_unknown {ex : Instr → State → Host.Outcome State Fault Refusal} {c : Byte} {s : State}
    (hb : s.status ≠ .busy) (hs : s.stepwise = false) (hd : decodeCmd c = none) : hostWriteCmd ex c s = runCommand c s := by
  simp [hostWriteCmd, hb, hs, decode_command_error hd]

/-- A launched word that names no command ends at the engine's first step (R133). -/
theorem runCommand_unknown {c : Byte} {s : State} (hl : s.launchable) (hd : decodeCmd c = none) :
    runCommand c s = .next (raise .unknownAlgorithm (launch c s)) := by
  refine runCommand_of_chain (k := 1) hl (by unfold commandFuel; omega) ?_ (by simp)
  rw [runEngine_one rfl, engineStep_launch_unknown s hd]

/-- Settles O5: the host's request is served, and an accepted word runs its command. -/
theorem stepRunsTheWrittenCommand : Obligations.StepRunsTheWrittenCommand := by
  unfold Obligations.StepRunsTheWrittenCommand
  intro s early c rest i r hhost hb hs hd
  rw [step_host hhost (.inr hb), hostAct_writeCmd]
  exact hostWriteCmd_command hb hs hd

/-- Settles O6: the command ends in the launch's state with the error taken. -/
theorem unassignedCommandRaisesUnknownAlgorithm : Obligations.UnassignedCommandRaisesUnknownAlgorithm := by
  unfold Obligations.UnassignedCommandRaisesUnknownAlgorithm
  intro s early c rest hc hhost hl hs
  have hd := decodeCmd_none hc
  refine ⟨raise .unknownAlgorithm (launch c { s with host := rest }), ?_, rfl, rfl, rfl, rfl, rfl, rfl, rfl, result_eq_nil rfl,
    rfl, ⟨rfl, rfl, rfl, rfl, rfl, rfl⟩⟩
  rw [step_host hhost (.inr hl.1), hostAct_writeCmd, hostWriteCmd_unknown (s := { s with host := rest }) hl.1 hs hd]
  exact runCommand_unknown hl hd

/-- At a launch `FREQ` and `CODE` hold nothing (R47). -/
theorem huffInit_tables {b : Nat} (h : b < 256) : HuffRegs.init.freq[b]? = some 0 ∧ HuffRegs.init.code[b]? = some [] :=
  ⟨List.getElem?_replicate_of_lt h, List.getElem?_replicate_of_lt h⟩

/-- Settles O12: the step is the launch alone, whose fields are written out. -/
theorem launchStepWritesTheseRegisters : Obligations.LaunchStepWritesTheseRegisters := by
  unfold Obligations.LaunchStepWritesTheseRegisters
  intro s early c rest hhost hl hs
  exact ⟨_, step_stepwise_command hl hs hhost, rfl, rfl, rfl, rfl, rfl, rfl, fun _ => huffInit_tables, rfl, rfl, rfl,
    ⟨rfl, rfl, rfl, rfl, rfl, rfl⟩, rfl, rfl⟩

end Sys2Proof.Machine
end

section
/-! The round trips (40_codec_interface.md R144): what an encoder delivers from the launch on, and that its decoder, on any machine that can
hold it, gives the input back. -/

namespace Sys2Proof.Machine

/-- An input is shorter than the 32 bits of `IN_LEN` can count (R24). -/
theorem length_input_lt (s : State) : s.input.length < 4294967296 := by
  rw [length_input]
  exact s.inLen.isLt

/-- A decoder that delivers the input of `s` has it as its result. -/
theorem Delivers.roundTrip {dec : Instr} {s u v : State} (h : Delivers v s.input) (hexec : exec dec u = .next v) :
    ∃ v, exec dec u = .next v ∧ v.status = .done ∧ v.result = s.input :=
  ⟨v, hexec, h.1, h.result (length_input_lt s)⟩

/-- The round trip of an empty input, which is the empty output of every command (R134). -/
theorem roundTrip_empty {enc dec : Instr} {s t u : State} (he : enc.ctx = .cmd) (hd : dec.ctx = .cmd) (hs : s.launchable)
    (hn : s.inLen.toNat = 0) (hexec : exec enc s = .next t) (hu : u.launchable) (hin : u.input = t.result) :
    ∃ v, exec dec u = .next v ∧ v.status = .done ∧ v.result = s.input := by
  obtain ⟨t', hexec', hdelivers⟩ := exec_command_empty_delivers he hs hn
  obtain rfl := Host.Outcome.next.inj (hexec'.symm.trans hexec)
  rw [hdelivers.result (by simp)] at hin
  obtain ⟨v, hv, hdelivers'⟩ := exec_command_empty_delivers hd hu (by rw [← length_input, hin, List.length_nil])
  have hnil : s.input = [] := by rw [← List.length_eq_zero_iff, length_input, hn]
  exact Delivers.roundTrip (hnil ▸ hdelivers') hv

/-! ## RLE -/

/-- `RLE_COMPRESS` writes records that stand for the input, and is done exactly where `OUT` holds them (R286, R287). -/
theorem rle_compress_delivers {s : State} (hl : s.launchable) (hn : s.inLen.toNat ≠ 0) :
    ∃ (units : List Instr) (t : State), exec .rleCompress s = .next t ∧ (∀ i ∈ units, i.ctx = .rleRec ∧ i.wf = true) ∧
      units.flatMap rleExpand = s.input ∧ (units.flatMap encode).length ≤ 3 * s.inLen.toNat ∧
      ((units.flatMap encode).length ≤ s.params.outCap → Delivers t (units.flatMap encode)) ∧
      (t.status = .done → (units.flatMap encode).length ≤ s.params.outCap) := by
  obtain ⟨units, hunits, hexpand, hbound, t, hends, hfits, hdone⟩ := rle_compress_ends s.inLen.toNat
    (s := { launch 0x02 s with phase := .rRun }) le_rfl rfl rfl rfl (wrote_launch 0x02 s) (Nat.zero_le _)
  exact ⟨units, t, exec_command_ends rfl rfl hl hn hends, hunits, hexpand, hbound, by simpa using hfits, by simpa using hdone⟩

/-- Settles O32: the decoder expands the records the encoder wrote, and they stand for the input. -/
theorem rleRoundTrip : Obligations.RleRoundTrip := by
  unfold Obligations.RleRoundTrip
  intro s t u hs hcap hexec hdone hu hin hfit
  by_cases hn : s.inLen.toNat = 0
  · exact roundTrip_empty rfl rfl hs hn hexec hu hin
  · obtain ⟨units, t', hexec', hunits, hexpand, -, hfits, hroom⟩ := rle_compress_delivers hs hn
    obtain rfl := Host.Outcome.next.inj (hexec'.symm.trans hexec)
    have hlen := hroom hdone
    rw [(hfits hlen).result (by omega)] at hin
    obtain ⟨v, hv, hdelivers⟩ := rle_decompress_delivers hu hunits hin (by rwa [hexpand, length_input])
    exact Delivers.roundTrip (hexpand ▸ hdelivers) hv

/-! ## LZ77 -/

/-- The encoder's header step: the target is `N`, if `OUT` holds its four bytes (R221). -/
theorem engineStep_lHeader_cases {s : State} {target : BitVec 32} (hp : s.phase = .lHeader) (h0 : s.outPos = 0)
    (ht : s.n = target.toNat) :
    (4 ≤ s.params.outCap ∧ engineStep s = { putAll (encode (.lz77Hdr target)) s with phase := .lSearch }) ∨
    (engineStep s).status = .error := by
  have hlen : (encode (.lz77Hdr target)).length = 4 := rfl
  rw [engineStep_lHeader hp, ht, BitVec.ofNat_toNat, BitVec.setWidth_eq]
  by_cases hroom : 4 ≤ s.params.outCap
  · rw [emitAll_ok (by omega)]
    exact .inl ⟨hroom, rfl⟩
  · rw [emitAll_full (by omega) (by omega)]
    exact .inr rfl

/-- Where `LZ77_COMPRESS` is done it has delivered a header and tokens that stand for the input (R221 to R228). -/
theorem lz77_compress_delivers {s : State} (hl : s.launchable) (hp : s.params.ok) (hn : s.inLen.toNat ≠ 0) :
    ∃ t, exec .lz77Compress s = .next t ∧ (t.status = .done →
      ∃ tokens : List Instr, lzTokens s.inLen.toNat tokens [] = some s.input ∧
        (encode (.lz77Hdr s.inLen) ++ tokens.flatMap encode).length ≤ s.params.outCap ∧
        Delivers t (encode (.lz77Hdr s.inLen) ++ tokens.flatMap encode)) := by
  obtain ⟨-, -, -, -, -, hwindow, -, hmatch, -⟩ := hp
  have hexec : ∀ t, Ends (engineStep { launch 0x01 s with phase := .lHeader }) t → exec .lz77Compress s = .next t :=
    fun t ht => exec_command_ends (c := 0x01) rfl rfl hl hn (Ends.step rfl ht)
  rcases engineStep_lHeader_cases (s := { launch 0x01 s with phase := .lHeader }) (target := s.inLen) rfl rfl rfl with
    ⟨hroom, hstep⟩ | herr
  · rw [hstep] at hexec
    obtain ⟨tokens, -, hcover, t, hends, -, hdelivers, -⟩ := lz77_compress_ends s.inLen.toNat
      (s := { putAll (encode (.lz77Hdr s.inLen)) { launch 0x01 s with phase := .lHeader } with phase := .lSearch })
      (done := encode (.lz77Hdr s.inLen)) le_rfl rfl rfl rfl ((wrote_launch 0x01 s).putAll (encode (.lz77Hdr s.inLen))) hroom
      hwindow hmatch
    refine ⟨t, hexec t hends, fun hdone => ⟨tokens, hcover, ?_⟩⟩
    rw [List.length_append]
    exact hdelivers hdone
  · exact ⟨_, hexec _ (Ends.here (by rw [herr]; decide)), fun hdone => absurd (herr.symm.trans hdone) (by decide)⟩

/-- Settles O42: the decoder's target is the input's length, and the encoder's tokens reach it with the input. -/
theorem lz77RoundTrip : Obligations.Lz77RoundTrip := by
  unfold Obligations.Lz77RoundTrip
  intro s t u hs hp hexec hdone hu hin hfit
  by_cases hn : s.inLen.toNat = 0
  · exact roundTrip_empty rfl rfl hs hn hexec hu hin
  · obtain ⟨t', hexec', hdelivered⟩ := lz77_compress_delivers hs hp hn
    obtain rfl := Host.Outcome.next.inj (hexec'.symm.trans hexec)
    obtain ⟨tokens, hcover, hlen, hdelivers⟩ := hdelivered hdone
    obtain ⟨-, -, -, hcap, -⟩ := hp
    rw [hdelivers.result (by omega), ← List.append_nil (tokens.flatMap encode)] at hin
    obtain ⟨v, hv, hdelivers'⟩ := lz77_decompress_delivers hu hfit hin hcover (length_input s)
    exact hdelivers'.roundTrip hv

/-! ## Huffman -/

/-- The length the header declares is the number of code bits (R163), and the field holds it (R168). -/
theorem payloadLength_codedBits {data : List Byte} (hne : data ≠ []) (hlt : data.length < 4294967296) :
    payloadLength (countBytes data) (codesOf (countBytes data)) = (codedBits data).length ∧
      (codedBits data).length < 18446744073709551616 := by
  have hpos : 0 < (countBytes data).sum := by
    rw [sum_countBytes]
    exact List.length_pos_iff.2 hne
  obtain ⟨-, hcode⟩ := codesOf_spec (length_countBytes data) hpos
  have hlen : (codedBits data).length ≤ 255 * data.length := (coded_length data hne).2
  exact ⟨payloadLength_count data _ hcode.size, by omega⟩

/-- Where `HUFF_COMPRESS` is done it has delivered the header of the input and the padded code bits (R164 to R168). -/
theorem huff_compress_delivers {s : State} (hl : s.launchable) (hn : s.inLen.toNat ≠ 0) :
    ∃ (payload : List Byte) (pad : List Bool) (t : State), exec .huffCompress s = .next t ∧
      payload.length = ceil8 (codedBits s.input).length ∧ payloadBitList payload = codedBits s.input ++ pad ∧
      (t.status = .done →
        (headerOf s.input ++ payload).length ≤ s.params.outCap ∧ Delivers t (headerOf s.input ++ payload)) := by
  obtain ⟨payload, t, hexec, hlen, hbits, hfits, hfull⟩ := huff_compress_ends hl hn
  refine ⟨payload, _, t, hexec, hlen, hbits, fun hdone => ?_⟩
  rw [List.length_append]
  by_cases hroom : (headerOf s.input).length + payload.length ≤ s.params.outCap
  · exact ⟨hroom, (hfits hroom).1⟩
  · exact absurd (hdone.symm.trans (hfull (Nat.not_le.1 hroom))) (by decide)

/-- `HUFF_DECOMPRESS` on such a stream delivers the input, and has then walked the declared bits, none of the padding (R202). -/
theorem huff_decompress_delivers {u : State} {data payload : List Byte} {pad : List Bool} (hl : u.launchable) (hne : data ≠ [])
    (hlt : data.length < 4294967296) (hfit : data.length ≤ u.params.outCap)
    (hlen : payload.length = ceil8 (codedBits data).length) (hbits : payloadBitList payload = codedBits data ++ pad)
    (hin : u.input = headerOf data ++ payload) :
    ∃ v, exec .huffDecompress u = .next v ∧ Delivers v data ∧ v.huff.bitPos = v.huff.payloadBits := by
  obtain ⟨hdeclared, hsmall⟩ := payloadLength_codedBits hne hlt
  have hcodes : (payloadBitList payload).take (codedBits data).length = codedBits data ++ [] := by
    rw [hbits, List.take_left, List.append_nil]
  obtain ⟨v, hv, hdelivers, hbitPos, hpayloadBits⟩ := huff_decompress_ends (freq := countBytes data) (payload := payload) hl
    (length_countBytes data) (sum_countBytes data).symm hne hlt hfit (fun _ => mem_syms_count data) (hdeclared ▸ hsmall)
    (hdeclared ▸ hlen) (hdeclared ▸ hin) (.inr ⟨[], hdeclared ▸ hcodes⟩)
  exact ⟨v, hv, hdelivers, hbitPos.trans (hdeclared.symm.trans hpayloadBits.symm)⟩

/-- Settles O55: the decoder reads back the frequency table of the input, so it walks the encoder's own codes, all of them. -/
theorem huffRoundTrip : Obligations.HuffRoundTrip := by
  unfold Obligations.HuffRoundTrip
  intro s t u hs hcap hexec hdone hu hin hfit
  by_cases hn : s.inLen.toNat = 0
  · obtain ⟨v, hv, hvdone, hresult⟩ := roundTrip_empty rfl (dec := .huffDecompress) rfl hs hn hexec hu hin
    exact ⟨v, hv, hvdone, hresult, fun h => absurd (BitVec.eq_of_toNat_eq hn) h⟩
  · obtain ⟨payload, pad, t', hexec', hlen, hbits, hdelivered⟩ := huff_compress_delivers hs hn
    obtain rfl := Host.Outcome.next.inj (hexec'.symm.trans hexec)
    obtain ⟨hroom, hdelivers⟩ := hdelivered hdone
    rw [hdelivers.result (by omega)] at hin
    have hne : s.input ≠ [] := List.ne_nil_of_length_pos (by rw [length_input]; exact Nat.pos_of_ne_zero hn)
    obtain ⟨v, hv, hdelivers', hbitPos⟩ :=
      huff_decompress_delivers hu hne (length_input_lt s) (by rwa [length_input]) hlen hbits hin
    exact ⟨v, hv, hdelivers'.1, hdelivers'.result (length_input_lt s), fun _ => hbitPos⟩

end Sys2Proof.Machine
end

section
/-! The phases of `HUFF_COMPRESS` up to the packer: what the counter counts, what the tree builder and the code table generator leave, and
what the header writer appends (41_huffman_encoder.md R151 to R164); then where the command ends (R168, R169). -/

namespace Sys2Proof.Machine

/-! ## The frequency counter -/

/-- The entry of a byte value in the table of an input (R152). -/
theorem getElem?_countBytes (data : List Byte) (b : Byte) : (countBytes data)[b.toNat]? = some (data.count b) := by
  have hlt : b.toNat < (countBytes data).length := by
    rw [length_countBytes]
    exact byte_lt b
  rw [← getD_countBytes, List.getD_eq_getElem?_getD, List.getElem?_eq_getElem hlt, Option.getD_some]

/-- Settles O46: the step is the frequency phase, whose table counts the bytes of `IN[0 .. N-1]`. -/
theorem frequencyPassCountsTheInput : Obligations.FrequencyPassCountsTheInput := by
  unfold Obligations.FrequencyPassCountsTheInput
  intro s hready hphase
  refine ⟨_, step_engine hready, ?_⟩
  rw [engineStep_hFreq hphase]
  exact ⟨rfl, length_countBytes s.data, getElem?_countBytes s.data, (sum_countBytes s.data).trans (length_data s)⟩

/-! ## The merge step -/

/-- What `popmin()` hands out comes before all the others, and they are what is left (R156). -/
theorem popMin_first {node : List Node} {alive rest : List Nat} {i : Nat} (h : popMin node alive = some (i, rest)) :
    rest = alive.erase i ∧ ∀ j ∈ alive, j ≠ i → Prec node i j := by
  have hne : alive ≠ [] := by
    rintro rfl
    simp [popMin, firstAlive] at h
  obtain ⟨k, -, hk, hfirst⟩ := popMin_spec (node := node) hne
  obtain ⟨rfl, rfl⟩ := Prod.mk.inj (Option.some.inj (hk.symm.trans h))
  exact ⟨rfl, hfirst⟩

/-- The children of a new node are the two that were popped, in that order (R157). -/
theorem popMin_of_mergeStep {node : List Node} {alive rest : List Nat} {f a b : Nat}
    (h : mergeStep node alive = some (node ++ [.internal f a b], rest)) :
    ∃ alive₁ alive₂, popMin node alive = some (a, alive₁) ∧ popMin node alive₁ = some (b, alive₂) := by
  unfold mergeStep at h
  split at h
  · cases h
  · rename_i a' alive₁ hpop₁
    split at h
    · cases h
    · rename_i b' alive₂ hpop₂
      simp only [Option.some.injEq, Prod.mk.injEq, List.append_cancel_left_eq, List.cons.injEq, Node.internal.injEq] at h
      obtain ⟨⟨⟨-, rfl, rfl⟩, -⟩, -⟩ := h
      exact ⟨alive₁, alive₂, hpop₁, hpop₂⟩

/-- Settles O47: the second node is popped from what the first has left. -/
theorem mergeTakesTheTwoLowestNodes : Obligations.MergeTakesTheTwoLowestNodes := by
  unfold Obligations.MergeTakesTheTwoLowestNodes
  intro node alive hnodup htwo
  obtain ⟨a, ha, b, hb, hne, hmerge⟩ := mergeStep_takes node alive hnodup htwo
  obtain ⟨alive₁, alive₂, hpop₁, hpop₂⟩ := popMin_of_mergeStep hmerge
  obtain ⟨rfl, hfirst⟩ := popMin_first hpop₁
  obtain ⟨-, hsecond⟩ := popMin_first hpop₂
  exact ⟨a, b, ha, hb, hne, hfirst, fun i hi hia hib => hsecond i ((List.mem_erase_of_ne hia).2 hi) hib, hmerge⟩

/-! ## The tree -/

theorem length_leavesOf (freq : List Nat) : (leavesOf freq).length = (occurring freq).length := List.length_map _

/-- Leaf `i` is seeded from the `i`-th byte value that occurs (R155). -/
theorem occurring_of_leaf {freq : List Nat} {i : Nat} {sym : Byte} {f : Nat} (h : (leavesOf freq)[i]? = some (.leaf sym f)) :
    (occurring freq)[i]? = some (sym, f) := by
  rw [leavesOf, List.getElem?_map] at h
  obtain ⟨⟨b, g⟩, hocc, hleaf⟩ := Option.map_eq_some_iff.1 h
  cases hleaf
  exact hocc

theorem sum_nodeF_leavesOf (freq : List Nat) : ((leavesOf freq).map nodeF).sum = freq.sum := by
  rw [leavesOf, List.map_map]
  exact sum_occFrom 0 freq

/-- A leaf of a tree over the leaves of a table: its place, its byte value and its frequency (R155). -/
theorem Forest.leaf_freq {freq : List Nat} {node : List Node} {alive : List Nat} (h : Forest (leavesOf freq) node alive)
    (hlen : freq.length = 256) {i : Nat} {sym : Byte} {f : Nat} (hi : node[i]? = some (.leaf sym f)) :
    i < (occurring freq).length ∧ 0 < f ∧ freq[sym.toNat]? = some f ∧
      i = ((freq.take sym.toNat).filter (fun f => 0 < f)).length := by
  obtain ⟨hlt, hleaf⟩ := h.of_leaf hi
  have hocc := occurring_of_leaf hleaf
  obtain ⟨hfreq, hpos⟩ := (mem_occurring hlen).1 (List.mem_of_getElem? hocc)
  exact ⟨length_leavesOf freq ▸ hlt, hpos, hfreq, occurring_index hlen hocc⟩

/-- A node that is not alive has exactly one parent (R159). -/
theorem Forest.existsUnique_parent {leaves node : List Node} {alive : List Nat} (h : Forest leaves node alive) {i : Nat}
    (hi : i < node.length) (hdead : i ∉ alive) : ∃! j, Parent node j i := by
  obtain ⟨j, hj⟩ := h.taken i hi hdead
  exact ⟨j, hj, fun j' hj' => h.once i j' j hj' hj⟩

/-- The step of the tree builder, the same in both commands (R154 to R158, R195). -/
theorem step_build {s : State} {next : Phase} (hready : s.engineReady)
    (hphase : s.phase = .hBuild ∧ next = .hCodes ∨ s.phase = .dBuild ∧ next = .dCodes) :
    step s = .next { s with huff := buildTree s.huff, phase := next } := by
  rw [step_engine hready]
  obtain ⟨hphase, rfl⟩ | ⟨hphase, rfl⟩ := hphase
  · rw [engineStep_hBuild hphase]
  · rw [engineStep_dBuild hphase]

/-- Settles O48: the merge loop's invariant `Forest` stands when one node is alive. -/
theorem treeBuilderInvariants : Obligations.TreeBuilderInvariants := by
  unfold Obligations.TreeBuilderInvariants
  intro s next hready hphase hlen hsum
  refine ⟨_, step_build hready hphase, rfl, ?_⟩
  obtain ⟨node, hbuild, hforest, -⟩ := buildTree_spec s.huff hsum
  have hcount := hforest.count
  have htotal := hforest.total
  have hk := occurring_pos hsum
  rw [length_leavesOf, List.length_singleton] at hcount
  rw [sum_nodeF_leavesOf, List.map_singleton, List.sum_singleton] at htotal
  have hncount : node.length = 2 * (occurring s.huff.freq).length - 1 := by omega
  rw [hbuild]
  exact ⟨length_occurring _, hk, occurring_le hlen, rfl, hncount, rfl, rfl, htotal, fun i sym f hi => hforest.leaf_freq hlen hi,
    fun i f l r hi => length_leavesOf s.huff.freq ▸ hforest.of_internal hi,
    fun i hi hroot => hforest.existsUnique_parent hi (fun h => hroot (List.mem_singleton.1 h))⟩

/-! ## The code table -/

/-- A code has at most 255 bits (R159 (f)). -/
theorem PrefixCode.length_le {node : List Node} {root k : Nat} {syms : List Byte} {code : List (List Bool)}
    (h : PrefixCode node root k syms code) (b : Byte) : (codeOf code b).length ≤ 255 := by
  by_cases hb : b ∈ syms
  · exact (h.some_of b hb).2
  · simp [h.none_of b hb]

/-- The byte values that have a code are the symbols (R162). -/
theorem PrefixCode.ne_nil_iff {node : List Node} {root k : Nat} {syms : List Byte} {code : List (List Bool)}
    (h : PrefixCode node root k syms code) (b : Byte) : codeOf code b ≠ [] ↔ b ∈ syms :=
  ⟨fun hne => by_contra fun hb => hne (h.none_of b hb), fun hb => (h.some_of b hb).1⟩

/-- The code of a single symbol (R161). -/
theorem PrefixCode.single {node : List Node} {root k : Nat} {syms : List Byte} {code : List (List Bool)}
    (h : PrefixCode node root k syms code) (hk : k = 1) {b : Byte} (hb : b ∈ syms) : codeOf code b = [false] := by
  obtain ⟨x, f, rfl, -, hcode⟩ := h.one hk
  rwa [List.mem_singleton.1 hb]

/-- The step of the code table generator (R160 to R163). -/
theorem step_hCodes {s : State} (hready : s.engineReady) (hphase : s.phase = .hCodes) :
    step s = .next { s with huff := genCodes s.huff, phase := .hHeader } := by
  rw [step_engine hready, engineStep_hCodes hphase]

/-- Settles O49: the two steps leave `codesOf` the frequency table, whose symbols are the byte values that occur. -/
theorem codeTableIsAPrefixCode : Obligations.CodeTableIsAPrefixCode := by
  unfold Obligations.CodeTableIsAPrefixCode
  intro s hready hphase hlen hsum
  obtain ⟨hk, hcode⟩ := codesOf_spec hlen hsum
  have hsyms := mem_syms hlen
  refine ⟨_, _, step_build hready (.inl ⟨hphase, rfl⟩), step_hCodes hready rfl, rfl, ?_⟩
  rw [genCodes_buildTree]
  exact ⟨hcode.size, fun b => (hcode.ne_nil_iff b).trans (hsyms b), hcode.length_le,
    fun b b' hne hb hb' => hcode.prefix_free ((hcode.ne_nil_iff b).1 hb) ((hcode.ne_nil_iff b').1 hb') hne,
    fun hmany b hb => hcode.many (hk ▸ hmany) b ((hsyms b).2 hb),
    fun hone b hb => hcode.single (hk.symm.trans hone) ((hsyms b).2 hb),
    payloadLength_range _ _ hlen hcode.size⟩

/-! ## The header -/

/-- The header writer's step where `OUT` has room for the header (R164). -/
theorem engineStep_hHeader_ok {s : State} {bytes : List Byte} (hphase : s.phase = .hHeader) (hheader : huffHeader s = bytes)
    (hroom : s.outPos + bytes.length ≤ s.params.outCap) : engineStep s = { putAll bytes s with phase := .hPack } := by
  rw [engineStep_hHeader hphase, hheader, emitAll_ok hroom, Run.going_andThen, Run.state_going]

/-- Settles O50: the bytes written out by byte value are the header's, and the step appends it. -/
theorem headerWriterEmitsTheHeader : Obligations.HeaderWriterEmitsTheHeader := by
  unfold Obligations.HeaderWriterEmitsTheHeader
  intro s bytes hready hphase hlen hbytes hroom
  have hheader : huffHeader s = bytes := (huffHeader_eq s hlen).trans hbytes.symm
  refine ⟨_, step_engine hready, ?_⟩
  rw [engineStep_hHeader_ok hphase hheader hroom]
  exact ⟨rfl, putAll_frame bytes s⟩

/-! ## The end of the command -/

/-- Settles O52: at most 256 entries and 255 bits for each byte, so the header and the payload are within the bound. -/
theorem huffCompressCompletes : Obligations.HuffCompressCompletes := by
  unfold Obligations.HuffCompressCompletes
  intro s hl hcap hne hbound
  have hn : s.inLen.toNat ≠ 0 := fun h => hne (BitVec.eq_of_toNat_eq h)
  have hinput : s.input ≠ [] := List.ne_nil_of_length_pos (by rw [length_input]; exact Nat.pos_of_ne_zero hn)
  have hsum : 0 < (countBytes s.input).sum := by
    rw [sum_countBytes]
    exact List.length_pos_iff.2 hinput
  have hk := occurring_pos hsum
  have hk' := occurring_le (length_countBytes s.input)
  obtain ⟨hlow, hhigh⟩ : s.input.length ≤ (codedBits s.input).length ∧ (codedBits s.input).length ≤ 255 * s.input.length :=
    coded_length s.input hinput
  rw [length_input] at hlow hhigh
  have hhdr := length_headerOf s.input
  obtain ⟨payload, t, hexec, hlen, -, hfits, -⟩ := huff_compress_ends hl hn
  obtain ⟨⟨hdone, herr, -, -, houtLen⟩, htk, htsum, httotal⟩ := hfits (by omega)
  refine ⟨t, hexec, hdone, herr, ?_, httotal.trans htsum.symm, by omega, by omega, by omega, by omega⟩
  rw [houtLen, List.length_append, BitVec.toNat_ofNat, Nat.mod_eq_of_lt (by omega), hhdr, hlen, htk, htsum]

end Sys2Proof.Machine
end

section
/-! `HUFF_DECOMPRESS` (42_huffman_decoder.md R190 to R202): the header's units and the checks before the walk, what the command delivers
from the launch on, and a stream whose walk ends early. -/

namespace Sys2Proof.Machine

/-! ## The fixed header -/

theorem exec_huffHdr (o : BitVec 32) (p : BitVec 64) (k : BitVec 16) (s : State) :
    exec (.huffHdr o p k) s = .next (huffHdrRun o p k s).state := rfl

/-- A header whose symbol count is in range, on a stream that is long enough for the entries (R192). -/
theorem huffHdrRun_ok {o : BitVec 32} {p : BitVec 64} {k : BitVec 16} {s : State} (hlow : 1 ≤ k.toNat) (hhigh : k.toNat ≤ 256)
    (hn : 14 + 5 * k.toNat ≤ s.n) :
    huffHdrRun o p k s = .going { s with
      inPos := 14
      huff := { s.huff with
        origLen := o.toNat, payloadBits := p.toNat, k := k.toNat, hdrLen := 14 + 5 * k.toNat
        freq := List.replicate 256 0, prev := none } } := by
  have hrange : ¬ (k.toNat = 0 ∨ 256 < k.toNat) := by omega
  simp only [huffHdrRun, if_neg hrange, if_neg (Nat.not_lt.2 hn)]

/-- Any other header, whatever it has put in its registers by then (R192). -/
theorem huffHdrRun_corrupt {o : BitVec 32} {p : BitVec 64} {k : BitVec 16} {s : State}
    (h : k.toNat = 0 ∨ 256 < k.toNat ∨ s.n < 14 + 5 * k.toNat) :
    ∃ w, huffHdrRun o p k s = fail .corruptHeader w ∧ w.out = s.out := by
  by_cases hrange : k.toNat = 0 ∨ 256 < k.toNat
  · exact ⟨_, if_pos hrange, rfl⟩
  · have hn : s.n < 14 + 5 * k.toNat := by omega
    exact ⟨_, (if_neg hrange).trans (if_pos hn), rfl⟩

/-- Fewer bytes than the fixed header has hold none (R192). -/
theorem decode_huffHdr_short {bs : List Byte} (h : bs.length < 14) : decode .huffHdr bs = .error .corruptHeader := by
  cases hd : decode .huffHdr bs with
  | error e => rw [List.mem_singleton.1 (decode_rejects hd)]
  | ok r =>
    obtain ⟨o, p, k, -, rfl⟩ := decodeHuffHdr_ok hd
    simp only [u32le, u64le, u16le, List.length_append, List.length_cons, List.length_nil] at h
    omega

/-- Settles O43: the range of the symbol count, then the room for the entries; a shorter stream has no header to decode. -/
theorem huffHeaderIsReadAndChecked : Obligations.HuffHeaderIsReadAndChecked := by
  unfold Obligations.HuffHeaderIsReadAndChecked
  refine ⟨fun s o p k hlow hhigh hn => ?_, fun s o p k h => ?_, fun s hready hphase h0 hn => ?_⟩
  · rw [exec_huffHdr, huffHdrRun_ok hlow hhigh hn, Run.state_going]
  · obtain ⟨w, hw, hout⟩ := huffHdrRun_corrupt (o := o) (p := p) h
    exact ⟨raise .corruptHeader w, by rw [exec_huffHdr, hw]; rfl, rfl, rfl, rfl, hout⟩
  · have hboundary : s.boundary = some .huffHdr := by simp only [State.boundary, hphase, if_pos h0]
    exact step_reject hready hboundary (by decide) (decode_huffHdr_short (by rw [length_unread]; omega))

/-! ## The symbol entries -/

theorem exec_huffSym (sym : Byte) (f : BitVec 32) (s : State) : exec (.huffSym sym f) s = .next (huffSymRun sym f s).state := rfl

theorem inOrder_iff {prev : Option Byte} {sym : Byte} :
    inOrder prev sym = true ↔ ∀ p, prev = some p → p.toNat < sym.toNat := by
  cases prev <;> simp [inOrder]

theorem inOrder_eq_false_iff {prev : Option Byte} {sym : Byte} :
    inOrder prev sym = false ↔ ∃ p, prev = some p ∧ sym.toNat ≤ p.toNat := by
  cases prev <;> simp [inOrder]

/-- An entry above the last one, with a frequency, is put in the table (R193). -/
theorem huffSymRun_ok {sym : Byte} {f : BitVec 32} {s : State} (horder : inOrder s.huff.prev sym = true) (hf : f.toNat ≠ 0) :
    huffSymRun sym f s = .going { s with
      inPos := s.inPos + 5
      huff := { s.huff with freq := s.huff.freq.set sym.toNat f.toNat, prev := some sym } } := by
  rw [huffSymRun, horder, if_neg (by decide), if_neg hf]

/-- Any other entry is rejected before it is put anywhere (R193). -/
theorem huffSymRun_corrupt {sym : Byte} {f : BitVec 32} {s : State} (h : inOrder s.huff.prev sym = false ∨ f.toNat = 0) :
    huffSymRun sym f s = fail .corruptHeader s := by
  by_cases horder : inOrder s.huff.prev sym = false
  · exact if_pos horder
  · exact (if_neg horder).trans (if_pos (h.resolve_left horder))

/-- Settles O44: the order of the symbols is `inOrder`, and the two ways to fail it or the frequency exclude the good entry. -/
theorem huffSymbolEntryIsReadAndChecked : Obligations.HuffSymbolEntryIsReadAndChecked := by
  unfold Obligations.HuffSymbolEntryIsReadAndChecked
  intro s sym f
  refine ⟨fun hprev hf => ?_, fun h => ?_⟩
  · rw [exec_huffSym, huffSymRun_ok (inOrder_iff.2 hprev) hf, Run.state_going]
  · rw [exec_huffSym, huffSymRun_corrupt (h.imp_left inOrder_eq_false_iff.2)]
    rfl

/-! ## The checks before the walk -/

/-- Settles O45: each check is a branch of the phase at whose end it stands, the first that fails before the others. -/
theorem huffDecoderChecksBeforeTheWalk : Obligations.HuffDecoderChecksBeforeTheWalk := by
  unfold Obligations.HuffDecoderChecksBeforeTheWalk
  intro s hready
  refine ⟨fun hphase h0 hlen => ?_, fun hphase => ?_⟩
  · rw [step_engine hready, engineStep_dHeaderEnd hphase h0 hlen, dHeaderEnd]
    exact ⟨fun hsum => by rw [if_neg (not_not.2 hsum), Run.state_going], fun hsum => by rw [if_pos hsum]; rfl⟩
  · rw [step_engine hready, engineStep_dCheck hphase, dCheckPhase, ceil8]
    refine ⟨fun h => ?_, fun hbits hlen => ⟨fun hcap => ?_, fun hcap => ?_⟩⟩
    · by_cases hbits : s.huff.bitsSum ≠ s.huff.payloadBits
      · rw [if_pos hbits]
        rfl
      · rw [if_neg hbits, if_pos (h.resolve_left hbits)]
        rfl
    · rw [if_neg (not_not.2 hbits), if_neg (Nat.not_lt.2 hlen), if_pos hcap]
      rfl
    · rw [if_neg (not_not.2 hbits), if_neg (Nat.not_lt.2 hlen), if_neg (Nat.not_lt.2 hcap), Run.state_going]

/-! ## What the command delivers -/

/-- The registers of the code table generator for a frequency table (R154, R160, R163, R195). -/
theorem genCodes_regsOf {freq : List Nat} (hf : freq.length = 256) (hs : 0 < freq.sum) :
    (genCodes (buildTree (regsOf freq))).k = (occurring freq).length ∧
      (genCodes (buildTree (regsOf freq))).bitsSum = payloadLength freq (codesOf freq) ∧
      (genCodes (buildTree (regsOf freq))).code = codesOf freq :=
  ⟨(codesOf_spec hf hs).1, rfl, rfl⟩

/-- The table of an input of one byte value has that value alone (R154). -/
theorem occurring_countBytes_replicate {len : Nat} (sym : Byte) (hlen : 1 ≤ len) :
    occurring (countBytes (List.replicate len sym)) = [(sym, len)] := by
  have hlen256 := length_countBytes (List.replicate len sym)
  have hmem : ∀ e, e ∈ occurring (countBytes (List.replicate len sym)) ↔ e ∈ [(sym, len)] := by
    rintro ⟨b, f⟩
    rw [mem_occurring hlen256, getElem?_countBytes, List.count_replicate, List.mem_singleton, Prod.mk.injEq]
    by_cases hb : sym = b
    · subst hb
      simp only [BEq.rfl, if_true, Option.some.injEq, true_and]
      omega
    · simp only [beq_iff_eq, hb, Ne.symm hb, if_false, Option.some.injEq, false_and, iff_false]
      omega
  exact List.perm_singleton.1
    ((List.perm_ext_iff_of_nodup (occurring_nodup hlen256).of_map (List.nodup_singleton _)).2 hmem)

/-- Its code is the one bit `0` for each byte (R161). -/
theorem length_codedBits_replicate {len : Nat} (sym : Byte) (hlen : 1 ≤ len) :
    (codedBits (List.replicate len sym)).length = len := by
  have hocc := occurring_countBytes_replicate sym hlen
  have hsum : 0 < (countBytes (List.replicate len sym)).sum := by rwa [sum_countBytes, List.length_replicate]
  obtain ⟨-, hcode⟩ := codesOf_spec (length_countBytes _) hsum
  have hbit : codeOf (codesOf (countBytes (List.replicate len sym))) sym = [false] :=
    hcode.single (by rw [hocc]; rfl) (by simp [hocc])
  simp [codedBits, List.flatMap_replicate, hbit]

/-- `HUFF_DECOMPRESS` on the header of one symbol delivers it `ORIG_LEN` times, whatever the bits of the payload are (R200). -/
theorem huff_decompress_single {s : State} {sym : Byte} {len : Nat} {payload : List Byte} (hl : s.launchable) (hlow : 1 ≤ len)
    (hhigh : len < 4294967296) (hcap : len ≤ s.params.outCap) (hlen : payload.length = ceil8 len)
    (hin : s.input = encode (.huffHdr (BitVec.ofNat 32 len) (BitVec.ofNat 64 len) 1) ++
      encode (.huffSym sym (BitVec.ofNat 32 len)) ++ payload) :
    ∃ t, exec .huffDecompress s = .next t ∧ Delivers t (List.replicate len sym) := by
  have hcount : (List.replicate len sym).length = len := List.length_replicate
  have hne : List.replicate len sym ≠ [] := List.ne_nil_of_length_pos (by rwa [hcount])
  have hocc := occurring_countBytes_replicate sym hlow
  have hbits : payloadLength (countBytes (List.replicate len sym)) (codesOf (countBytes (List.replicate len sym))) = len :=
    (payloadLength_codedBits hne (by rwa [hcount])).1.trans (length_codedBits_replicate sym hlow)
  have hone : (occurring (countBytes (List.replicate len sym))).length = 1 := by rw [hocc, List.length_singleton]
  obtain ⟨t, hexec, hdelivers, -⟩ := huff_decompress_ends (payload := payload) hl (length_countBytes (List.replicate len sym))
    (sum_countBytes _).symm hne (by rwa [hcount]) (by rwa [hcount]) (fun _ => mem_syms_count _) (by omega) (by rwa [hbits])
    (by rw [hbits, hone, hocc, hcount, hin, List.flatMap_singleton]; rfl) (.inl ⟨hone, by rw [hbits, hcount]⟩)
  exact ⟨t, hexec, hdelivers⟩

/-- Settles O54: the header gives the decoder the encoder's tree, and the walk follows the codes of the bytes to their leaves; a
single symbol's table is that of its own repetition. -/
theorem huffDecompressDeliversTheSymbols : Obligations.HuffDecompressDeliversTheSymbols := by
  unfold Obligations.HuffDecompressDeliversTheSymbols
  refine ⟨fun s freq h payload hl hf hlow hhigh hcap hregs hsmall hin => ?_,
    fun s sym len payload hl hlow hhigh hcap hlen hin => ?_⟩
  · obtain rfl : h = genCodes (buildTree (regsOf freq)) := hregs
    obtain ⟨hk, hbits, hcode⟩ := genCodes_regsOf hf hlow
    rw [hk, hbits] at hin
    rw [hbits] at hsmall
    rw [hbits, hcode]
    refine ⟨fun out rest hlen hout hsyms hprefix => ?_, fun hshort => huff_decompress_short hl hf hlow hhigh hsmall hshort hcap hin⟩
    rw [← hout] at hlow hhigh hcap hin
    obtain ⟨t, hexec, hdelivers, -⟩ := huff_decompress_ends hl hf hout (List.ne_nil_of_length_pos hlow) hhigh hcap
      (fun b hb => (mem_syms hf b).2 (hsyms b hb)) hsmall hlen hin (.inr ⟨rest, hprefix⟩)
    exact ⟨t, hexec, hdelivers.1, hdelivers.2.1, hdelivers.result hhigh⟩
  · obtain ⟨t, hexec, hdelivers⟩ := huff_decompress_single hl hlow hhigh hcap hlen hin
    exact ⟨t, hexec, hdelivers.1, hdelivers.2.1, hdelivers.result (by rwa [List.length_replicate])⟩

/-! ## A walk that ends early -/

/-- The header of the table `41`: 1, `42`: 1, `43`: 2, whose codes `10`, `11`, `0` declare 6 bits, and the payload `43 43 43 43`, which
has them all out after 4 (log 16). -/
def fourShortCodes : List Byte :=
  [0x04, 0, 0, 0, 6, 0, 0, 0, 0, 0, 0, 0, 3, 0, 0x41, 1, 0, 0, 0, 0x42, 1, 0, 0, 0, 0x43, 2, 0, 0, 0, 0x00]

/-- The machine after reset with that stream as its input. -/
def fourShortCodesMachine : State :=
  { State.reset with inp := Memory.writeAll [] 0 fourShortCodes, inLen := BitVec.ofNat 32 fourShortCodes.length }

/-- The command is done there at bit 4 of 6: the walk stops by count (R199). -/
theorem fourShortCodes_done : ∃ t, exec .huffDecompress fourShortCodesMachine = .next t ∧ t.status = .done ∧
    t.huff.bitPos = 4 ∧ t.huff.payloadBits = 6 :=
  ⟨_, runCommand_of_launchable (c := 0x04) (s := fourShortCodesMachine) (by decide), by decide +kernel⟩

/-- Refutes O56: the stream `fourShortCodes` is accepted with two of its declared bits unread. -/
theorem not_acceptedWalksConsumeTheDeclaredBits : ¬ Obligations.AcceptedWalksConsumeTheDeclaredBits := by
  unfold Obligations.AcceptedWalksConsumeTheDeclaredBits
  intro h
  obtain ⟨t, hexec, hdone, hbitPos, hpayloadBits⟩ := fourShortCodes_done
  have hall := h fourShortCodesMachine t (by decide) hexec hdone (by decide)
  rw [hbitPos, hpayloadBits] at hall
  exact absurd hall (by decide)

end Sys2Proof.Machine
end

section
/-! `LZ77_COMPRESS` (43_lz77_encoder.md R220 to R229): the search and the emitter as steps of the machine, and the completion within the
bound of R362. -/

namespace Sys2Proof.Machine

/-! ## The search -/

/-- Settles O38: the step runs the search, whose scan keeps the first of the longest candidates. -/
theorem searchFindsTheLongestNearestMatch : Obligations.SearchFindsTheLongestNearestMatch := by
  unfold Obligations.SearchFindsTheLongestNearestMatch
  intro s hready hphase hn
  obtain ⟨htarget, hdist, hlen, hnext, hcopy, hlongest, hnearest⟩ :=
    search_spec s.data s.params.window s.params.lookahead s.inPos s.lz (by rw [length_data]; exact hn.le)
  refine ⟨_, step_engine hready, ?_⟩
  rw [engineStep_lSearch hphase hn]
  exact ⟨rfl, ⟨htarget, hdist, hlen, hnext, hcopy⟩, hlongest, hnearest⟩

/-! ## The token emitter -/

/-- A 16-bit field as the stream holds it, from the number it stands for (R110). -/
theorem u16le_ofNat (x : Nat) : u16le (BitVec.ofNat 16 x) = [BitVec.ofNat 8 x, BitVec.ofNat 8 (x / 256)] := by
  have hlow : (BitVec.ofNat 16 x).extractLsb' 0 8 = BitVec.ofNat 8 x := by
    apply BitVec.eq_of_toNat_eq
    simp only [BitVec.extractLsb'_toNat, BitVec.toNat_ofNat, Nat.shiftRight_zero]
    omega
  have hhigh : (BitVec.ofNat 16 x).extractLsb' 8 8 = BitVec.ofNat 8 (x / 256) := by
    apply BitVec.eq_of_toNat_eq
    simp only [BitVec.extractLsb'_toNat, BitVec.toNat_ofNat, Nat.shiftRight_eq_div_pow]
    omega
  rw [u16le, hlow, hhigh]

/-- A byte of the input, or the filler beyond its end (R227). -/
theorem data_getD_zero (s : State) (a : Nat) : s.data.getD a 0x00 = if a < s.n then s.inByte a else 0x00 := by
  rw [List.getD_eq_getElem?_getD]
  split
  next h => rw [data_getElem? s h, Option.getD_some]
  next h => rw [List.getElem?_eq_none (by rw [length_data]; omega), Option.getD_none]

/-- A match of at least `MIN_MATCH` is a six-byte token and covers the byte after it as well (R225, R227). -/
theorem tokenAt_match {s : State} (h : s.params.minMatch ≤ s.lz.bestLen) :
    encode (tokenAt s).1 = [0x01, BitVec.ofNat 8 s.lz.bestDist, BitVec.ofNat 8 (s.lz.bestDist / 256),
      BitVec.ofNat 8 s.lz.bestLen, BitVec.ofNat 8 (s.lz.bestLen / 256),
      if s.inPos + s.lz.bestLen < s.n then s.inByte (s.inPos + s.lz.bestLen) else 0x00] ∧
    (tokenAt s).2 = s.lz.bestLen + 1 := by
  rw [tokenAt, if_pos h, encode, u16le_ofNat, u16le_ofNat, matchNext, data_getD_zero]
  exact ⟨rfl, rfl⟩

/-- Anything shorter is a literal token of the byte at `IN_POS` (R226). -/
theorem tokenAt_literal {s : State} (h : s.lz.bestLen < s.params.minMatch) (hn : s.inPos < s.n) :
    encode (tokenAt s).1 = [0x00, s.inByte s.inPos] ∧ (tokenAt s).2 = 1 := by
  rw [tokenAt, if_neg (Nat.not_le.2 h), encode, data_getD_zero, if_pos hn]
  exact ⟨rfl, rfl⟩

/-- Settles O39: both tokens written out are the emitter's, and the step appends the token or overflows. -/
theorem tokenEmitterWritesTheToken : Obligations.TokenEmitterWritesTheToken := by
  unfold Obligations.TokenEmitterWritesTheToken
  intro s bytes next hready hphase hn _ hcase
  obtain ⟨rfl, rfl⟩ : bytes = encode (tokenAt s).1 ∧ next = s.inPos + (tokenAt s).2 := by
    rcases hcase with ⟨hm, rfl, rfl⟩ | ⟨hm, rfl, rfl⟩
    · obtain ⟨hbytes, hadvance⟩ := tokenAt_match hm
      exact ⟨hbytes.symm, by rw [hadvance, Nat.add_assoc]⟩
    · obtain ⟨hbytes, hadvance⟩ := tokenAt_literal hm hn
      exact ⟨hbytes.symm, by rw [hadvance]⟩
  refine ⟨fun hroom => ⟨_, step_engine hready, ?_⟩, fun hcap hfull => ⟨_, step_engine hready, ?_⟩⟩
  · rw [engineStep_lEmit hphase, emitAll_ok hroom]
    exact ⟨rfl, putAll_frame (encode (tokenAt s).1) s⟩
  · rw [engineStep_lEmit hphase, emitAll_full hcap hfull]
    exact ⟨rfl, rfl, rfl, rfl⟩

/-! ## The end of the command -/

/-- The header's step where `OUT` holds its four bytes (R221). -/
theorem engineStep_lHeader_ok {s : State} {target : BitVec 32} (hphase : s.phase = .lHeader) (ht : s.n = target.toNat)
    (hroom : s.outPos + 4 ≤ s.params.outCap) :
    engineStep s = { putAll (encode (.lz77Hdr target)) s with phase := .lSearch } := by
  rw [engineStep_lHeader hphase, ht, BitVec.ofNat_toNat, BitVec.setWidth_eq, emitAll_ok hroom]
  rfl

/-- With room for a header and for the bound on the tokens, `LZ77_COMPRESS` completes and delivers no more than these (R229). -/
theorem lz77_compress_within_bound {s : State} (hl : s.launchable) (hp : s.params.ok) (hn : s.inLen.toNat ≠ 0)
    (hroom : 4 + tokenBound s.params.minMatch s.inLen.toNat ≤ s.params.outCap) :
    ∃ t bytes, exec .lz77Compress s = .next t ∧ Delivers t bytes ∧
      bytes.length ≤ 4 + tokenBound s.params.minMatch s.inLen.toNat := by
  obtain ⟨-, -, -, -, -, hwindow, -, hmatch, -⟩ := hp
  have hstep := engineStep_lHeader_ok (s := { launch 0x01 s with phase := .lHeader }) (target := s.inLen) rfl rfl
    (by change 0 + 4 ≤ s.params.outCap; omega)
  obtain ⟨tokens, -, -, t, hends, hlen, hdelivers, hdone⟩ := lz77_compress_ends s.inLen.toNat
    (s := { putAll (encode (.lz77Hdr s.inLen)) { launch 0x01 s with phase := .lHeader } with phase := .lSearch })
    (done := encode (.lz77Hdr s.inLen)) le_rfl rfl rfl rfl ((wrote_launch 0x01 s).putAll (encode (.lz77Hdr s.inLen)))
    (by change 4 ≤ s.params.outCap; omega) hwindow hmatch
  have hdone := hdone hroom
  obtain hlen | ⟨hnot, -⟩ := hlen
  · refine ⟨t, _, exec_command_ends (c := 0x01) rfl rfl hl hn (Ends.step rfl (hstep ▸ hends)), (hdelivers hdone).2, ?_⟩
    rw [List.length_append]
    exact Nat.add_le_add_left hlen 4
  · exact absurd hdone hnot

/-- `tokenBound` is R362's bound without the header. -/
theorem tokenBound_le (minMatch n : Nat) : 4 + tokenBound minMatch n ≤
    if 3 ≤ minMatch then 4 + 2 * n else if minMatch = 2 then 4 + 2 * n + 2 else 4 + 3 * n + 3 := by
  unfold tokenBound
  split_ifs <;> omega

/-- Settles O40: an empty input is done without output; on any other, each byte of the input pays for its share of the tokens. -/
theorem lz77CompressCompletes : Obligations.Lz77CompressCompletes := by
  unfold Obligations.Lz77CompressCompletes
  intro s bound hl hp hbound hroom
  by_cases hn : s.inLen.toNat = 0
  · obtain ⟨c, -, hexec⟩ := exec_command_empty (i := .lz77Compress) rfl hl hn
    exact ⟨finish (launch c s), hexec, rfl, rfl, Nat.zero_le bound⟩
  · have htokens : 4 + tokenBound s.params.minMatch s.inLen.toNat ≤ bound := hbound ▸ tokenBound_le _ _
    obtain ⟨t, bytes, hexec, ⟨hdone, herr, -, -, houtLen⟩, hlen⟩ := lz77_compress_within_bound hl hp hn (htokens.trans hroom)
    refine ⟨t, hexec, hdone, herr, ?_⟩
    rw [houtLen]
    exact (toNat_ofNat_le bytes.length).trans (hlen.trans htokens)

end Sys2Proof.Machine
end

section
/-! `LZ77_DECOMPRESS` (44_lz77_decoder.md R250 to R261): what a match appends and its checks, where the token reader ends and what it
rejects, the header, and the literal. -/

namespace Sys2Proof.Machine

/-! ## The match -/

/-- Settles O35: the loop's bytes stand at their cyclic sources, and what is appended is these bytes with the literal, where it follows,
after them. -/
theorem lz77MatchCopiesThenAppends : Obligations.Lz77MatchCopiesThenAppends := by
  unfold Obligations.Lz77MatchCopiesThenAppends
  intro s d l nx extra hlow hdist hlen hcap hextra
  obtain ⟨copied, hcount, hsource, hrun⟩ := unitRun_match (nx := nx) hlow hdist hlen hcap
  obtain ⟨tail, htail, htailLen, hnext⟩ : ∃ tail : List Byte,
      (if s.outPos + l.toNat < s.lz.target then [nx] else []) = tail ∧ tail.length = extra ∧ (extra = 1 → tail[0]? = some nx) := by
    by_cases hbelow : s.outPos + l.toNat < s.lz.target
    · exact ⟨[nx], if_pos hbelow, by rw [hextra, if_pos hbelow]; rfl, fun _ => rfl⟩
    · exact ⟨[], if_neg hbelow, by rw [hextra, if_neg hbelow]; rfl, fun hone => by simp [hextra, hbelow] at hone⟩
  rw [htail] at hrun
  obtain ⟨happended, hkept⟩ := putAll_frame (copied ++ tail) s
  have hlength : (copied ++ tail).length = l.toNat + extra := by rw [List.length_append, hcount, htailLen]
  rw [hlength] at happended hkept
  rw [exec_unit (by simp [Instr.ctx]), hrun, Run.state_going]
  refine ⟨_, rfl, ?_, fun i hi => ?_, fun hone => ?_, fun a ha => hkept a (by omega)⟩
  · rw [putAll, hlength, Nat.add_assoc]
  · have hbyte := happended i (by omega)
    rw [List.getElem?_append_left (by omega), hsource i hi] at hbyte
    exact Option.some.inj hbyte
  · have hbyte := happended l.toNat (by omega)
    rw [List.getElem?_append_right (by omega), hcount, Nat.sub_self, hnext hone] at hbyte
    exact Option.some.inj hbyte

/-! ## The checks of a match -/

theorem exec_lz77Match (d l : BitVec 16) (nx : Byte) (s : State) :
    exec (.lz77Match d l nx) s = .next (lz77MatchRun d l nx s).state := rfl

/-- The distance check comes first (R257). -/
theorem lz77MatchRun_invalidDistance {d : BitVec 16} (l : BitVec 16) (nx : Byte) {s : State}
    (h : d.toNat = 0 ∨ s.outPos < d.toNat) :
    ∃ w, lz77MatchRun d l nx s = fail .invalidDistance w ∧ w.out = s.out :=
  ⟨_, if_pos h, rfl⟩

/-- A legal distance, then a length beyond the target (R258). -/
theorem lz77MatchRun_invalidLength {d l : BitVec 16} (nx : Byte) {s : State} (hlow : 1 ≤ d.toNat) (hdist : d.toNat ≤ s.outPos)
    (h : s.lz.target < s.outPos + l.toNat) :
    ∃ w, lz77MatchRun d l nx s = fail .invalidMatchLength w ∧ w.out = s.out :=
  have hlegal : ¬ (d.toNat = 0 ∨ s.outPos < d.toNat) := by omega
  ⟨_, (if_neg hlegal).trans (if_pos h), rfl⟩

/-- A match whose check fails takes the error and writes no byte (R322). -/
theorem exec_lz77Match_rejected {d l : BitVec 16} {nx : Byte} {s : State} {e : ErrKind}
    (h : ∃ w, lz77MatchRun d l nx s = fail e w ∧ w.out = s.out) :
    ∃ t, exec (.lz77Match d l nx) s = .next t ∧ t.status = .error ∧ t.err = some e ∧ t.outLen = 0 ∧
      t.phase = .endErr ∧ t.out = s.out := by
  obtain ⟨w, hw, hout⟩ := h
  exact ⟨raise e w, by rw [exec_lz77Match, hw]; rfl, rfl, rfl, rfl, rfl, hout⟩

/-- Settles O36: either check fails before the copy, and the length is checked only where the distance is legal. -/
theorem lz77MatchChecksItsFields : Obligations.Lz77MatchChecksItsFields := by
  unfold Obligations.Lz77MatchChecksItsFields
  exact fun s d l nx => ⟨fun h => exec_lz77Match_rejected (lz77MatchRun_invalidDistance l nx h),
    fun hlow hdist h => exec_lz77Match_rejected (lz77MatchRun_invalidLength nx hlow hdist h)⟩

/-! ## The token reader -/

/-- No flag byte, a literal without its byte, or a match without its five (R254, R255, R256). -/
theorem decode_lz77Tok_truncated {bs : List Byte} (h : bs = [] ∨ bs = [0x00] ∨ ∃ r, bs = 0x01 :: r ∧ r.length < 5) :
    decode .lz77Tok bs = .error .truncatedStream := by
  rcases h with rfl | rfl | ⟨r, rfl, hr⟩
  · rfl
  · rfl
  · have hmatch : (0x01 : Byte) ≠ 0x00 := by decide
    simp only [decode, decodeLz77Tok, if_neg hmatch, if_true]
    split
    next => simp only [List.length_cons] at hr; omega
    next => rfl

/-- A flag byte that is neither a literal's nor a match's (R254). -/
theorem decode_lz77Tok_invalidFlag {f : Byte} (r : List Byte) (h : 2 ≤ f.toNat) :
    decode .lz77Tok (f :: r) = .error .invalidFlag := by
  have hliteral : f ≠ 0x00 := by rintro rfl; exact absurd h (by decide)
  have hmatch : f ≠ 0x01 := by rintro rfl; exact absurd h (by decide)
  simp only [decode, decodeLz77Tok, if_neg hliteral, if_neg hmatch]

/-- Settles O37: at the target the loop ends; below it the reader stands at a token, and what does not decode there is rejected. -/
theorem lz77ReaderEndsAndRejects : Obligations.Lz77ReaderEndsAndRejects := by
  unfold Obligations.Lz77ReaderEndsAndRejects
  intro s hready hphase
  have hboundary (hlt : s.outPos < s.lz.target) : s.boundary = some .lz77Tok := by
    simp only [State.boundary, hphase, if_pos hlt]
  refine ⟨fun hend => ?_, fun hlt h => ?_, fun hlt h => ?_⟩
  · rw [step_engine hready, engineStep_mToken_end hphase hend]
    rfl
  · exact step_reject hready (hboundary hlt) (by decide) (decode_lz77Tok_truncated h)
  · obtain ⟨f, r, hunread, hf⟩ := h
    exact step_reject hready (hboundary hlt) (by decide) (hunread ▸ decode_lz77Tok_invalidFlag r hf)

/-! ## The header -/

theorem exec_lz77Hdr (v : BitVec 32) (s : State) : exec (.lz77Hdr v) s = .next (lz77HdrRun v s).state := rfl

/-- Fewer bytes than the header has hold none (R251). -/
theorem decode_lz77Hdr_short {bs : List Byte} (h : bs.length < 4) : decode .lz77Hdr bs = .error .invalidHeader := by
  cases hd : decode .lz77Hdr bs with
  | error e => rw [List.mem_singleton.1 (decode_rejects hd)]
  | ok r =>
    obtain ⟨v, -, rfl⟩ := decodeLz77Hdr_ok hd
    simp only [u32le, List.length_append, List.length_cons, List.length_nil] at h
    omega

/-- Settles O33: the capacity check decides on the target, and a stream of fewer than four bytes has no header to decode. -/
theorem lz77HeaderSetsTheTarget : Obligations.Lz77HeaderSetsTheTarget := by
  unfold Obligations.Lz77HeaderSetsTheTarget
  refine ⟨fun s v hfit => ?_, fun s v hfull => ?_, fun s hready hphase hshort => ?_⟩
  · rw [exec_lz77Hdr, lz77HdrRun, if_neg (Nat.not_lt.2 hfit), Run.state_going]
  · rw [exec_lz77Hdr, lz77HdrRun, if_pos hfull]
    exact ⟨_, rfl, rfl, rfl, rfl, rfl⟩
  · have hboundary : s.boundary = some .lz77Hdr := by simp only [State.boundary, hphase]
    exact step_reject hready hboundary (by decide) (decode_lz77Hdr_short hshort)

/-! ## The literal -/

theorem exec_lz77Lit (b : Byte) (s : State) : exec (.lz77Lit b) s = .next (lz77LitRun b s).state := rfl

/-- Settles O34: the append of one byte, and the capacity test of `Emit` before it. -/
theorem lz77LitAppendsItsByte : Obligations.Lz77LitAppendsItsByte := by
  unfold Obligations.Lz77LitAppendsItsByte
  refine ⟨fun s b hroom => ?_, fun s b hfull => ?_⟩
  · rw [exec_lz77Lit, lz77LitRun, emit_ok hroom, Run.going_andThen, Run.state_going]
    exact ⟨_, rfl, rfl, outByte_putByte s b⟩
  · rw [exec_lz77Lit, lz77LitRun, emit_full hfull, Run.ended_andThen, Run.state_ended]
    rfl

end Sys2Proof.Machine
end

section
/-! `RLE_COMPRESS` (45_rle_codec.md R280 to R287): the completion within three bytes a byte of input, the run detector and the record
emitter as steps of the machine. -/

namespace Sys2Proof.Machine

/-! ## The end of the command -/

/-- Settles O30: an empty input is done without output; on any other, the records take at most three bytes for each byte of it. -/
theorem rleCompressCompletes : Obligations.RleCompressCompletes := by
  unfold Obligations.RleCompressCompletes
  intro s hl hroom
  by_cases hn : s.inLen.toNat = 0
  · obtain ⟨c, -, hexec⟩ := exec_command_empty (i := .rleCompress) rfl hl hn
    exact ⟨finish (launch c s), hexec, rfl, rfl, Nat.zero_le _⟩
  · obtain ⟨units, t, hexec, -, -, hbound, hdelivers, -⟩ := rle_compress_delivers hl hn
    obtain ⟨hdone, herr, -, -, houtLen⟩ := hdelivers (hbound.trans hroom)
    refine ⟨t, hexec, hdone, herr, ?_⟩
    rw [houtLen]
    exact (toNat_ofNat_le _).trans hbound

/-! ## The run detector -/

/-- What stands in the rest of the input from offset `a` on is the input's. -/
theorem inByte_of_getElem?_drop {s : State} {a j : Nat} {x : Byte} (h : (s.data.drop a)[j]? = some x) :
    s.inByte (a + j) = x := by
  rw [List.getElem?_drop] at h
  have hlt : a + j < s.n := by
    obtain ⟨hlt, -⟩ := List.getElem?_eq_some_iff.1 h
    rwa [length_data] at hlt
  rw [data_getElem? s hlt] at h
  exact Option.some.inj h

/-- The bytes after `IN_POS` that a run detected there covers: they are equal, and it stops only at the cap, at the end of the input or
at another byte (R281). -/
theorem leadingRun_data {s : State} {b : Byte} {cap r : Nat} (hn : s.inPos < s.n)
    (hr : leadingRun b (s.data.drop (s.inPos + 1)) cap = r) :
    r ≤ cap ∧ s.inPos + (r + 1) ≤ s.n ∧ (∀ j < r, s.inByte (s.inPos + (j + 1)) = b) ∧
      (r = cap ∨ s.inPos + (r + 1) = s.n ∨ s.inByte (s.inPos + (r + 1)) ≠ b) := by
  have hle := leadingRun_le b (s.data.drop (s.inPos + 1)) cap
  have hstops := leadingRun_stops b (s.data.drop (s.inPos + 1)) cap
  rw [hr, List.length_drop, length_data] at hle hstops
  refine ⟨by omega, by omega, fun j hj => ?_, ?_⟩
  · rw [Nat.add_comm j 1, ← Nat.add_assoc]
    exact inByte_of_getElem?_drop (leadingRun_eq b _ cap (hr ▸ hj))
  · rcases hstops with hcap | hend | ⟨x, hx, hne⟩
    · exact .inl hcap
    · exact .inr (.inl (by omega))
    · refine .inr (.inr ?_)
      rw [Nat.add_comm r 1, ← Nat.add_assoc, inByte_of_getElem?_drop hx]
      exact hne

/-- Settles O28: the run is the byte at `IN_POS` and those equal to it after it, up to 254 of them. -/
theorem runDetectorMeasuresTheRun : Obligations.RunDetectorMeasuresTheRun := by
  unfold Obligations.RunDetectorMeasuresTheRun
  intro s hready hphase hn
  refine ⟨_, step_engine hready, ?_⟩
  rw [engineStep_rRun hphase hn]
  obtain ⟨hcap, hend, hequal, hstops⟩ := leadingRun_data (b := s.inByte s.inPos) (cap := runCap - 1) hn rfl
  have hcap255 : runCap - 1 = 254 := rfl
  refine ⟨rfl, rfl, by dsimp only; omega, by dsimp only; omega, hend, fun j hj => ?_, ?_⟩
  · cases j with
    | zero => rfl
    | succ j => exact hequal j (Nat.lt_of_succ_lt_succ hj)
  · exact hstops.imp_left fun h => by dsimp only; omega

/-! ## The record emitter -/

/-- A short run of any other byte is written as it is (R282, R284). -/
theorem encode_runUnits_raw {b : Byte} {c : Nat} (hb : b ≠ escapeByte) (hlow : 1 ≤ c) (hhigh : c ≤ 3) :
    (runUnits b c).flatMap encode = List.replicate c b := by
  have hunits : runUnits b c = List.replicate c (.rleRaw b) := by
    by_cases h1 : c = 1
    · subst h1
      exact if_pos ⟨rfl, hb⟩
    · rw [runUnits, if_neg (fun h => h1 h.1), if_neg h1, if_pos ⟨hhigh, hb⟩]
  rw [hunits, List.flatMap_replicate]
  exact List.flatten_replicate_singleton

/-- One escape byte is an `ESCLIT` record (R283). -/
theorem encode_runUnits_esclit : (runUnits escapeByte 1).flatMap encode = [escapeByte, 0x00, escapeByte] := rfl

/-- A run of four or more, and two or more escape bytes, are a `RUN` record (R285). -/
theorem encode_runUnits_run {b : Byte} {c : Nat} (h : 4 ≤ c ∨ b = escapeByte ∧ 2 ≤ c) :
    (runUnits b c).flatMap encode = [escapeByte, BitVec.ofNat 8 c, b] := by
  have h1 : c ≠ 1 := by omega
  have h3 : ¬ (c ≤ 3 ∧ b ≠ escapeByte) := fun ⟨hc, hb⟩ => h.elim (by omega) (fun h => hb h.1)
  rw [runUnits, if_neg (fun h => h1 h.1), if_neg h1, if_neg h3]
  rfl

/-- Settles O29: the four forms are the bytes of the emitter's units, and the step appends them or overflows. -/
theorem runEmitterWritesTheRecord : Obligations.RunEmitterWritesTheRecord := by
  unfold Obligations.RunEmitterWritesTheRecord
  intro s b c bytes hready hphase hrle _ hform
  have hbytes : bytes = (runUnits b c).flatMap encode := by
    rcases hform with ⟨rfl, hb, rfl⟩ | ⟨rfl, rfl, rfl⟩ | ⟨hlow, hhigh, hb, rfl⟩ | ⟨hrun, rfl⟩
    · exact (encode_runUnits_raw hb le_rfl (by omega)).symm
    · exact encode_runUnits_esclit.symm
    · exact (encode_runUnits_raw hb (by omega) hhigh).symm
    · exact (encode_runUnits_run hrun).symm
  have hstep := engineStep_rEmit hphase (bytes := bytes) (by rw [hrle]; exact hbytes)
  refine ⟨fun hroom => ⟨_, step_engine hready, ?_⟩, fun hcap hfull => ⟨_, step_engine hready, ?_⟩⟩
  · rw [hstep, emitAll_ok hroom, Run.going_andThen, Run.state_going, putAll_rle, hrle]
    exact ⟨rfl, putAll_frame bytes s⟩
  · rw [hstep, emitAll_full hcap hfull]
    exact ⟨rfl, rfl, rfl, rfl⟩

end Sys2Proof.Machine
end

section
/-! `RLE_DECOMPRESS` (45_rle_codec.md R288 to R294): where the record reader runs a record and where it rejects one or ends, and what
each record appends. -/

namespace Sys2Proof.Machine

/-! ## The reader -/

/-- Below the end of the input the reader stands at a record (R288). -/
theorem boundary_sToken {s : State} (hphase : s.phase = .sToken) (hn : s.inPos < s.n) : s.boundary = some .rleRec := by
  simp only [State.boundary, hphase, if_pos hn]

/-- The step at a record of the stream runs its meaning. -/
theorem step_rleRec {s : State} {i : Instr} {rest : List Byte} (hready : s.engineReady) (hphase : s.phase = .sToken)
    (hn : s.inPos < s.n) (hunread : s.unread = encode i ++ rest) (hi : i.ctx = .rleRec) (hw : i.wf = true) :
    step s = exec i s :=
  step_unit hready (boundary_sToken hphase hn) (by decide) (by rw [hunread]; exact decode_encode_rle hi hw rest)

/-- An escape byte with fewer than two bytes after it (R290, R293). -/
theorem decode_rleRec_truncated {bs : List Byte} (h : bs = [0xFF] ∨ ∃ x, bs = [0xFF, x]) :
    decode .rleRec bs = .error .truncatedStream := by
  rcases h with rfl | ⟨x, rfl⟩ <;> rfl

/-- `FF 00` before any byte but `FF` (R291). -/
theorem decode_rleRec_invalidEscape {third : Byte} (rest : List Byte) (h : third ≠ 0xFF) :
    decode .rleRec (0xFF :: 0x00 :: third :: rest) = .error .invalidEscape :=
  if_neg h

/-- Settles O27: an escape byte short of its two others is rejected at the boundary, and the end of the input is the end of the loop. -/
theorem rleReaderEndsAndTruncates : Obligations.RleReaderEndsAndTruncates := by
  unfold Obligations.RleReaderEndsAndTruncates
  refine fun s hready hphase => ⟨fun h => ?_, fun hend => ?_⟩
  · have hn : s.inPos < s.n := by
      rcases h with h | ⟨x, h⟩ <;> exact inPos_lt_of_unread h
    exact step_reject hready (boundary_sToken hphase hn) (by decide) (decode_rleRec_truncated h)
  · rw [step_engine hready, engineStep_sToken_end hphase hend]
    rfl

/-! ## The records -/

/-- With room for what it stands for, a record appends that and advances by its own length. -/
theorem exec_rleRec {i : Instr} {s : State} (hi : i.ctx = .rleRec) (hroom : s.outPos + (rleExpand i).length ≤ s.params.outCap) :
    exec i s = .next { putAll (rleExpand i) s with inPos := s.inPos + (encode i).length } := by
  rw [exec_unit (by rw [hi]; decide), unitRun_rle hi hroom, Run.state_going]

/-- Settles O24: the reader's case, the append of one byte, and the capacity test of `Emit` before it. -/
theorem rleRawAppendsItsByte : Obligations.RleRawAppendsItsByte := by
  unfold Obligations.RleRawAppendsItsByte
  refine ⟨fun s b rest hready hphase hn hunread hb => ?_, fun s b hroom => ?_, fun s b hfull => ?_⟩
  · exact step_rleRec hready hphase hn hunread rfl (bne_iff_ne.2 hb)
  · exact ⟨_, exec_rleRec rfl hroom, rfl, outByte_putByte s b⟩
  · rw [exec_unit (by simp [Instr.ctx]), unitRun, rleRawRun, emit_full hfull]
    rfl

/-- Settles O25: the reader's two cases, the append of one escape byte, and the capacity test of `Emit` before it. -/
theorem rleEsclitAppendsTheEscapeByte : Obligations.RleEsclitAppendsTheEscapeByte := by
  unfold Obligations.RleEsclitAppendsTheEscapeByte
  refine ⟨fun s third rest hready hphase hn hunread => ⟨fun hthird => ?_, fun hthird => ?_⟩, fun s hroom => ?_, fun s hfull => ?_⟩
  · subst hthird
    exact step_rleRec hready hphase hn hunread rfl rfl
  · exact step_reject hready (boundary_sToken hphase hn) (by decide) (hunread ▸ decode_rleRec_invalidEscape rest hthird)
  · exact ⟨_, exec_rleRec rfl hroom, rfl, outByte_putByte s escapeByte⟩
  · rw [exec_unit (by simp [Instr.ctx]), unitRun, rleEsclitRun, emit_full hfull]
    rfl

/-- Settles O26: the reader's case, the append of the whole run, and the `Emit` in it that finds no room. -/
theorem rleRunAppendsItsRun : Obligations.RleRunAppendsItsRun := by
  unfold Obligations.RleRunAppendsItsRun
  refine ⟨fun s sub third rest hready hphase hn hunread hsub => ?_, fun s c b hroom => ?_, fun s c b hcap hfull => ?_⟩
  · exact step_rleRec hready hphase hn hunread rfl (bne_iff_ne.2 hsub)
  · have hlen : (rleExpand (.rleRun c b)).length = c.toNat := List.length_replicate
    refine ⟨_, exec_rleRec rfl (by rwa [hlen]), ?_, outByte_putAll_replicate c.toNat b s⟩
    rw [putAll, hlen]
    rfl
  · rw [exec_unit (by simp [Instr.ctx]), unitRun, rleRunRun, emitAll_full hcap (by rwa [List.length_replicate])]
    exact ⟨_, rfl, rfl, rfl, rfl, rfl⟩

end Sys2Proof.Machine
end

section
/-! The error kinds (60_exceptions.md R310 to R328): those each command can end with, and what taking one writes. -/

namespace Sys2Proof.Machine

/-! ## Which command ends with which kind -/

/-- A command enters its own phases (R131). -/
theorem owner_firstPhase {i : Instr} (hi : i.ctx = .cmd) : owner (firstPhase i) = some i := by
  cases i with
  | huffCompress | lz77Compress | rleCompress | huffDecompress | lz77Decompress | rleDecompress => rfl
  | _ => cases hi

/-- The engine's first step brings a command with no error so far into its run: it is done at once, or in its first phase. -/
theorem runsCommand_startRun {i : Instr} {s : State} (hi : i.ctx = .cmd) (he : s.err = none) :
    RunsCommand i (startRun i s).state := by
  by_cases hn : s.n = 0
  · rw [startRun_empty hn]
    exact ⟨by simp, by simp [he]⟩
  · rw [startRun_nonempty hn]
    exact ⟨fun _ => owner_firstPhase hi, by simp [he]⟩

/-- Along the whole run from the launch a command meets only its own kinds (R320). -/
theorem runsCommand_exec {i : Instr} {s t : State} (hi : i.ctx = .cmd) (hl : s.launchable) (h : exec i s = .next t) :
    RunsCommand i t := by
  obtain ⟨c, -, hdecode, hcommand⟩ := exec_command hi
  rw [hcommand, runCommand_of_launchable hl] at h
  cases h
  rw [commandFuel, runEngine_succ _ (launch_status c s), engineStep_launch s hdecode]
  exact runEngine_induction (fun _ => runsCommand_step) _ (runsCommand_startRun hi (launch_err c s))

/-- Settles O14: the error a command ends with is one of its row of R320, and each row is written out. -/
theorem commandsEndOnlyWithTheirErrors : Obligations.CommandsEndOnlyWithTheirErrors := by
  unfold Obligations.CommandsEndOnlyWithTheirErrors
  intro i s t e hl hexec herr
  have hkind (hi : i.ctx = .cmd) : e ∈ possibleErrors (some i) := (runsCommand_exec hi hl hexec).2 e herr
  refine ⟨?_, ?_, ?_, ?_⟩
  · rintro (rfl | rfl | rfl) <;> exact List.mem_singleton.1 (hkind rfl)
  · rintro rfl
    simpa [possibleErrors] using hkind rfl
  · rintro rfl
    simpa [possibleErrors] using hkind rfl
  · rintro rfl
    simpa [possibleErrors] using hkind rfl

/-! ## Taking an error -/

/-- Settles O7: the step is the engine's, and where no unit stands the engine raises the decoder's kind. -/
theorem rejectedUnitTakesTheError : Obligations.RejectedUnitTakesTheError := by
  unfold Obligations.RejectedUnitTakesTheError
  intro s c e hready hboundary hdecode
  rw [step_engine hready, engineStep_reject hboundary hdecode]
  rfl

end Sys2Proof.Machine
end

section
/-! Reset and the host's hazards (70_reset_and_hazards.md R351 to R361, R367): the block at rest, `rst`, the writes that are ignored,
the launch that is refused, and the command that a write of the input while `BUSY` disturbs. -/

namespace Sys2Proof.Machine

/-! ## The block at rest, and reset -/

theorem step_at_rest {s : State} (hb : s.status ≠ .busy) (hh : s.host = []) : step s = .next s := by
  simp only [step, turn, hh, if_neg hb]

/-- Settles O8: neither the host nor the engine has a move. -/
theorem idleBlockKeepsItsState : Obligations.IdleBlockKeepsItsState := by
  unfold Obligations.IdleBlockKeepsItsState
  exact fun _ => step_at_rest

/-- `rst` is served in every status, and at once when the host makes it early (R351). -/
theorem step_reset {s : State} {rest : List HostReq} (hh : s.host = ⟨true, .reset⟩ :: rest) :
    step s = .next (rst { s with host := rest }) :=
  step_host hh (.inl rfl)

/-- Settles O22: the fields that `rst` takes from `State.reset`, and those it keeps. -/
theorem resetRestoresTheHostRegisters : Obligations.ResetRestoresTheHostRegisters := by
  unfold Obligations.ResetRestoresTheHostRegisters
  intro s rest hh
  exact ⟨_, step_reset hh, rfl, rfl, rfl, rfl, rfl, rfl, rfl, rfl, rfl, rfl, fun _ => rfl⟩

/-! ## Writes that are ignored -/

/-- While `BUSY` the atomic command of a word has no effect (R145, R359). -/
theorem runCommand_busy (c : Byte) {s : State} (hb : s.status = .busy) : runCommand c s = .next s := by
  rw [runCommand, if_pos hb]

/-- While `BUSY` a written word is dropped, at either level of R5 (R359). -/
theorem hostWriteCmd_busy (ex : Instr → State → Host.Outcome State Fault Refusal) (c : Byte) {s : State} (hb : s.status = .busy) :
    hostWriteCmd ex c s = .next s := by
  rw [hostWriteCmd, if_pos hb]

/-- Settles O10: as a host write the word is dropped with the request used up, and a command is the run of its word. -/
theorem commandWriteWhileBusyIsIgnored : Obligations.CommandWriteWhileBusyIsIgnored := by
  unfold Obligations.CommandWriteWhileBusyIsIgnored
  refine ⟨fun s c rest hb hh => ?_, fun s i hb hi => ?_⟩
  · rw [step_host hh (.inl rfl), hostAct_writeCmd]
    exact hostWriteCmd_busy exec c hb
  · obtain ⟨c, -, -, hcommand⟩ := exec_command hi
    rw [hcommand, runCommand_busy c hb]

/-- Settles O20: the three register numbers name registers that a write leaves alone, and an offset below `OUT_CAP` exists. -/
theorem writesToReadOnlyStateAreIgnored : Obligations.WritesToReadOnlyStateAreIgnored := by
  unfold Obligations.WritesToReadOnlyStateAreIgnored
  intro s rest n v a b
  refine ⟨fun hn hh => ?_, fun hh ha => ?_⟩ <;> rw [step_host hh (.inl rfl)]
  · rcases hn with rfl | rfl | rfl <;> rfl
  · rw [hostAct, if_neg (Nat.not_le.2 ha)]

/-! ## The launch that is refused -/

/-- Settles O11: the command is the run of its word, which tests the precondition before it launches. -/
theorem launchBeyondInCapIsRefused : Obligations.LaunchBeyondInCapIsRefused := by
  unfold Obligations.LaunchBeyondInCapIsRefused
  exact fun _ _ => exec_command_refused

/-! ## The disturbed command -/

/-- While `BUSY` a write of a byte of `IN` stores a free value and marks the command (R357, log 7). -/
theorem step_writeIn_busy {s : State} {rest : List HostReq} {a : Nat} {b : Byte} (hb : s.status = .busy)
    (hh : s.host = ⟨true, .writeIn a b⟩ :: rest) (ha : a < s.params.inCap) :
    step s = .next { s with
      host := rest, inp := s.inp.write a (Config.freeOut s.fresh a), fresh := s.fresh + 1, tainted := true } := by
  rw [step_host hh (.inl rfl), hostAct, if_neg (Nat.not_le.2 ha), if_pos hb]

/-- While `BUSY` a write of `IN_LEN` does the same to the register (R357, log 7). -/
theorem step_writeInLen_busy {s : State} {rest : List HostReq} {v : Word} (hb : s.status = .busy)
    (hh : s.host = ⟨true, .writeInLen v⟩ :: rest) :
    step s = .next { s with host := rest, inLen := Config.freeWord s.fresh, fresh := s.fresh + 1, tainted := true } := by
  rw [step_host hh (.inl rfl), hostAct_writeInLen, hostWriteInLen, if_pos hb]

/-- The engine's next move ends a disturbed command (R357, log 7). -/
theorem step_disturbed {s : State} (hb : s.status = .busy) (hh : s.host = []) (ht : s.tainted = true) :
    step s = .next (freeCompletion s) := by
  rw [step_running hb hh, engineTurn, if_pos ht]

/-- The completion is one of the two results of R130, within what the command can deliver or raise (R320, U3). -/
theorem freeCompletion_legal {s : State} (he : s.err = none) :
    (freeCompletion s).tainted = false ∧
    ((freeCompletion s).status = .done ∧ (freeCompletion s).err = none ∧ (freeCompletion s).outLen.toNat ≤ s.params.outCap ∧
        (decodeCmd s.cmd).isSome = true ∨
      (freeCompletion s).status = .error ∧ (freeCompletion s).outLen = 0 ∧
        ∃ e ∈ possibleErrors (decodeCmd s.cmd), (freeCompletion s).err = some e) := by
  obtain ⟨e, hmem, heq⟩ | ⟨hsome, k, hk, heq⟩ := freeCompletion_cases s <;> rw [heq]
  · exact ⟨rfl, .inr ⟨rfl, rfl, e, hmem, rfl⟩⟩
  · exact ⟨rfl, .inl ⟨rfl, he, (toNat_ofNat_le k).trans hk, hsome⟩⟩

/-- A word that names a command is not rejected (R92). -/
theorem decode_command_ne_error {c : Byte} (h : (decodeCmd c).isSome = true) (e : ErrKind) : decode .cmd [c] ≠ .error e := by
  obtain ⟨i, hi⟩ := Option.isSome_iff_exists.1 h
  rw [decode_command_ok hi]
  nofun

/-- Settles O23: the two writes mark the command and change nothing else but what they write; the engine's next move then ends it with
one of the completions of `freeCompletion`, each of which is legal. -/
theorem disturbedCommandEndsLegally : Obligations.DisturbedCommandEndsLegally := by
  unfold Obligations.DisturbedCommandEndsLegally
  refine ⟨fun s rest hb => ⟨fun a b hh ha => ?_, fun v hh => ?_⟩, fun s hb hh ht he => ?_⟩
  · refine ⟨_, step_writeIn_busy hb hh ha, rfl, fun x hx => ?_⟩
    simp only [State.inByte, Memory.read_write, if_neg hx]
  · exact ⟨_, step_writeInLen_busy hb hh, rfl⟩
  · obtain ⟨hclean, hend⟩ := freeCompletion_legal he
    refine ⟨_, step_disturbed hb hh ht, hclean, hend.imp_left ?_⟩
    rintro ⟨hdone, herr, hlen, hcmd⟩
    exact ⟨hdone, herr, hlen, decode_command_ne_error hcmd _⟩

end Sys2Proof.Machine
end
